-- ==== Sys2Proof/Word.lean ====
section
/-! DEFINITION. The word types of the block: 64-bit words, bytes, and the 25-lane Keccak state (10_state.md R20, R21). -/

namespace Sys2Proof

/-- A 64-bit value: a lane, a register, a command word, a DMA address (00_scope.md R6, R8). -/
abbrev Word := BitVec 64

/-- One byte of a message, of an output, of the DMA space. -/
abbrev Byte := BitVec 8

/-- Five like things, one per column or one per row of a Keccak state. -/
structure Five (α : Type) where
  x0 : α
  x1 : α
  x2 : α
  x3 : α
  x4 : α
deriving DecidableEq, Repr

/-- Entry `i`; `Fin 5` counts mod 5, as the coordinates of R21 do. -/
def Five.get {α : Type} (v : Five α) (i : Fin 5) : α :=
  match i with
  | 0 => v.x0
  | 1 => v.x1
  | 2 => v.x2
  | 3 => v.x3
  | 4 => v.x4

/-- The five values of `f`. -/
def Five.ofFn {α : Type} (f : Fin 5 → α) : Five α := ⟨f 0, f 1, f 2, f 3, f 4⟩

/-- `v` with entry `i` replaced. -/
def Five.set {α : Type} (v : Five α) (i : Fin 5) (a : α) : Five α :=
  match i with
  | 0 => { v with x0 := a }
  | 1 => { v with x1 := a }
  | 2 => { v with x2 := a }
  | 3 => { v with x3 := a }
  | 4 => { v with x4 := a }

/-- The 25 lanes of one stream: five rows (by y) of five lanes (by x) (R20, R21). -/
abbrev Lanes := Five (Five Word)

/-- The lane array whose lane at column x, row y is `f x y`. -/
def Lanes.ofFn (f : Fin 5 → Fin 5 → Word) : Lanes := Five.ofFn fun y => Five.ofFn fun x => f x y

/-- `A[x, y]` (R21). -/
def Lanes.at (A : Lanes) (x y : Fin 5) : Word := (Five.get A y).get x

/-- 25 lanes of 0. -/
def Lanes.zero : Lanes := Lanes.ofFn fun _ _ => 0

end Sys2Proof
end

