-- ==== Sys2Proof/Syntax.lean ====
section
/-! DEFINITION. The commands of the block: one constructor for each row of the opcode table, and the fields of a command word (30_encoding.md R91 to R95, R99). -/

namespace Sys2Proof

/-- A stream: A is index 0, B is index 1 (00_scope.md R10). -/
inductive StreamId where
  | a
  | b
deriving DecidableEq, Repr

/-- The stream's index e. -/
def StreamId.index : StreamId → Nat
  | .a => 0
  | .b => 1

/-- The operations of R93. -/
inductive Op where
  | zero
  | permute
  | absorb
  | squeeze
  | hash
deriving DecidableEq, Repr

/-- The algorithms of R94. -/
inductive Alg where
  | shake128
  | shake256
  | sha3_256
  | sha3_512
deriving DecidableEq, Repr

/-- The 16 commands, one for each legal word (R95). A command has no operand in its word (R92). -/
inductive Instr where
  | zero
  | zeroX2
  | permute
  | permuteX2
  | absorb
  | absorbX2
  | squeeze
  | squeezeX2
  | hashShake128
  | hashShake128X2
  | hashShake256
  | hashShake256X2
  | hashSha3_256
  | hashSha3_256X2
  | hashSha3_512
  | hashSha3_512X2
deriving DecidableEq, Repr

/-- The operation a command performs (R93). -/
def Instr.op : Instr → Op
  | .zero | .zeroX2 => .zero
  | .permute | .permuteX2 => .permute
  | .absorb | .absorbX2 => .absorb
  | .squeeze | .squeezeX2 => .squeeze
  | .hashShake128 | .hashShake128X2 | .hashShake256 | .hashShake256X2
  | .hashSha3_256 | .hashSha3_256X2 | .hashSha3_512 | .hashSha3_512X2 => .hash

/-- Whether a command is the dual-stream form (R91, field X2). -/
def Instr.x2 : Instr → Bool
  | .zero | .permute | .absorb | .squeeze
  | .hashShake128 | .hashShake256 | .hashSha3_256 | .hashSha3_512 => false
  | .zeroX2 | .permuteX2 | .absorbX2 | .squeezeX2
  | .hashShake128X2 | .hashShake256X2 | .hashSha3_256X2 | .hashSha3_512X2 => true

/-- The algorithm of a HASH command (R94); no other command has one. -/
def Instr.alg : Instr → Option Alg
  | .zero | .zeroX2 | .permute | .permuteX2 | .absorb | .absorbX2 | .squeeze | .squeezeX2 => none
  | .hashShake128 | .hashShake128X2 => some .shake128
  | .hashShake256 | .hashShake256X2 => some .shake256
  | .hashSha3_256 | .hashSha3_256X2 => some .sha3_256
  | .hashSha3_512 | .hashSha3_512X2 => some .sha3_512

/-- The scalar form of a command. -/
def Instr.scalar : Instr → Instr
  | .zero | .zeroX2 => .zero
  | .permute | .permuteX2 => .permute
  | .absorb | .absorbX2 => .absorb
  | .squeeze | .squeezeX2 => .squeeze
  | .hashShake128 | .hashShake128X2 => .hashShake128
  | .hashShake256 | .hashShake256X2 => .hashShake256
  | .hashSha3_256 | .hashSha3_256X2 => .hashSha3_256
  | .hashSha3_512 | .hashSha3_512X2 => .hashSha3_512

def Op.name : Op → String
  | .zero => "zero"
  | .permute => "permute"
  | .absorb => "absorb"
  | .squeeze => "squeeze"
  | .hash => "hash"

def Alg.name : Alg → String
  | .shake128 => "shake128"
  | .shake256 => "shake256"
  | .sha3_256 => "sha3_256"
  | .sha3_512 => "sha3_512"

/-- How a command is written: op, then alg where there is one, then x2 where it is the dual form (R99). -/
def Instr.mnemonic (i : Instr) : String :=
  i.op.name ++ (match i.alg with | none => "" | some g => "." ++ g.name) ++ (if i.x2 then ".x2" else "")

/-- The fields of a 64-bit command word, legal or not (R91). -/
structure CommandFields where
  op : BitVec 8
  x2 : Bool
  resA : BitVec 7
  alg : BitVec 2
  resB : BitVec 46
deriving DecidableEq, Repr

end Sys2Proof
end

