-- ==== Sys2Proof/Config.lean ====
section
/-! DEFINITION. The parameters a block is built with (00_scope.md R7) and the free values: what the spec leaves open.
A free value is an opaque constant applied to a counter of State, so no proof can know it. -/

namespace Sys2Proof

/-- The kind of a DMA byte access (00_scope.md R7). -/
inductive AccessKind where
  | read
  | write
deriving DecidableEq, Repr

/-- ROUNDS_PER_CYCLE, one of 1, 2, 3, 4, 6, 8, 12 and 24 (R7). -/
inductive RoundsPerCycle where
  | one
  | two
  | three
  | four
  | six
  | eight
  | twelve
  | twentyFour
deriving DecidableEq, Repr

def RoundsPerCycle.count : RoundsPerCycle → Nat
  | .one => 1
  | .two => 2
  | .three => 3
  | .four => 4
  | .six => 6
  | .eight => 8
  | .twelve => 12
  | .twentyFour => 24

/-- The addresses `base`, …, `base + size - 1`. -/
structure Span where
  base : Nat
  size : Nat
deriving DecidableEq, Repr

/-- The parameters of R7, as plain data, with what a platform may do beyond R7: leave an access without a
response (43_register_access.md R230) and hold devices with side effects (20_memory.md R70). Log 1. -/
structure Params where
  /-- HAS_X2 -/
  hasX2 : Bool
  /-- ROUNDS_PER_CYCLE -/
  roundsPerCycle : RoundsPerCycle
  /-- BASE / 1024: BASE is aligned to 1024 -/
  baseBlock : BitVec 54
  /-- DMA_COHERENT -/
  dmaCoherent : Bool
  /-- the addresses a with Admit(a, read) false -/
  refusedReads : List Span
  /-- the addresses a with Admit(a, write) false -/
  refusedWrites : List Span
  /-- the addresses whose reads never get a response (93 U11) -/
  silentReads : List Span
  /-- the addresses whose writes never get a response (93 U11) -/
  silentWrites : List Span
  /-- the addresses that are devices with read or write side effects (93 U10) -/
  devices : List Span
deriving DecidableEq, Repr

/-- The parameters State.reset is built with: those 95_test_vectors.md assumes where a vector says nothing
else. DESIGN CHOICE, log 1: a claim about every state holds for every value of them. -/
def Params.standard : Params where
  hasX2 := true
  roundsPerCycle := .two
  baseBlock := 0
  dmaCoherent := true
  refusedReads := []
  refusedWrites := []
  silentReads := []
  silentWrites := []
  devices := []

/-- What a free bit or a free pick decides. -/
inductive FreeUse where
  /-- which value of a stale source byte a DMA read returns (20_memory.md R81) -/
  | dmaRead
  /-- which value of a stale byte a host load returns (20_memory.md R81) -/
  | hostRead
  /-- whether the engine has read a source byte by now (20_memory.md R74, R75) -/
  | readBy
  /-- whether stream B's byte lands after stream A's (20_memory.md R77) -/
  | overlap
  /-- whether the engine has written a destination byte by now (20_memory.md R74, R75; 60_exceptions.md R251;
  70_reset_and_hazards.md R271) -/
  | landed
  /-- which refused address stops the command (60_exceptions.md R249, R250) -/
  | refusedAddr
  /-- whether a refused access or one without a response comes first (20_memory.md R76) -/
  | refusedFirst
  /-- whether, and which, write is on the bus at a soft reset (70_reset_and_hazards.md R272) -/
  | inFlight
deriving DecidableEq, Repr

/-- Free value: a lane of a stream after a bus error (60_exceptions.md R251). Log 6. -/
opaque Config.freeLane : Nat → StreamId → Nat → Word

/-- Free value: a choice of two, for a stream and at an address. -/
opaque Config.freeBit : Nat → FreeUse → StreamId → Nat → Bool

/-- Free value: a pick among finitely many, at an address and for a stream. -/
opaque Config.freePick : Nat → FreeUse → StreamId → Nat → Nat

end Sys2Proof
end

