-- ==== Sys2Proof/Machine/State.lean ====
section
/-! DEFINITION. The state of the machine, its reset, and the reasons a step can stop (10_state.md; 70_reset_and_hazards.md R270). -/

namespace Sys2Proof.Machine

/-- PHASE (10_state.md R25). -/
inductive Phase where
  | empty
  | absorbed
  | squeezing
  | raw
  | failed
deriving DecidableEq, Repr

/-- ERRCODE (60_exceptions.md R241). -/
inductive ErrCode where
  | none
  | illegal
  | noX2
  | rate
  | seq
  | range
  | busRead
  | busWrite
deriving DecidableEq, Repr

/-- The nine parameter registers (10_state.md R36 to R42). RATE and DS store eight bits (43_register_access.md R220). -/
structure Operands where
  rate : Byte
  ds : Byte
  len : Word
  outlen : Word
  nblocks : Word
  srcA : Word
  srcB : Word
  dstA : Word
  dstB : Word
deriving DecidableEq, Repr

/-- `eng` (10_state.md R26): idle, or busy with a command word and the parameter registers at its acceptance. -/
inductive Engine where
  | idle
  | busy (c : Word) (ops : Operands)
deriving DecidableEq, Repr

/-- The DMA space: (address, byte) pairs in the canonical form of `Memory.wf` (Machine/Memory.lean). -/
abbrev Memory := List Host.Cell

/-- A source byte the engine has read for a stream. -/
structure ReadByte where
  stream : StreamId
  addr : Nat
  byte : Byte
deriving DecidableEq, Repr

/-- What the running command has done already, as far as the host's accesses settle it: the source bytes it has read, and
for which streams it has written which destination bytes. It accesses each byte once (20_memory.md R68), at some instant
of its run (R74, R75; log 8). -/
structure Progress where
  reads : List ReadByte
  written : List (StreamId × Nat)
deriving DecidableEq, Repr

/-- Nothing read and nothing written yet. -/
def Progress.start : Progress where
  reads := []
  written := []

/-- What moves next (43_register_access.md R210; log 2): the engine, the host or the platform. -/
inductive Move where
  /-- the engine has its turn -/
  | engine
  /-- the host stores `v`, `size` bytes wide, at a host address -/
  | regWrite (addr : Word) (size : Nat) (v : Word)
  /-- the host reads STATUS until BUSY is 0 (30_encoding.md R101; log 23) -/
  | awaitIdle
  /-- the host loads `size` bytes at a host address -/
  | regRead (addr : Word) (size : Nat)
  /-- the host stores a byte in the DMA space -/
  | memStore (addr : Word) (b : Byte)
  /-- the host loads a byte of the DMA space -/
  | memLoad (addr : Word)
  /-- the host makes its stores to a span visible to the DMA (70_reset_and_hazards.md R278) -/
  | cacheClean (span : Span)
  /-- the host discards its cached copies of a span (70_reset_and_hazards.md R278) -/
  | cacheInvalidate (span : Span)
  /-- the reset input is asserted (70_reset_and_hazards.md R270) -/
  | resetAssert
  /-- the reset input is released (70_reset_and_hazards.md R270) -/
  | resetRelease
  /-- the block loses power and gets it back (60_exceptions.md R261) -/
  | powerCycle
  /-- the write left on the bus by a soft reset completes (70_reset_and_hazards.md R272) -/
  | busLand
deriving DecidableEq, Repr

/-- The machine. The fields down to `mem` are the spec's; `params` are its parameters; the rest are the model's
own (INVENTORY.md, State). -/
@[ext]
structure State where
  /-- the parameters the block is built with (00_scope.md R7) -/
  params : Params
  /-- lanes of stream A (10_state.md R20) -/
  s0 : Lanes
  /-- lanes of stream B (10_state.md R20) -/
  s1 : Lanes
  /-- PHASE (10_state.md R25) -/
  phase : Phase
  /-- `eng` (10_state.md R26) -/
  eng : Engine
  /-- what the running command has done already (10_state.md R26; log 8) -/
  prog : Progress
  /-- STATUS.DONE (10_state.md R34) -/
  done : Bool
  /-- STATUS.ERR -/
  err : Bool
  /-- STATUS.OVR -/
  ovr : Bool
  /-- STATUS.ERRCODE -/
  errCode : ErrCode
  /-- ERRADDR (10_state.md R43) -/
  errAddr : Word
  /-- CTRL.IE (10_state.md R33) -/
  ie : Bool
  /-- CMD: the last word accepted (10_state.md R35) -/
  cmd : Word
  /-- RATE, DS, LEN, OUTLEN, NBLOCKS, SRC_A, SRC_B, DST_A, DST_B (10_state.md R36 to R42) -/
  regs : Operands
  /-- the DMA space (20_memory.md R60) -/
  mem : Memory
  /-- the reset input is asserted (70_reset_and_hazards.md R270) -/
  resetIn : Bool
  /-- the coming moves; when there is none, the engine moves (log 2) -/
  moves : List Move
  /-- what the host's last register read returned (log 16) -/
  rdata : Word
  /-- what the host's last load from the DMA space returned (log 16) -/
  mdata : Byte
  /-- replaced bytes the engine may still read, without coherence (log 10) -/
  engineStale : List Host.Cell
  /-- replaced bytes the host may still read, without coherence (log 10) -/
  hostStale : List Host.Cell
  /-- the DMA write still on the bus after a soft reset (log 18) -/
  inFlight : Option Host.Cell
  /-- the counter that free values are applied to (log 16) -/
  tick : Nat
deriving DecidableEq, Repr

/-- Why the machine stops with a fault. -/
inductive Fault where
  /-- Raised by a host register access that is not 64 bits wide or not at a multiple of 8
  (20_memory.md R62: "a model treats it as a fault of the host program"). Safe. Log 13. -/
  | hostAccessShape
deriving DecidableEq, Repr

/-- Why the machine gives no meaning to what comes next. -/
inductive Refusal where
  /-- Raised by no arm any more: an instruction with no meaning yet. Safe. -/
  | notModelled (mnemonic : String)
  /-- Raised when a range of the running command covers a device with side effects (20_memory.md R70:
  "a model refuses such a program"). Safe. Log 12. -/
  | deviceInDmaRange
  /-- Raised by a host register access while the reset input is asserted (70_reset_and_hazards.md R270:
  "The platform decides"). Safe. Log 14. -/
  | hostAccessInReset
  /-- Raised by a host access to an address outside the register window: it is not an access to the block. Safe. Log 15. -/
  | outsideWindow
deriving DecidableEq, Repr

/-- The outcomes of a step. -/
abbrev Result := Host.Outcome State Fault Refusal

/-- Every parameter register 0 (10_state.md R46). -/
def Operands.reset : Operands where
  rate := 0
  ds := 0
  len := 0
  outlen := 0
  nblocks := 0
  srcA := 0
  srcB := 0
  dstA := 0
  dstB := 0

/-- The state right after reset of a block built with parameters `p` (10_state.md R46, 70_reset_and_hazards.md R270),
with nothing listed in the DMA space and nothing coming. -/
def State.resetWith (p : Params) : State where
  params := p
  s0 := Lanes.zero
  s1 := Lanes.zero
  phase := .empty
  eng := .idle
  prog := Progress.start
  done := false
  err := false
  ovr := false
  errCode := .none
  errAddr := 0
  ie := false
  cmd := 0
  regs := Operands.reset
  mem := []
  resetIn := false
  moves := []
  rdata := 0
  mdata := 0
  engineStale := []
  hostStale := []
  inFlight := none
  tick := 0

/-- The machine right after reset, with the parameters of `Params.standard` (log 1). -/
def State.reset : State := State.resetWith Params.standard

end Sys2Proof.Machine
end

