-- ==== Sys2Proof/Machine/Flags.lean ====
section
/-! DEFINITION. The status flags: STATUS, CTRL and irq as the host sees them, and what sets and clears the flags
(10_state.md R28, R33, R34, R45; 43_register_access.md R214 to R216; 60_exceptions.md R252). -/

namespace Sys2Proof.Machine

/-- The value of PHASE in STATUS[11:8] (10_state.md R25). -/
def Phase.code : Phase → BitVec 4
  | .empty => 0
  | .absorbed => 1
  | .squeezing => 2
  | .raw => 3
  | .failed => 4

/-- The value of ERRCODE in STATUS[23:16] (60_exceptions.md R241). -/
def ErrCode.code : ErrCode → BitVec 8
  | .none => 0
  | .illegal => 1
  | .noX2 => 2
  | .rate => 3
  | .seq => 4
  | .range => 5
  | .busRead => 6
  | .busWrite => 7

/-- BUSY: `eng` is Busy (10_state.md R34). -/
def State.busy (s : State) : Bool :=
  match s.eng with
  | .busy _ _ => true
  | .idle => false

/-- A flag as a 64-bit value. -/
def flagWord (b : Bool) : Word := (BitVec.ofBool b).setWidth 64

/-- What a STATUS read returns (43_register_access.md R215). -/
def State.statusWord (s : State) : Word :=
  flagWord s.busy ||| (flagWord s.done <<< 1) ||| (flagWord s.err <<< 2) ||| (flagWord s.ovr <<< 3) |||
    (s.phase.code.setWidth 64 <<< 8) ||| (s.errCode.code.setWidth 64 <<< 16)

/-- What a CTRL read returns: IE, and SRST as 0 (43_register_access.md R214). -/
def State.ctrlWord (s : State) : Word := flagWord s.ie

/-- The interrupt output (10_state.md R45). -/
def State.irq (s : State) : Bool := s.ie && s.done

/-- A STATUS write (43_register_access.md R216). -/
def State.clearFlags (s : State) (v : Word) : State :=
  { s with
    done := s.done && !v.getLsbD 1
    err := s.err && !v.getLsbD 2
    errCode := if v.getLsbD 2 then .none else s.errCode
    errAddr := if v.getLsbD 2 then 0 else s.errAddr
    ovr := s.ovr && !v.getLsbD 3 }

/-- The error names a failing byte access (60_exceptions.md R252). -/
def ErrCode.hasAddr : ErrCode → Bool
  | .busRead | .busWrite => true
  | .none | .illegal | .noX2 | .rate | .seq | .range => false

/-- Record an error; the first since ERR was cleared is kept (60_exceptions.md R252). -/
def State.recordError (s : State) (e : ErrCode) (a : Word) : State :=
  if s.err then s
  else { s with err := true, errCode := e, errAddr := if e.hasAddr then a else 0 }

end Sys2Proof.Machine
end

