-- ==== Sys2Proof/Machine/Memory.lean ====
section
/-! DEFINITION. The DMA space: one byte at each of 2^64 addresses (20_memory.md R60, R66), and the platform's answers (R69). -/

namespace Sys2Proof.Machine

/-- What a byte that nothing has written reads as. The spec gives none: DESIGN CHOICE, unsafe, log 5. -/
def Memory.unlisted : Byte := 0

/-- The number of DMA addresses (20_memory.md R60). -/
def Memory.size : Nat := 2 ^ 64

/-- The byte at an address. -/
def Memory.read : Memory → Nat → Byte
  | [], _ => Memory.unlisted
  | (a, b) :: m, k => if k = a then b else Memory.read m k

/-- Put a cell in front, unless it holds what an unlisted address reads as. -/
def Memory.cons (k : Nat) (v : Byte) (m : Memory) : Memory :=
  if v = Memory.unlisted then m else (k, v) :: m

/-- Store a byte, keeping the addresses rising and no cell redundant. -/
def Memory.write : Memory → Nat → Byte → Memory
  | [], k, v => Memory.cons k v []
  | (a, b) :: m, k, v =>
    if k < a then Memory.cons k v ((a, b) :: m)
    else if k = a then Memory.cons k v m
    else (a, b) :: Memory.write m k v

/-- Canonical from an address on: addresses rise, each is a DMA address, none holds the unlisted byte. -/
def Memory.wfFrom : Nat → Memory → Bool
  | _, [] => true
  | lo, (a, b) :: m =>
    decide (lo ≤ a) && decide (a < Memory.size) && decide (b ≠ Memory.unlisted) && Memory.wfFrom (a + 1) m

/-- The canonical form of the DMA space: equal memories are equal lists. -/
def Memory.wf (m : Memory) : Bool := Memory.wfFrom 0 m

/-- The cells that a byte string fills from an address on. -/
def cellsAt : Nat → List Byte → List Host.Cell
  | _, [] => []
  | a, b :: bs => (a, b) :: cellsAt (a + 1) bs

/-- Store cells, first to last. -/
def Memory.writeCells (m : Memory) (cs : List Host.Cell) : Memory :=
  cs.foldl (fun m c => m.write c.1 c.2) m

/-- Whether a span holds an address. -/
def spanHolds (p : Span) (a : Nat) : Bool := decide (p.base ≤ a) && decide (a < p.base + p.size)

/-- Whether a span and the range of `n` bytes at `a` have an address in common. -/
def spanMeets (p : Span) (a n : Nat) : Bool :=
  decide (0 < n) && decide (0 < p.size) && decide (p.base < a + n) && decide (a < p.base + p.size)

/-- `Admit(a, kind)` (20_memory.md R69). -/
def admits (p : Params) (a : Nat) (k : AccessKind) : Bool :=
  !((match k with | .read => p.refusedReads | .write => p.refusedWrites).any fun sp => spanHolds sp a)

/-- The platform responds to an access of a kind at `a` at all (43_register_access.md R230). That which accesses get no
response is fixed, by address and kind, is the model's choice (log 11). -/
def responds (p : Params) (a : Nat) (k : AccessKind) : Bool :=
  !((match k with | .read => p.silentReads | .write => p.silentWrites).any fun sp => spanHolds sp a)

/-- An access at `a` is admitted and gets its response. -/
def answers (p : Params) (k : AccessKind) (a : Nat) : Bool := admits p a k && responds p a k

/-- A range covers a device with side effects (20_memory.md R70). -/
def coversDevice (p : Params) (a n : Nat) : Bool := p.devices.any fun sp => spanMeets sp a n

/-- `[a, a + n)` as a list of addresses, in rising order. -/
def addressesFrom (a n : Nat) : List Nat := (List.range n).map fun k => a + k

end Sys2Proof.Machine
end

