-- ==== Sys2Proof/Machine/Lanes.lean ====
section
/-! DEFINITION. Views of a Keccak state: by lane index, by byte, as dual-lane words and as the image of the STATE window
(10_state.md R21 to R23, R44; 20_memory.md R64; 41_sponge.md R155, R156). -/

namespace Sys2Proof

/-- The column of lane index i (10_state.md R21). -/
def laneX (i : Nat) : Fin 5 := Fin.ofNat 5 (i % 5)

/-- The row of lane index i. -/
def laneY (i : Nat) : Fin 5 := Fin.ofNat 5 (i / 5)

/-- Lane i, 0 ≤ i < 25. -/
def Lanes.lane (L : Lanes) (i : Nat) : Word := L.at (laneX i) (laneY i)

/-- `L` with lane i replaced. -/
def Lanes.setLane (L : Lanes) (i : Nat) (v : Word) : Lanes :=
  Five.set L (laneY i) ((Five.get L (laneY i)).set (laneX i) v)

/-- `SB[j]`, byte j of the state, 0 ≤ j < 200 (20_memory.md R64). -/
def Lanes.byte (L : Lanes) (j : Nat) : Byte := (L.lane (j / 8)).extractLsb' (8 * (j % 8)) 8

/-- `SB[j] ^= v` (20_memory.md R64). -/
def Lanes.xorByte (L : Lanes) (j : Nat) (v : Byte) : Lanes :=
  L.setLane (j / 8) (L.lane (j / 8) ^^^ (v.setWidth 64 <<< (8 * (j % 8))))

/-- The first `n` state bytes. -/
def Lanes.bytes (L : Lanes) (n : Nat) : List Byte := (List.range n).map L.byte

/-- The 128-bit dual-lane word W[i] = S[1][i] ‖ S[0][i] (10_state.md R22). -/
def dualWord (a b : Lanes) (i : Nat) : BitVec 128 := b.lane i ++ a.lane i

/-- Byte k, 0 ≤ k < 400, of the interleaved image of the 25 dual-lane words (10_state.md R44). -/
def windowByte (a b : Lanes) (k : Nat) : Byte := (dualWord a b (k / 16)).extractLsb' (8 * (k % 16)) 8

/-- Interleave two byte strings at 8-byte granularity (41_sponge.md R155). -/
def interleave (a b : List Byte) : List Byte :=
  (List.range (2 * a.length)).map fun n =>
    (if n / 8 % 2 = 0 then a else b).getD (8 * (n / 16) + n % 8) 0

/-- The byte string of one stream in an interleaved image (41_sponge.md R156). -/
def deinterleave (image : List Byte) (e : Fin 2) : List Byte :=
  (List.range (image.length / 2)).map fun m => image.getD (16 * (m / 8) + 8 * e.val + m % 8) 0

end Sys2Proof
end

