-- ==== Sys2Proof/Machine/Keccak.lean ====
section
/-! DEFINITION. The Keccak-f[1600] permutation (40_permutation.md). -/

namespace Sys2Proof

/-- `ROL64(a, n)` for 0 ≤ n ≤ 63 (R120). -/
def rol64 (a : Word) (n : Nat) : Word := (a <<< n) ||| (a >>> (64 - n))

/-- Theta (R122). -/
def theta (A : Lanes) : Lanes :=
  let C := Five.ofFn fun x => A.at x 0 ^^^ A.at x 1 ^^^ A.at x 2 ^^^ A.at x 3 ^^^ A.at x 4
  let D := Five.ofFn fun x => C.get (x - 1) ^^^ rol64 (C.get (x + 1)) 1
  Lanes.ofFn fun x y => A.at x y ^^^ D.get x

/-- The rho offsets by lane index i = x + 5y (R124). -/
def rhoTable : List Nat :=
  [0, 1, 62, 28, 27, 36, 44, 6, 55, 20, 3, 10, 43, 25, 39, 41, 45, 15, 21, 8, 18, 2, 61, 56, 14]

/-- r[x, y] (R124). -/
def rhoOffset (x y : Fin 5) : Nat := rhoTable.getD (x.val + 5 * y.val) 0

/-- Rho (R123). -/
def rho (A : Lanes) : Lanes := Lanes.ofFn fun x y => rol64 (A.at x y) (rhoOffset x y)

/-- Pi (R125). -/
def pi (A : Lanes) : Lanes := Lanes.ofFn fun x y => A.at (x + 3 * y) x

/-- Chi (R126). -/
def chi (A : Lanes) : Lanes :=
  Lanes.ofFn fun x y => A.at x y ^^^ (~~~(A.at (x + 1) y) &&& A.at (x + 2) y)

/-- The round constants RC[0..23] (R128). -/
def roundConstants : List Word :=
  [0x0000000000000001, 0x0000000000008082, 0x800000000000808A, 0x8000000080008000,
   0x000000000000808B, 0x0000000080000001, 0x8000000080008081, 0x8000000000008009] ++
  [0x000000000000008A, 0x0000000000000088, 0x0000000080008009, 0x000000008000000A,
   0x000000008000808B, 0x800000000000008B, 0x8000000000008089, 0x8000000000008003] ++
  [0x8000000000008002, 0x8000000000000080, 0x000000000000800A, 0x800000008000000A,
   0x8000000080008081, 0x8000000000008080, 0x0000000080000001, 0x8000000080008008]

/-- RC[ir], 0 ≤ ir < 24. -/
def roundConstant (ir : Nat) : Word := roundConstants.getD ir 0

/-- Iota for round ir (R127). -/
def iota (A : Lanes) (ir : Nat) : Lanes :=
  Lanes.ofFn fun x y => if x = 0 ∧ y = 0 then A.at x y ^^^ roundConstant ir else A.at x y

/-- One round (R130). -/
def keccakRound (A : Lanes) (ir : Nat) : Lanes := iota (chi (pi (rho (theta A)))) ir

/-- The permutation: 24 rounds, ir rising (R131). -/
def keccakF (A : Lanes) : Lanes := (List.range 24).foldl keccakRound A

/-! The rest of the file is what the spec checks its tables against, and the fused form of rho and pi. -/

/-- Rho and pi in one pass: lane (x, y), rotated, goes to (y, 2x + 3y) (R132). -/
def rhoPiStep (A B : Lanes) (i : Nat) : Lanes :=
  B.setLane ((laneY i).val + 5 * (2 * laneX i + 3 * laneY i).val)
    (rol64 (A.at (laneX i) (laneY i)) (rhoOffset (laneX i) (laneY i)))

/-- The fused pass over the 25 lanes, in index order (R132). -/
def rhoPi (A : Lanes) : Lanes := (List.range 25).foldl (rhoPiStep A) Lanes.zero

/-- One step of the LFSR of R129 on its eight-bit register. -/
def rcStep (r : BitVec 8) : BitVec 8 :=
  let shifted : BitVec 9 := r ++ 0#1
  let feedback : BitVec 9 := if shifted.getLsbD 8 then 0b001110001 else 0
  (shifted ^^^ feedback).setWidth 8

/-- The register after t steps from 1. -/
def rcRegister : Nat → BitVec 8
  | 0 => 1
  | t + 1 => rcStep (rcRegister t)

/-- rc(t) (R129). -/
def rcBit (t : Nat) : Bool := if t % 255 = 0 then true else (rcRegister (t % 255)).getLsbD 0

/-- RC[ir] as R129 generates it: bit 2^j - 1 is rc(j + 7 ir) for j in 0..6. -/
def generatedRoundConstant (ir : Nat) : Word :=
  (List.range 7).foldl
    (fun w j => if rcBit (j + 7 * ir) then w ||| (1#64 <<< (2 ^ j - 1)) else w) 0

/-- The walk (x, y) ← (y, 2x + 3y) from (1, 0), t steps (R124). -/
def rhoWalk : Nat → Fin 5 × Fin 5
  | 0 => (1, 0)
  | t + 1 => ((rhoWalk t).2, 2 * (rhoWalk t).1 + 3 * (rhoWalk t).2)

/-- The offset R124's Algorithm 2 gives the lane that the walk meets at step t. -/
def rhoWalkOffset (t : Nat) : Nat := (t + 1) * (t + 2) / 2 % 64

end Sys2Proof
end

