-- ==== Sys2Proof/Machine/Sponge.lean ====
section
/-! DEFINITION. The sponge on one stream: padding, absorb, squeeze and the one-shot procedure (41_sponge.md R150 to R154,
42_hash.md R190, R191). Each is a function of the stream's lanes and of the message bytes the DMA read, and gives the
bytes the DMA writes. -/

namespace Sys2Proof

/-- A rate is legal: a multiple of 8 from 8 to 200 (41_sponge.md R150). -/
def rateLegal (R : Nat) : Bool := decide (R % 8 = 0) && decide (8 ≤ R) && decide (R ≤ 200)

/-- The capacity in bytes (41_sponge.md R151). -/
def capacity (R : Nat) : Nat := 200 - R

/-- XOR a byte string into the state from byte j on (41_sponge.md R153). -/
def xorBytes (L : Lanes) (j : Nat) : List Byte → Lanes
  | [] => L
  | b :: bs => xorBytes (L.xorByte j b) (j + 1) bs

/-- Padding after r message bytes of a block (41_sponge.md R152). -/
def pad (L : Lanes) (r R : Nat) (ds : Byte) : Lanes := (L.xorByte r ds).xorByte (R - 1) 0x80

/-- Absorb the first `n` blocks of R bytes of a message, permuting after each (41_sponge.md R153). -/
def absorbBlocks (R : Nat) : Nat → Lanes → List Byte → Lanes
  | 0, L, _ => L
  | n + 1, L, msg => absorbBlocks R n (keccakF (xorBytes L 0 (msg.take R))) (msg.drop R)

/-- AbsorbBytes(R, ds, message): from 25 lanes of 0, whole blocks, tail, padding (41_sponge.md R153). -/
def absorbBytes (R : Nat) (ds : Byte) (msg : List Byte) : Lanes :=
  let full := msg.length / R
  let tail := msg.drop (full * R)
  pad (xorBytes (absorbBlocks R full Lanes.zero msg) 0 tail) tail.length R ds

/-- SqueezeBlocks(L, R, n): permute, then take R bytes, n times; the lanes after it and the bytes written in order
(41_sponge.md R154). -/
def squeezeBlocks (R : Nat) : Nat → Lanes → Lanes × List Byte
  | 0, L => (L, [])
  | n + 1, L =>
    let rest := squeezeBlocks R n (keccakF L)
    (rest.1, (keccakF L).bytes R ++ rest.2)

/-- Squeeze `outlen` bytes: whole blocks, then one partial block whose rest is discarded (42_hash.md R191). -/
def squeezeBytes (R outlen : Nat) (L : Lanes) : Lanes × List Byte :=
  let whole := squeezeBlocks R (outlen / R) L
  if outlen % R = 0 then whole
  else (keccakF whole.1, whole.2 ++ (keccakF whole.1).bytes (outlen % R))

/-- One row of the algorithm table (42_hash.md R190). -/
structure AlgRow where
  rate : Nat
  ds : Byte
  /-- the fixed output length in bytes; none: OUTLEN gives it -/
  outlen : Option Nat
deriving DecidableEq, Repr

/-- The algorithm table (42_hash.md R190). -/
def algRow : Alg → AlgRow
  | .shake128 => ⟨168, 0x1F, none⟩
  | .shake256 => ⟨136, 0x1F, none⟩
  | .sha3_256 => ⟨136, 0x06, some 32⟩
  | .sha3_512 => ⟨72, 0x06, some 64⟩

/-- The one-shot procedure on one stream (42_hash.md R191). -/
def oneShot (R : Nat) (ds : Byte) (outlen : Nat) (msg : List Byte) : Lanes × List Byte :=
  squeezeBytes R outlen (absorbBytes R ds msg)

end Sys2Proof
end

