-- ==== Sys2Proof/Machine/Operands.lean ====
section
/-! DEFINITION. Operands: what each command reads, the ranges it covers, the job it runs on each stream, and the checks
before it runs (30_encoding.md R92; 20_memory.md R68; 60_exceptions.md R242). -/

namespace Sys2Proof.Machine

/-- The operands of the running command are its snapshot (10_state.md R26). A command is never run from `idle`; there
the registers stand in (log 21). -/
def State.operands (s : State) : Operands :=
  match s.eng with
  | .busy _ ops => ops
  | .idle => s.regs

/-- SRC_e (10_state.md R41), an unsigned address (R92). -/
def Operands.src (o : Operands) : StreamId → Nat
  | .a => o.srcA.toNat
  | .b => o.srcB.toNat

/-- DST_e (10_state.md R42). -/
def Operands.dst (o : Operands) : StreamId → Nat
  | .a => o.dstA.toNat
  | .b => o.dstB.toNat

/-- `S[e]` (10_state.md R20). -/
def State.lanes (s : State) : StreamId → Lanes
  | .a => s.s0
  | .b => s.s1

/-- What a command does, apart from the checks, the bus and the completion. `work` maps the lanes of ONE stream and
its message to the stream's new lanes and its output: the streams cannot interact (40_permutation.md R134), and one
job serves both (41_sponge.md R167). -/
structure Job where
  /-- the command names both streams -/
  x2 : Bool
  /-- RATE[7:0] where the command uses it (60_exceptions.md R242, check 3) -/
  rate : Option Nat
  /-- the command needs a phase other than EMPTY and FAILED (check 4) -/
  needsPhase : Bool
  /-- message bytes read for each stream -/
  srcLen : Nat
  /-- output bytes written for each stream -/
  dstLen : Nat
  work : Lanes → List Byte → Lanes × List Byte
  /-- PHASE at completion (41_sponge.md R164) -/
  phase : Phase → Phase

/-- ZERO (41_sponge.md R158, R159). -/
def zeroJob (x2 : Bool) : Job where
  x2 := x2
  rate := none
  needsPhase := false
  srcLen := 0
  dstLen := 0
  work := fun _ _ => (Lanes.zero, [])
  phase := fun _ => .empty

/-- PERMUTE (40_permutation.md R135, R136). -/
def permuteJob (x2 : Bool) : Job where
  x2 := x2
  rate := none
  needsPhase := false
  srcLen := 0
  dstLen := 0
  work := fun L _ => (keccakF L, [])
  phase := fun _ => .raw

/-- ABSORB (41_sponge.md R160, R161). -/
def absorbJob (x2 : Bool) (o : Operands) : Job where
  x2 := x2
  rate := some o.rate.toNat
  needsPhase := false
  srcLen := o.len.toNat
  dstLen := 0
  work := fun _ msg => (absorbBytes o.rate.toNat o.ds msg, [])
  phase := fun _ => .absorbed

/-- SQUEEZE (41_sponge.md R162, R163). -/
def squeezeJob (x2 : Bool) (o : Operands) : Job where
  x2 := x2
  rate := some o.rate.toNat
  needsPhase := true
  srcLen := 0
  dstLen := o.nblocks.toNat * o.rate.toNat
  work := fun L _ => squeezeBlocks o.rate.toNat o.nblocks.toNat L
  phase := fun p => if o.nblocks.toNat = 0 then p else .squeezing

/-- outlen of an algorithm: fixed, or OUTLEN (42_hash.md R190, R201). -/
def outputLength (g : Alg) (o : Operands) : Nat := (algRow g).outlen.getD o.outlen.toNat

/-- HASH (42_hash.md R192); it reads neither RATE, DS, NBLOCKS nor PHASE (R202). -/
def hashJob (g : Alg) (x2 : Bool) (o : Operands) : Job where
  x2 := x2
  rate := none
  needsPhase := false
  srcLen := o.len.toNat
  dstLen := outputLength g o
  work := fun _ msg => oneShot (algRow g).rate (algRow g).ds (outputLength g o) msg
  phase := fun _ => if outputLength g o = 0 then .absorbed else .squeezing

/-- The job of each command. -/
def jobOf (i : Instr) (o : Operands) : Job :=
  match i with
  | .zero => zeroJob false
  | .zeroX2 => zeroJob true
  | .permute => permuteJob false
  | .permuteX2 => permuteJob true
  | .absorb => absorbJob false o
  | .absorbX2 => absorbJob true o
  | .squeeze => squeezeJob false o
  | .squeezeX2 => squeezeJob true o
  | .hashShake128 => hashJob .shake128 false o
  | .hashShake128X2 => hashJob .shake128 true o
  | .hashShake256 => hashJob .shake256 false o
  | .hashShake256X2 => hashJob .shake256 true o
  | .hashSha3_256 => hashJob .sha3_256 false o
  | .hashSha3_256X2 => hashJob .sha3_256 true o
  | .hashSha3_512 => hashJob .sha3_512 false o
  | .hashSha3_512X2 => hashJob .sha3_512 true o

/-- The streams a command names (00_scope.md R10). -/
def Job.streams (j : Job) : List StreamId := if j.x2 then [.a, .b] else [.a]

/-- The addresses a command reads (20_memory.md R68). -/
def Job.srcAddrs (j : Job) (o : Operands) : List Nat :=
  j.streams.flatMap fun e => addressesFrom (o.src e) j.srcLen

/-- The addresses a command writes (20_memory.md R68). -/
def Job.dstAddrs (j : Job) (o : Operands) : List Nat :=
  j.streams.flatMap fun e => addressesFrom (o.dst e) j.dstLen

/-- An address is in a destination range of the command (20_memory.md R68). -/
def Job.inDst (j : Job) (o : Operands) (a : Nat) : Bool :=
  j.streams.any fun e => decide (o.dst e ≤ a) && decide (a < o.dst e + j.dstLen)

/-- Check 3: RATE is used and not legal (60_exceptions.md R242, R246). -/
def Job.rateBad (j : Job) : Bool :=
  match j.rate with
  | none => false
  | some R => !rateLegal R

/-- Check 4: PHASE is used and is EMPTY or FAILED (60_exceptions.md R242, R247). -/
def Job.seqBad (j : Job) (ph : Phase) : Bool := j.needsPhase && (ph == .empty || ph == .failed)

/-- Check 5: some range ends past 2^64, in unbounded integers (60_exceptions.md R242, R248). -/
def Job.rangeBad (j : Job) (o : Operands) : Bool :=
  j.streams.any fun e =>
    decide (2 ^ 64 < o.src e + j.srcLen) || decide (2 ^ 64 < o.dst e + j.dstLen)

/-- Checks 2 to 5, in order; the first that fails decides (60_exceptions.md R242). Check 1 is decoding. -/
def Job.check (j : Job) (p : Params) (ph : Phase) (o : Operands) : Option ErrCode :=
  if j.x2 && !p.hasX2 then some .noX2
  else if j.rateBad then some .rate
  else if j.seqBad ph then some .seq
  else if j.rangeBad o then some .range
  else none

/-- A range of the command covers a device with side effects (20_memory.md R70). -/
def Job.touchesDevice (j : Job) (p : Params) (o : Operands) : Bool :=
  j.streams.any fun e => coversDevice p (o.src e) j.srcLen || coversDevice p (o.dst e) j.dstLen

end Sys2Proof.Machine
end

