-- ==== Sys2Proof/Machine/Ops.lean ====
section
/-! DEFINITION. The shared operations: completing a command, with or without an error; the engine's byte reads and writes
with what the spec leaves open about them; and running a job (43_register_access.md R227, R228; 20_memory.md R66 to R77;
60_exceptions.md R242 to R252). -/

namespace Sys2Proof.Machine

/-- Completion (43_register_access.md R228). -/
def State.complete (s : State) : State :=
  { s with eng := .idle, prog := Progress.start, done := true, tick := s.tick + 1 }

/-- Completion with an error: the block's only way of failing (60_exceptions.md R240, R252; 43_register_access.md R228). -/
def State.completeError (s : State) (e : ErrCode) (a : Word) : State := (s.recordError e a).complete

/-- One of several bytes: the one there now, or an earlier one. -/
def pickByte (now : Byte) (olds : List Byte) (n : Nat) : Byte :=
  match olds with
  | [] => now
  | _ :: _ => (now :: olds).getD (n % (olds.length + 1)) now

/-- The replaced bytes at an address that the engine may still read: none with coherence (20_memory.md R81). -/
def State.staleFor (s : State) (a : Nat) : List Byte :=
  if s.params.dmaCoherent then [] else (s.engineStale.filter fun c => c.1 == a).map fun c => c.2

/-- The byte the running command has already read for stream e at an address, if it has. -/
def State.readAlready (s : State) (e : StreamId) (a : Nat) : Option Byte :=
  (s.prog.reads.find? fun r => r.stream == e && r.addr == a).map fun r => r.byte

/-- `MemRead(a, 1)` for stream e (20_memory.md R66): what was read, where the read is done (R68); else the byte there, or
one it replaced and the engine may still see (20_memory.md R81). -/
def State.dmaByte (s : State) (e : StreamId) (a : Nat) : Byte :=
  match s.readAlready e a with
  | some b => b
  | none => pickByte (s.mem.read a) (s.staleFor a) (Config.freePick s.tick .dmaRead e a)

/-- The bytes of a source range, in address order. -/
def State.dmaBytes (s : State) (e : StreamId) (a n : Nat) : List Byte :=
  (addressesFrom a n).map (s.dmaByte e)

/-- `MemWrite(a, 1, b)` (20_memory.md R66). A later DMA read sees no older byte (20_memory.md R78); without coherence the
host may go on seeing the old one (20_memory.md R81). -/
def State.dmaStore (s : State) (a : Nat) (b : Byte) : State :=
  { s with
    mem := s.mem.write a b
    engineStale := if s.params.dmaCoherent then s.engineStale else s.engineStale.filter fun c => !(c.1 == a)
    hostStale := if s.params.dmaCoherent then s.hostStale else (a, s.mem.read a) :: s.hostStale }

/-- One byte write of a command. -/
structure DmaWrite where
  stream : StreamId
  addr : Nat
  byte : Byte
  /-- stream A has still to write to this address too (20_memory.md R77) -/
  contested : Bool
deriving DecidableEq, Repr

/-- How far a command got with its writes. -/
inductive Landing where
  /-- it completed -/
  | whole
  /-- it runs, stopped on a bus error or was reset: each byte old or new (60_exceptions.md R251) -/
  | cut
deriving DecidableEq, Repr

/-- Whether the command has made its write to an address for a stream, of those it had still to make: all, if it completed;
else each is made or not (60_exceptions.md R251), and a refused one is not (R250). DESIGN CHOICE, log 11: one that never gets a
response (43_register_access.md R230) may have changed its byte all the same. -/
def State.makes (s : State) (how : Landing) (e : StreamId) (a : Nat) : Bool :=
  match how with
  | .whole => true
  | .cut => admits s.params a .write && Config.freeBit s.tick .landed e a

/-- Whether a byte write shows in memory: it is made, and where both streams make theirs, either may be the last
(20_memory.md R77; log 9). -/
def State.lands (s : State) (how : Landing) (w : DmaWrite) : Bool :=
  s.makes how w.stream w.addr &&
    (!(w.contested && s.makes how .a w.addr) || Config.freeBit s.tick .overlap .b w.addr)

/-- One write, where it lands. -/
def State.landWrite (how : Landing) (s : State) (w : DmaWrite) : State :=
  if s.lands how w then s.dmaStore w.addr w.byte else s

/-- The writes of a command. -/
def State.landWrites (how : Landing) (s : State) (ws : List DmaWrite) : State :=
  ws.foldl (State.landWrite how) s

/-- The writes that put a byte string of a stream at an address. -/
def writesFrom (e : StreamId) (contested : Nat → Bool) (a : Nat) (bs : List Byte) : List DmaWrite :=
  (cellsAt a bs).map fun c => ⟨e, c.1, c.2, contested c.1⟩

/-- The new lanes and the output of one stream. -/
def Job.result (j : Job) (s : State) (e : StreamId) : Lanes × List Byte :=
  j.work (s.lanes e) (s.dmaBytes e (s.operands.src e) j.srcLen)

/-- Stream A's destination range holds the address. -/
def Job.inDstA (j : Job) (o : Operands) (a : Nat) : Bool :=
  decide (o.dst .a ≤ a) && decide (a < o.dst .a + j.dstLen)

/-- The running command has written to the address for the stream. -/
def State.written (s : State) (e : StreamId) (a : Nat) : Bool := s.prog.written.contains (e, a)

/-- The byte writes of a command, computed from the bytes read before the first write (20_memory.md R76, 42_hash.md R192). -/
def Job.writes (j : Job) (s : State) : List DmaWrite :=
  writesFrom .a (fun _ => false) (s.operands.dst .a) (j.result s .a).2 ++
    (if j.x2 then
      writesFrom .b (fun a => j.inDstA s.operands a && !s.written .a a) (s.operands.dst .b) (j.result s .b).2
    else [])

/-- The byte writes a command has still to make: it makes each once (20_memory.md R68). -/
def Job.pending (j : Job) (s : State) : List DmaWrite := (j.writes s).filter fun w => !s.written w.stream w.addr

/-- How the platform answers the accesses of one kind of a command. -/
inductive BusOutcome where
  /-- every access is admitted and answered -/
  | answered
  /-- the command stops at this refused access (20_memory.md R69) -/
  | refused (a : Nat)
  /-- an access never gets a response (43_register_access.md R230) -/
  | hung
deriving DecidableEq, Repr

/-- The accesses that get a bus error (20_memory.md R69). DEDUCED, log 11: one the platform also lists as without a response
gets it all the same, since R69 gives every access that is not admitted a bus error. -/
def refusedOf (p : Params) (k : AccessKind) (as : List Nat) : List Nat := as.filter fun a => !admits p a k

/-- The accesses that get no response: admitted, and not answered (43_register_access.md R230). -/
def silentOf (p : Params) (k : AccessKind) (as : List Nat) : List Nat := as.filter fun a => admits p a k && !responds p a k

/-- Reads and writes make their free picks apart. -/
def accessKey : AccessKind → Nat
  | .read => 0
  | .write => 1

/-- The accesses of a command come in any order (20_memory.md R76), so any refused one may be the first met (93 U2, U4). -/
def State.busOutcome (s : State) (k : AccessKind) (as : List Nat) : BusOutcome :=
  match refusedOf s.params k as with
  | [] => if (silentOf s.params k as).isEmpty then .answered else .hung
  | a :: rest =>
    if (silentOf s.params k as).isEmpty || Config.freeBit s.tick .refusedFirst .a (accessKey k) then
      .refused ((a :: rest).getD (Config.freePick s.tick .refusedAddr .a (accessKey k) % (rest.length + 1)) a)
    else .hung

/-- Lanes that hold nothing specified (60_exceptions.md R251). -/
def freeLanes (tick : Nat) (e : StreamId) : Lanes :=
  Lanes.ofFn fun x y => Config.freeLane tick e (x.val + 5 * y.val)

/-- A command stops on a bus error: its streams unspecified, PHASE FAILED, the error recorded (60_exceptions.md R251). -/
def Job.fail (j : Job) (s : State) (e : ErrCode) (a : Nat) : State :=
  { s with
    s0 := freeLanes s.tick .a
    s1 := if j.x2 then freeLanes s.tick .b else s.s1
    phase := .failed }.completeError e (BitVec.ofNat 64 a)

/-- A command that waits for a response goes on waiting: the engine stays busy (43_register_access.md R230). Which of its
other accesses are done shows when somebody looks (`State.mayWrite`, `State.abandon`). -/
def State.hang (s : State) : State := { s with tick := s.tick + 1 }

/-- A command that meets no error: its lanes, its PHASE, its writes, and completion. -/
def Job.finish (j : Job) (s : State) : State :=
  { s.landWrites .whole (j.pending s) with
    s0 := (j.result s .a).1
    s1 := if j.x2 then (j.result s .b).1 else s.s1
    phase := j.phase s.phase }.complete

/-- Run a command that passed its checks: every read, then every write not made yet (42_hash.md R192). -/
def Job.perform (j : Job) (s : State) : State :=
  match s.busOutcome .read (j.srcAddrs s.operands) with
  | .refused a => j.fail s .busRead a
  | .hung => s.hang
  | .answered =>
    match s.busOutcome .write (j.dstAddrs s.operands) with
    | .refused a => j.fail (s.landWrites .cut (j.pending s)) .busWrite a
    | .hung => s.hang
    | .answered => j.finish s

/-- The engine step of a command (43_register_access.md R227): the checks, then the command. A failed check completes
with its error and has no other effect (60_exceptions.md R243). -/
def runJob (j : Job) (s : State) : Result :=
  match j.check s.params s.phase s.operands with
  | some e => .next (s.completeError e 0)
  | none =>
    if j.touchesDevice s.params s.operands then .refused .deviceInDmaRange
    else .next (j.perform s)

end Sys2Proof.Machine
end

