-- ==== Sys2Proof/Machine/Absorb.lean ====
section
/-! DEFINITION. ABSORB and ABSORB.X2 (41_sponge.md R160, R161). -/

namespace Sys2Proof.Machine

/-- ABSORB (R160). -/
def execAbsorb (s : State) : Result := runJob (absorbJob false s.operands) s

/-- ABSORB.X2 (R161). -/
def execAbsorbX2 (s : State) : Result := runJob (absorbJob true s.operands) s

end Sys2Proof.Machine
end

