-- ==== Sys2Proof/Machine/Hash.lean ====
section
/-! DEFINITION. The HASH commands (42_hash.md R193 to R200). -/

namespace Sys2Proof.Machine

/-- HASH.SHAKE128 (R193). -/
def execHashShake128 (s : State) : Result := runJob (hashJob .shake128 false s.operands) s

/-- HASH.SHAKE128.X2 (R194). -/
def execHashShake128X2 (s : State) : Result := runJob (hashJob .shake128 true s.operands) s

/-- HASH.SHAKE256 (R195). -/
def execHashShake256 (s : State) : Result := runJob (hashJob .shake256 false s.operands) s

/-- HASH.SHAKE256.X2 (R196). -/
def execHashShake256X2 (s : State) : Result := runJob (hashJob .shake256 true s.operands) s

/-- HASH.SHA3_256 (R197). -/
def execHashSha3_256 (s : State) : Result := runJob (hashJob .sha3_256 false s.operands) s

/-- HASH.SHA3_256.X2 (R198). -/
def execHashSha3_256X2 (s : State) : Result := runJob (hashJob .sha3_256 true s.operands) s

/-- HASH.SHA3_512 (R199). -/
def execHashSha3_512 (s : State) : Result := runJob (hashJob .sha3_512 false s.operands) s

/-- HASH.SHA3_512.X2 (R200). -/
def execHashSha3_512X2 (s : State) : Result := runJob (hashJob .sha3_512 true s.operands) s

end Sys2Proof.Machine
end

