-- ==== Sys2Proof/Machine/Permute.lean ====
section
/-! DEFINITION. PERMUTE and PERMUTE.X2 (40_permutation.md R135, R136). -/

namespace Sys2Proof.Machine

/-- PERMUTE (R135). -/
def execPermute (s : State) : Result := runJob (permuteJob false) s

/-- PERMUTE.X2 (R136). -/
def execPermuteX2 (s : State) : Result := runJob (permuteJob true) s

end Sys2Proof.Machine
end

