-- ==== Sys2Proof/Machine/Squeeze.lean ====
section
/-! DEFINITION. SQUEEZE and SQUEEZE.X2 (41_sponge.md R162, R163). -/

namespace Sys2Proof.Machine

/-- SQUEEZE (R162). -/
def execSqueeze (s : State) : Result := runJob (squeezeJob false s.operands) s

/-- SQUEEZE.X2 (R163). -/
def execSqueezeX2 (s : State) : Result := runJob (squeezeJob true s.operands) s

end Sys2Proof.Machine
end

