-- ==== Sys2Proof/Machine/Zero.lean ====
section
/-! DEFINITION. ZERO and ZERO.X2 (41_sponge.md R158, R159). -/

namespace Sys2Proof.Machine

/-- ZERO (R158). -/
def execZero (s : State) : Result := runJob (zeroJob false) s

/-- ZERO.X2 (R159). -/
def execZeroX2 (s : State) : Result := runJob (zeroJob true) s

end Sys2Proof.Machine
end

