-- ==== Sys2Proof/Machine/Dispatch.lean ====
section
/-! DEFINITION. The meaning of each command: one arm for each constructor of Instr. -/

namespace Sys2Proof.Machine

def exec (i : Instr) (s : State) : Host.Outcome State Fault Refusal :=
  match i with
  | .zero => Sys2Proof.Machine.execZero s
  | .zeroX2 => Sys2Proof.Machine.execZeroX2 s
  | .permute => Sys2Proof.Machine.execPermute s
  | .permuteX2 => Sys2Proof.Machine.execPermuteX2 s
  | .absorb => Sys2Proof.Machine.execAbsorb s
  | .absorbX2 => Sys2Proof.Machine.execAbsorbX2 s
  | .squeeze => Sys2Proof.Machine.execSqueeze s
  | .squeezeX2 => Sys2Proof.Machine.execSqueezeX2 s
  | .hashShake128 => Sys2Proof.Machine.execHashShake128 s
  | .hashShake128X2 => Sys2Proof.Machine.execHashShake128X2 s
  | .hashShake256 => Sys2Proof.Machine.execHashShake256 s
  | .hashShake256X2 => Sys2Proof.Machine.execHashShake256X2 s
  | .hashSha3_256 => Sys2Proof.Machine.execHashSha3_256 s
  | .hashSha3_256X2 => Sys2Proof.Machine.execHashSha3_256X2 s
  | .hashSha3_512 => Sys2Proof.Machine.execHashSha3_512 s
  | .hashSha3_512X2 => Sys2Proof.Machine.execHashSha3_512X2 s

end Sys2Proof.Machine
end

