-- ==== Sys2Proof/WellFormed.lean ====
section
/-! DEFINITION. Which command fields are legal (30_encoding.md R95, R96). -/

namespace Sys2Proof

/-- RES_B, bits 63:18, is 0. -/
def CommandFields.resBZero (f : CommandFields) : Bool := f.resB == 0

/-- RES_A, bits 15:9, is 0. -/
def CommandFields.resAZero (f : CommandFields) : Bool := f.resA == 0

/-- OP is one of 0x01 to 0x05 (R93). -/
def CommandFields.opKnown (f : CommandFields) : Bool :=
  f.op == 0x01 || f.op == 0x02 || f.op == 0x03 || f.op == 0x04 || f.op == 0x05

/-- ALG is 0 except for HASH. -/
def CommandFields.algAllowed (f : CommandFields) : Bool := f.op == 0x05 || f.alg == 0

/-- `Legal(c)` of R95. -/
def CommandFields.legal (f : CommandFields) : Bool :=
  f.resBZero && f.resAZero && f.opKnown && f.algAllowed

end Sys2Proof
end

