-- ==== Sys2Proof/Decode.lean ====
section
/-! DEFINITION. Decoding a command word, total and stateless (30_encoding.md R98), and the encoder (R91, R93, R94). -/

namespace Sys2Proof

/-- Why a word, or a byte string, is no command. Every word error is one `illegal` of R96; which of several
reasons is named first is the model's (log 20). -/
inductive DecodeError where
  /-- not exactly eight bytes: not a command word at all (R90) -/
  | notOneWord (count : Nat)
  /-- a nonzero bit in RES_B (R96) -/
  | resB
  /-- a nonzero bit in RES_A (R96) -/
  | resA
  /-- OP 0x00 or 0x06 to 0xFF (R96) -/
  | reservedOp (op : BitVec 8)
  /-- ALG is not 0 and OP is not HASH (R96) -/
  | algOutsideHash (alg : BitVec 2)
deriving DecidableEq, Repr

/-- The outcome of decoding. -/
inductive Decoded where
  | command (i : Instr)
  | illegal (e : DecodeError)
deriving DecidableEq, Repr

/-- Cut a command word into its fields (R91). -/
def CommandFields.ofWord (c : Word) : CommandFields where
  op := c.extractLsb' 0 8
  x2 := c.getLsbD 8
  resA := c.extractLsb' 9 7
  alg := c.extractLsb' 16 2
  resB := c.extractLsb' 18 46

/-- Put the fields back together: `RES_B ‖ ALG ‖ RES_A ‖ X2 ‖ OP` (R91). -/
def CommandFields.toWord (f : CommandFields) : Word :=
  f.resB ++ (f.alg ++ (f.resA ++ (BitVec.ofBool f.x2 ++ f.op)))

/-- OP values (R93). -/
def Op.code : Op → BitVec 8
  | .zero => 0x01
  | .permute => 0x02
  | .absorb => 0x03
  | .squeeze => 0x04
  | .hash => 0x05

/-- ALG values (R94). -/
def Alg.code : Alg → BitVec 2
  | .shake128 => 0
  | .shake256 => 1
  | .sha3_256 => 2
  | .sha3_512 => 3

/-- The algorithm an ALG field selects; all four values are legal (R94). -/
def Alg.ofCode (c : BitVec 2) : Alg :=
  if c = 0 then .shake128 else if c = 1 then .shake256 else if c = 2 then .sha3_256 else .sha3_512

/-- The scalar and the dual form of the HASH command of an algorithm. -/
def Instr.hash (g : Alg) (x2 : Bool) : Instr :=
  match g, x2 with
  | .shake128, false => .hashShake128
  | .shake128, true => .hashShake128X2
  | .shake256, false => .hashShake256
  | .shake256, true => .hashShake256X2
  | .sha3_256, false => .hashSha3_256
  | .sha3_256, true => .hashSha3_256X2
  | .sha3_512, false => .hashSha3_512
  | .sha3_512, true => .hashSha3_512X2

/-- The command that legal fields select, by OP, X2 and ALG (R93, R94). -/
def CommandFields.select (f : CommandFields) : Decoded :=
  if f.op = 0x01 then .command (if f.x2 then .zeroX2 else .zero)
  else if f.op = 0x02 then .command (if f.x2 then .permuteX2 else .permute)
  else if f.op = 0x03 then .command (if f.x2 then .absorbX2 else .absorb)
  else if f.op = 0x04 then .command (if f.x2 then .squeezeX2 else .squeeze)
  else if f.op = 0x05 then .command (Instr.hash (Alg.ofCode f.alg) f.x2)
  else .illegal (.reservedOp f.op)

/-- Decode the fields of a word: every word is exactly one command or illegal (R98). -/
def CommandFields.decode (f : CommandFields) : Decoded :=
  if !f.resBZero then .illegal .resB
  else if !f.resAZero then .illegal .resA
  else if !f.opKnown then .illegal (.reservedOp f.op)
  else if !f.algAllowed then .illegal (.algOutsideHash f.alg)
  else f.select

/-- Decode a command word. -/
def decode (c : Word) : Decoded := (CommandFields.ofWord c).decode

/-- The word whose little-endian bytes are given, byte k in bits 8k+7 to 8k (20_memory.md R63). -/
def wordOfBytes : List Byte → Word
  | [] => 0
  | b :: bs => (wordOfBytes bs <<< 8) ||| b.setWidth 64

/-- The `n` low bytes of a word, lowest first (20_memory.md R63). -/
def bytesOfWord : Nat → Word → List Byte
  | 0, _ => []
  | n + 1, w => w.setWidth 8 :: bytesOfWord n (w >>> 8)

/-- Decode the eight bytes of a command word as a byte-addressed host bus carries them (R90, 20_memory.md R63). -/
def decodeBytes (bs : List Byte) : Decoded :=
  if bs.length = 8 then decode (wordOfBytes bs) else .illegal (.notOneWord bs.length)

/-- The fields of a command's word (R91, R93, R94). -/
def Instr.fields (i : Instr) : CommandFields where
  op := i.op.code
  x2 := i.x2
  resA := 0
  alg := match i.alg with | none => 0 | some g => g.code
  resB := 0

/-- A command is well formed when the fields of its word are legal (R95). -/
abbrev Instr.WellFormed (i : Instr) : Prop := i.fields.legal = true

/-- enc(i): the word of a command (R95, R101). -/
def encode (i : Instr) : Word := i.fields.toWord

/-- The eight bytes of a command's word, lowest first. -/
def encodeBytes (i : Instr) : List Byte := bytesOfWord 8 (encode i)

/-- The command read from an instruction of the opcode table: `nbits` bits of `w`, every bit above them 0. -/
def decodeTableWord (nbits w : Nat) : Option Instr :=
  if nbits ≤ 64 then
    match decodeBytes (bytesOfWord 8 (BitVec.ofNat 64 (w % 2 ^ nbits))) with
    | .command i => some i
    | .illegal _ => none
  else none

end Sys2Proof
end

