-- ==== Sys2Proof/Machine/Progress.lean ====
section
/-! DEFINITION. A command in the middle of its run, as far as the host can tell: what it may have read and written by the
time somebody looks at a byte or changes it (20_memory.md R68, R74 to R76; 70_reset_and_hazards.md R276). Log 8. -/

namespace Sys2Proof.Machine

/-- The job of the running command, if its word is legal. -/
def State.runningJob (s : State) : Option Job :=
  match s.eng with
  | .idle => none
  | .busy c ops =>
    match decode c with
    | .command i => some (jobOf i ops)
    | .illegal _ => none

/-- The running command reaches its accesses: no check fails. -/
def State.runningAccesses (s : State) (j : Job) : Bool := (j.check s.params s.phase s.operands).isNone

/-- The running command covers a device: outside the block's contract (20_memory.md R70). -/
def State.outOfContract (s : State) : Bool :=
  match s.runningJob with
  | none => false
  | some j => s.runningAccesses j && j.touchesDevice s.params s.operands

/-- The writes the running command has still to make, or would make, before it stops: none before a read error, since every
read comes before the first write (60_exceptions.md R249, 20_memory.md R76). -/
def State.unfinishedWrites (s : State) : List DmaWrite :=
  match s.runningJob with
  | none => []
  | some j =>
    if s.runningAccesses j && (j.srcAddrs s.operands).all (answers s.params .read) then j.pending s else []

/-- An address is in the source range of a stream. -/
def Job.inSrc (j : Job) (o : Operands) (e : StreamId) (a : Nat) : Bool :=
  decide (o.src e ≤ a) && decide (a < o.src e + j.srcLen)

/-- Every source byte, read now. -/
def Job.readAll (j : Job) (s : State) : List ReadByte :=
  j.streams.flatMap fun e => (addressesFrom (s.operands.src e) j.srcLen).map fun x => ⟨e, x, s.dmaByte e x⟩

/-- Of the source bytes at some addresses, those the engine has read by now. -/
def Job.readSome (j : Job) (s : State) (as : List Nat) : List ReadByte :=
  as.flatMap fun x =>
    (j.streams.filter fun e => j.inSrc s.operands e x && Config.freeBit s.tick .readBy e x).map
      fun e => ⟨e, x, s.dmaByte e x⟩

/-- Before what is at some addresses changes: the engine may have read them by now (20_memory.md R74, R75). -/
def State.mayRead (s : State) (as : List Nat) : State :=
  match s.runningJob with
  | none => s
  | some j => { s with prog := { s.prog with reads := j.readSome s as ++ s.prog.reads } }

/-- The writes to an address that the running command has made by now; of two streams' writes, the first one too, though it
does not show (20_memory.md R77). -/
def State.writesBy (s : State) (a : Nat) : List DmaWrite :=
  s.unfinishedWrites.filter fun w => w.addr == a && s.makes .cut w.stream a

/-- Before the host looks at an address or stores there: the engine may have written to it by now (20_memory.md R74, R75);
if it has, all its reads are done (20_memory.md R76, 42_hash.md R192). -/
def State.mayWrite (s : State) (a : Nat) : State :=
  match s.runningJob, s.writesBy a with
  | some j, w :: ws =>
    { s.landWrites .cut (w :: ws) with
      prog := { reads := j.readAll s ++ s.prog.reads, written := (w :: ws).map (fun v => (v.stream, v.addr)) ++ s.prog.written } }
  | _, _ => s

end Sys2Proof.Machine
end

