-- ==== Sys2Proof/Machine/Registers.lean ====
section
/-! DEFINITION. The register window: offsets, reads, writes, acceptance of a command, and reset
(10_state.md R29 to R44; 43_register_access.md R211 to R226; 70_reset_and_hazards.md R270 to R272). -/

namespace Sys2Proof.Machine

/-- A register of the window (10_state.md R30). -/
inductive Reg where
  | id
  | caps
  | ctrl
  | status
  | cmd
  | rate
  | ds
  | len
  | outlen
  | nblocks
  | srcA
  | srcB
  | dstA
  | dstB
  | errAddr
  /-- the STATE register of lane `S[e][i]` (10_state.md R44) -/
  | state (i : Fin 25) (e : StreamId)
  | reserved
deriving DecidableEq, Repr

/-- The register at an offset that is a multiple of 8 (10_state.md R30, R44). -/
def Reg.ofOffset (off : Nat) : Reg :=
  if off = 0x000 then .id
  else if off = 0x008 then .caps
  else if off = 0x010 then .ctrl
  else if off = 0x018 then .status
  else if off = 0x020 then .cmd
  else if off = 0x028 then .rate
  else if off = 0x030 then .ds
  else if off = 0x038 then .len
  else if off = 0x040 then .outlen
  else if off = 0x048 then .nblocks
  else if off = 0x050 then .srcA
  else if off = 0x058 then .srcB
  else if off = 0x060 then .dstA
  else if off = 0x068 then .dstB
  else if off = 0x070 then .errAddr
  else if 0x100 ≤ off ∧ off < 0x290 then
    .state (Fin.ofNat 25 ((off - 0x100) / 16)) (if (off - 0x100) / 8 % 2 = 0 then .a else .b)
  else .reserved

/-- The ID register (10_state.md R31). -/
def idWord : Word := 0x000000014B454343

/-- The CAPS register (10_state.md R32). -/
def capsWord (p : Params) : Word :=
  flagWord p.hasX2 ||| (BitVec.ofNat 64 p.roundsPerCycle.count <<< 8)

/-- A STATE register exists: stream B's only with the dual-lane datapath (43_register_access.md R226). -/
def laneExists (p : Params) : StreamId → Bool
  | .a => true
  | .b => p.hasX2

/-- `S[e][i] <- v` (00_scope.md R9). -/
def State.setLane (s : State) (e : StreamId) (i : Nat) (v : Word) : State :=
  match e with
  | .a => { s with s0 := s.s0.setLane i v }
  | .b => { s with s1 := s.s1.setLane i v }

/-- What a register read returns; no read has a side effect (20_memory.md R70; 43_register_access.md R211 to R224). -/
def State.readReg (s : State) : Reg → Word
  | .id => idWord
  | .caps => capsWord s.params
  | .ctrl => s.ctrlWord
  | .status => s.statusWord
  | .cmd => s.cmd
  | .rate => s.regs.rate.setWidth 64
  | .ds => s.regs.ds.setWidth 64
  | .len => s.regs.len
  | .outlen => s.regs.outlen
  | .nblocks => s.regs.nblocks
  | .srcA => s.regs.srcA
  | .srcB => s.regs.srcB
  | .dstA => s.regs.dstA
  | .dstB => s.regs.dstB
  | .errAddr => s.errAddr
  | .state i e => if s.busy || !laneExists s.params e then 0 else (s.lanes e).lane i.val
  | .reserved => 0

/-- Acceptance of a command word (43_register_access.md R217): nothing of it is done yet. The host stores made before it
are visible to its reads when DMA is coherent (20_memory.md R74), and when they are cleaned (70_reset_and_hazards.md R278). -/
def State.accept (s : State) (c : Word) : State :=
  { s with
    cmd := c
    eng := .busy c s.regs
    prog := Progress.start
    done := false }

/-- The busy lock: while busy, drop the write and set OVR (43_register_access.md R218). -/
def State.unlessBusy (s t : State) : State := if s.busy then { s with ovr := true } else t

/-- The running command is abandoned: each byte of its destination ranges is old or new (70_reset_and_hazards.md R271). -/
def State.abandon (s : State) : State := s.landWrites .cut s.unfinishedWrites

/-- The DMA write that may still be on the bus after a soft reset (70_reset_and_hazards.md R272). Log 18. -/
def State.leftOnBus (s : State) : Option Host.Cell :=
  match s.inFlight with
  | some c => some c
  | none =>
    match s.unfinishedWrites.filter fun w => admits s.params w.addr .write && !s.makes .cut w.stream w.addr with
    | [] => none
    | w :: ws =>
      if Config.freeBit s.tick .inFlight .a 0 then
        let pick := (w :: ws).getD (Config.freePick s.tick .inFlight .a 0 % (ws.length + 1)) w
        some (pick.addr, pick.byte)
      else none

/-- Every state element at its reset value (10_state.md R46); the DMA space, the host and the platform are not the
block's and stay, with what the abandoned command wrote (70_reset_and_hazards.md R270, R271). -/
def State.resetBlock (s : State) : State :=
  { State.resetWith s.params with
    mem := s.abandon.mem
    hostStale := s.abandon.hostStale
    engineStale := s.abandon.engineStale
    resetIn := s.resetIn
    moves := s.moves
    rdata := s.rdata
    mdata := s.mdata
    tick := s.tick + 1 }

/-- SoftReset() (70_reset_and_hazards.md R272). -/
def State.softReset (s : State) : State := { s.resetBlock with inFlight := s.leftOnBus }

/-- A register write, 64 bits at a multiple of 8 (43_register_access.md R211 to R226). -/
def State.writeReg (s : State) (v : Word) : Reg → State
  | .id | .caps | .errAddr | .reserved => s
  | .ctrl => if v.getLsbD 1 then s.softReset else { s with ie := v.getLsbD 0 }
  | .status => s.clearFlags v
  | .cmd => s.unlessBusy (s.accept v)
  | .rate => s.unlessBusy { s with regs := { s.regs with rate := v.setWidth 8 } }
  | .ds => s.unlessBusy { s with regs := { s.regs with ds := v.setWidth 8 } }
  | .len => s.unlessBusy { s with regs := { s.regs with len := v } }
  | .outlen => s.unlessBusy { s with regs := { s.regs with outlen := v } }
  | .nblocks => s.unlessBusy { s with regs := { s.regs with nblocks := v } }
  | .srcA => s.unlessBusy { s with regs := { s.regs with srcA := v } }
  | .srcB => s.unlessBusy { s with regs := { s.regs with srcB := v } }
  | .dstA => s.unlessBusy { s with regs := { s.regs with dstA := v } }
  | .dstB => s.unlessBusy { s with regs := { s.regs with dstB := v } }
  | .state i e =>
    if laneExists s.params e then s.unlessBusy { s.setLane e i.val v with phase := .raw } else s

/-- BASE (20_memory.md R61). -/
def windowBase (p : Params) : Nat := 1024 * p.baseBlock.toNat

/-- The offset of a host address in the register window (20_memory.md R61). -/
def windowOffset (p : Params) (addr : Word) : Option Nat :=
  if windowBase p ≤ addr.toNat ∧ addr.toNat < windowBase p + 1024 then some (addr.toNat - windowBase p) else none

end Sys2Proof.Machine
end

