-- ==== Sys2Proof/Machine/Agents.lean ====
section
/-! DEFINITION. The moves of the engine, of the host and of the platform (43_register_access.md R210, R227;
20_memory.md R62, R74, R75; 70_reset_and_hazards.md R270 to R278). -/

namespace Sys2Proof.Machine

/-- The engine's turn (43_register_access.md R227): nothing while idle (R210) or while the reset input is asserted
(70_reset_and_hazards.md R270); a word that is no command completes with ERR_ILLEGAL (60_exceptions.md R244). -/
def State.engineTurn (s : State) : Result :=
  if s.resetIn then .next s
  else
    match s.eng with
    | .idle => .next s
    | .busy c _ =>
      match decode c with
      | .command i => exec i s
      | .illegal _ => .next (s.completeError .illegal 0)

/-- A host access to the register window: 64 bits at a multiple of 8, or a fault of the host program (20_memory.md R62). -/
def State.access (s : State) (addr : Word) (size : Nat) (act : Reg → State) : Result :=
  match windowOffset s.params addr with
  | none => .refused .outsideWindow
  | some off =>
    if s.resetIn then .refused .hostAccessInReset
    else if size = 8 ∧ off % 8 = 0 then .next (act (Reg.ofOffset off))
    else .fault .hostAccessShape

/-- The host's byte is in the DMA space; without coherence the engine may still read the byte it replaced
(20_memory.md R81). -/
def State.hostPut (s : State) (a : Nat) (b : Byte) : State :=
  { s with
    mem := s.mem.write a b
    engineStale := if s.params.dmaCoherent then s.engineStale else (a, s.mem.read a) :: s.engineStale
    hostStale := s.hostStale.filter fun c => !(c.1 == a)
    tick := s.tick + 1 }

/-- The host stores a byte in the DMA space. A running command may have read or written that byte by then, or may do so
later (20_memory.md R74, R75). -/
def State.hostStore (s : State) (a : Nat) (b : Byte) : State := ((s.mayRead [a]).mayWrite a).hostPut a b

/-- The replaced bytes at an address that the host may still see: none with coherence (20_memory.md R81). -/
def State.hostSees (s : State) (a : Nat) : List Byte :=
  if s.params.dmaCoherent then [] else (s.hostStale.filter fun c => c.1 == a).map fun c => c.2

/-- The host gets the byte there, or one it may still see. -/
def State.hostGet (s : State) (a : Nat) : State :=
  { s with
    mdata := pickByte (s.mem.read a) (s.hostSees a) (Config.freePick s.tick .hostRead .a a)
    tick := s.tick + 1 }

/-- The host loads a byte of the DMA space. A running command may have written that byte by then (20_memory.md R75). -/
def State.hostLoad (s : State) (a : Nat) : State := (s.mayWrite a).hostGet a

/-- The replaced bytes of a span are gone for the engine. -/
def State.dropStale (s : State) (sp : Span) : State :=
  { s with engineStale := s.engineStale.filter fun c => !spanHolds sp c.1, tick := s.tick + 1 }

/-- The host's stores to a span reach the DMA (70_reset_and_hazards.md R278). A running command may have read a replaced
byte before. -/
def State.cleanSpan (s : State) (sp : Span) : State :=
  (s.mayRead ((s.engineStale.filter fun c => spanHolds sp c.1).map fun c => c.1)).dropStale sp

/-- The host drops its cached copies of a span (70_reset_and_hazards.md R278). DESIGN CHOICE, log 10: a store of the host's own
that it has not cleaned is kept. -/
def State.invalidateSpan (s : State) (sp : Span) : State :=
  { s with hostStale := s.hostStale.filter fun c => !spanHolds sp c.1 }

/-- The write a soft reset left on the bus completes (70_reset_and_hazards.md R272); a command accepted since may have read
or written that byte before. -/
def State.landInFlight (s : State) : State :=
  match s.inFlight with
  | none => s
  | some (a, b) => { ((s.mayRead [a]).mayWrite a).dmaStore a b with inFlight := none, tick := s.tick + 1 }

/-- One poll of a wait: read STATUS; while BUSY is 1, the engine has its turn and the host polls again (30_encoding.md R101;
log 23). -/
def State.poll (s : State) : State :=
  { s with
    rdata := s.statusWord
    moves := if s.busy then .engine :: .awaitIdle :: s.moves else s.moves }

/-- The move of one agent. Once the running command covers a device, no move has a meaning (20_memory.md R70). -/
def State.take (s : State) (m : Move) : Result :=
  match m with
  | .engine => s.engineTurn
  | .regWrite addr size v => if s.outOfContract then .refused .deviceInDmaRange else s.access addr size (s.writeReg v)
  | .regRead addr size =>
    if s.outOfContract then .refused .deviceInDmaRange
    else s.access addr size fun r => { s with rdata := s.readReg r }
  | .awaitIdle =>
    if s.outOfContract then .refused .deviceInDmaRange
    else if s.resetIn then .refused .hostAccessInReset
    else .next s.poll
  | .memStore addr b => if s.outOfContract then .refused .deviceInDmaRange else .next (s.hostStore addr.toNat b)
  | .memLoad addr => if s.outOfContract then .refused .deviceInDmaRange else .next (s.hostLoad addr.toNat)
  | .cacheClean sp => .next (s.cleanSpan sp)
  | .cacheInvalidate sp => .next (s.invalidateSpan sp)
  | .resetAssert => if s.outOfContract then .refused .deviceInDmaRange else .next { s.resetBlock with resetIn := true }
  | .resetRelease =>
    if s.outOfContract then .refused .deviceInDmaRange
    else if s.resetIn then .next { s.resetBlock with resetIn := false }
    else .next s
  | .powerCycle => if s.outOfContract then .refused .deviceInDmaRange else .next { s.resetBlock with resetIn := false }
  | .busLand => .next s.landInFlight

end Sys2Proof.Machine
end

