-- ==== Sys2Proof/Machine/Step.lean ====
section
/-! DEFINITION. The step: the next move, and the engine's turn when none is listed (43_register_access.md R210; log 2). -/

namespace Sys2Proof.Machine

/-- One step of the machine. -/
def step (s : State) : Host.Outcome State Fault Refusal :=
  match s.moves with
  | [] => s.take .engine
  | m :: rest => { s with moves := rest }.take m

/-- `s` with the command of an opcode-table row accepted and the engine's turn next, so that the next step runs it:
what the host's write to CMD does (43_register_access.md R217), with the reset input released. Log 3. -/
def State.withFetchWord (s : State) (nbits w : Nat) : State :=
  { s.accept (BitVec.ofNat 64 (w % 2 ^ nbits)) with
    moves := .engine :: s.moves
    resetIn := false }

end Sys2Proof.Machine
end

