-- ==== Sys2Proof/Machine/HostProgram.lean ====
section
/-! DEFINITION. Host programs (30_encoding.md R100, R101): each statement as the moves it stands for. -/

namespace Sys2Proof.Machine

/-- The offset of a register; `reserved` stands for the first reserved one (10_state.md R30, R44). -/
def Reg.offset : Reg → Nat
  | .id => 0x000
  | .caps => 0x008
  | .ctrl => 0x010
  | .status => 0x018
  | .cmd => 0x020
  | .rate => 0x028
  | .ds => 0x030
  | .len => 0x038
  | .outlen => 0x040
  | .nblocks => 0x048
  | .srcA => 0x050
  | .srcB => 0x058
  | .dstA => 0x060
  | .dstB => 0x068
  | .errAddr => 0x070
  | .reserved => 0x078
  | .state i e => 0x100 + 16 * i.val + 8 * e.index

/-- A statement of a host program. -/
inductive Stmt where
  | wr (off : Nat) (v : Word)
  | rd (off : Nat)
  | cmd (i : Instr)
  | wait
  | run (i : Instr)
  | clr
  | setlane (e : StreamId) (i : Fin 25) (v : Word)
  | getlane (e : StreamId) (i : Fin 25)
  | srst
deriving DecidableEq, Repr

/-- `wr`: a 64-bit store to BASE + offset (R100). -/
def wrMove (p : Params) (off : Nat) (v : Word) : Move := .regWrite (BitVec.ofNat 64 (windowBase p + off)) 8 v

/-- `rd`: a 64-bit load from BASE + offset (R100). -/
def rdMove (p : Params) (off : Nat) : Move := .regRead (BitVec.ofNat 64 (windowBase p + off)) 8

/-- The moves of a statement (R100, R101). `wait` polls until BUSY is 0, with an engine turn after each poll that finds it
busy (log 23). -/
def Stmt.moves (p : Params) : Stmt → List Move
  | .wr off v => [wrMove p off v]
  | .rd off => [rdMove p off]
  | .cmd i => [wrMove p Reg.cmd.offset (encode i)]
  | .wait => [.awaitIdle]
  | .run i => [wrMove p Reg.cmd.offset (encode i), .awaitIdle]
  | .clr => [wrMove p Reg.status.offset 0xE]
  | .setlane e i v => [wrMove p (Reg.state i e).offset v]
  | .getlane e i => [rdMove p (Reg.state i e).offset]
  | .srst => [wrMove p Reg.ctrl.offset 0x2]

/-- The moves of a program. -/
def programMoves (p : Params) (prog : List Stmt) : List Move := prog.flatMap (Stmt.moves p)

end Sys2Proof.Machine
end

