-- ==== Sys2Proof/Safety.lean ====
section
/-! DEFINITION. The invariant of the machine; what makes a command's run exact (every access admitted, answered and clear
of devices, no host access racing with it); and the terms claims are stated in. -/

namespace Sys2Proof.Machine

/-- What every reachable state has: the DMA space in canonical form (log 5) and a write left on the bus inside it; a running
command whose operands and word are the registers' (43_register_access.md R217, R218) and DONE clear (R217); nothing done of a
command when none runs; no command in reset (70_reset_and_hazards.md R270); ERRCODE and ERRADDR 0 without ERR, ERRCODE not 0 with it, and an address only with a
bus error (10_state.md R34, R43; 60_exceptions.md R252). -/
structure State.Inv (s : State) : Prop where
  memCanonical : s.mem.wf = true
  onBusInSpace : ∀ c, s.inFlight = some c → c.1 < Memory.size
  snapshot : ∀ c ops, s.eng = .busy c ops → c = s.cmd ∧ ops = s.regs
  idleStart : s.eng = .idle → s.prog = Progress.start
  busyNotDone : s.busy = true → s.done = false
  resetIdle : s.resetIn = true → s.eng = .idle
  errNone : s.err = false → s.errCode = .none ∧ s.errAddr = 0
  errSome : s.err = true → s.errCode ≠ .none
  addrOnlyBus : s.errCode.hasAddr = false → s.errAddr = 0

/-- Every state element at its reset value (10_state.md R46). -/
structure State.BlockReset (s : State) : Prop where
  lanesA : ∀ i < 25, s.s0.lane i = 0
  lanesB : ∀ i < 25, s.s1.lane i = 0
  phaseEmpty : s.phase = .empty
  engIdle : s.eng = .idle
  nothingDone : s.prog = Progress.start
  statusZero : s.statusWord = 0
  errAddrZero : s.errAddr = 0
  ieClear : s.ie = false
  cmdZero : s.cmd = 0
  rateZero : s.regs.rate = 0
  dsZero : s.regs.ds = 0
  lenZero : s.regs.len = 0
  outlenZero : s.regs.outlen = 0
  nblocksZero : s.regs.nblocks = 0
  srcAZero : s.regs.srcA = 0
  srcBZero : s.regs.srcB = 0
  dstAZero : s.regs.dstA = 0
  dstBZero : s.regs.dstB = 0
  irqLow : s.irq = false

/-- Every byte of `[a, a + n)` is admitted and answered. -/
def rangeAnswers (p : Params) (k : AccessKind) (a n : Nat) : Prop := ∀ x, a ≤ x → x < a + n → answers p k x = true

/-- `[a, a + n)` stays in the DMA space, is admitted and answered throughout, and covers no device. -/
structure RangeClear (p : Params) (k : AccessKind) (a n : Nat) : Prop where
  inSpace : a + n ≤ 2 ^ 64
  answered : rangeAnswers p k a n
  noDevice : coversDevice p a n = false

/-- Every access a job makes is admitted, answered and clear of devices. -/
structure Job.BusClear (j : Job) (p : Params) (o : Operands) : Prop where
  noDevice : j.touchesDevice p o = false
  readsAnswer : ∀ e ∈ j.streams, rangeAnswers p .read (o.src e) j.srcLen
  writesAnswer : ∀ e ∈ j.streams, rangeAnswers p .write (o.dst e) j.dstLen

/-- The running command has written no byte yet: the host has looked at none of its bytes and stored to none so far, or
before the engine did (20_memory.md R75). -/
abbrev State.NoneWritten (s : State) : Prop := s.prog.written = []

/-- Nothing of the running command is done yet, and its reads see the bytes in memory (20_memory.md R74, R81). -/
structure State.Undisturbed (s : State) : Prop where
  nothingDone : s.prog = Progress.start
  readsMemory : s.params.dmaCoherent = true ∨ s.engineStale = []

/-- The two destination ranges of an x2 command have no byte in common (20_memory.md R77). -/
abbrev dstDisjoint (o : Operands) (n : Nat) : Prop := o.dst .a + n ≤ o.dst .b ∨ o.dst .b + n ≤ o.dst .a

/-- `x` is one of the `n` addresses from `a` on. -/
abbrev inRange (a n x : Nat) : Prop := a ≤ x ∧ x < a + n

/-- Memory `m'` is `m` with the bytes `bs` at `a`: each reads back, every other address reads as before. -/
def Memory.Wrote (m m' : Memory) (a : Nat) (bs : List Byte) : Prop :=
  (∀ k < bs.length, m'.read (a + k) = bs.getD k 0) ∧ ∀ x, ¬inRange a bs.length x → m'.read x = m.read x

/-- Memory `m'` is `m` with the bytes `bs` at `a` and `cs` at `b`, every other address as before. -/
def Memory.WroteBoth (m m' : Memory) (a : Nat) (bs : List Byte) (b : Nat) (cs : List Byte) : Prop :=
  (∀ k < bs.length, m'.read (a + k) = bs.getD k 0) ∧ (∀ k < cs.length, m'.read (b + k) = cs.getD k 0) ∧
    ∀ x, ¬inRange a bs.length x → ¬inRange b cs.length x → m'.read x = m.read x

/-- A command issued by a CMD write and run with no move in between (43_register_access.md R217, R227). -/
def State.issue (s : State) (i : Instr) : Result := exec i (s.accept (encode i))

/-- The error that check order R242 names for a command word, written from its table: c, PHASE and the operands. -/
def expectedError (p : Params) (ph : Phase) (o : Operands) (c : Word) : Option ErrCode :=
  let op := c.extractLsb' 0 8
  let x2 := c.getLsbD 8
  let alg := c.extractLsb' 16 2
  let past := fun (a : Word) (n : Nat) => decide (2 ^ 64 < a.toNat + n)
  let srcPast := fun n => past o.srcA n || (x2 && past o.srcB n)
  let dstPast := fun n => past o.dstA n || (x2 && past o.dstB n)
  let outlen := if alg = 0 ∨ alg = 1 then o.outlen.toNat else if alg = 2 then 32 else 64
  if (CommandFields.ofWord c).legal = false then some .illegal
  else if x2 = true ∧ p.hasX2 = false then some .noX2
  else if (op = 0x03 ∨ op = 0x04) ∧ rateLegal o.rate.toNat = false then some .rate
  else if op = 0x04 ∧ (ph = .empty ∨ ph = .failed) then some .seq
  else if (op = 0x03 ∧ srcPast o.len.toNat = true) ∨
      (op = 0x04 ∧ dstPast (o.nblocks.toNat * o.rate.toNat) = true) ∨
      (op = 0x05 ∧ (srcPast o.len.toNat = true ∨ dstPast outlen = true)) then some .range
  else none

/-- A command that completed with an error: everything but the record, DONE and `eng` as before. -/
def State.failedCheck (s : State) (e : ErrCode) : State :=
  { s with
    eng := .idle
    prog := Progress.start
    done := true
    err := true
    errCode := if s.err then s.errCode else e
    errAddr := if s.err then s.errAddr else 0
    tick := s.tick + 1 }

end Sys2Proof.Machine
end

