-- ==== Sys2Proof/Certificates/Slice0/Obligations.lean ====
section
/-! DEFINITION. The statements for the provers, from the numbered rules of the spec. -/

open Sys2Proof Sys2Proof.Machine

/-! ## Encoding -/

/-- 30_encoding.md R91, R93, R94, R95, R98: over all 2^64 words, exactly the word of a command decodes to it. -/
def Obligations.WordDecodesIffItIsTheCommandsWord : Prop :=
  ∀ (c : Word) (i : Instr), decode c = .command i ↔ c = encode i

/-- 30_encoding.md R95: `Legal(c)` is the formula of R95; the legal words are those of the sixteen commands; and the sixteen
rows of the table. -/
def Obligations.LegalWordsAreTheSixteen : Prop :=
  (∀ c : Word,
    ((CommandFields.ofWord c).legal = true ↔
      c.extractLsb' 18 46 = 0 ∧ c.extractLsb' 9 7 = 0 ∧
        c.extractLsb' 0 8 ∈ [0x01#8, 0x02#8, 0x03#8, 0x04#8, 0x05#8] ∧
        (c.extractLsb' 0 8 = 0x05 ∨ c.extractLsb' 16 2 = 0)) ∧
    ((CommandFields.ofWord c).legal = true ↔ ∃ i, encode i = c)) ∧
  (∀ i : Instr, (i.mnemonic, encode i) ∈
    [("zero", 0x0000000000000001#64), ("zero.x2", 0x0000000000000101#64),
     ("permute", 0x0000000000000002#64), ("permute.x2", 0x0000000000000102#64),
     ("absorb", 0x0000000000000003#64), ("absorb.x2", 0x0000000000000103#64),
     ("squeeze", 0x0000000000000004#64), ("squeeze.x2", 0x0000000000000104#64),
     ("hash.shake128", 0x0000000000000005#64), ("hash.shake128.x2", 0x0000000000000105#64),
     ("hash.shake256", 0x0000000000010005#64), ("hash.shake256.x2", 0x0000000000010105#64),
     ("hash.sha3_256", 0x0000000000020005#64), ("hash.sha3_256.x2", 0x0000000000020105#64),
     ("hash.sha3_512", 0x0000000000030005#64), ("hash.sha3_512.x2", 0x0000000000030105#64)]) ∧
  ∀ i k : Instr, encode i = encode k → i = k

/-- 30_encoding.md R98: every word decodes to one of the sixteen commands, the one its OP, X2 and ALG select, or to illegal,
and it is illegal exactly when it is not legal. -/
def Obligations.DecodingIsTotal : Prop :=
  ∀ c : Word,
    ((∃ i : Instr, decode c = .command i ∧ c.extractLsb' 0 8 = i.op.code ∧ c.getLsbD 8 = i.x2 ∧
        ∀ g, i.alg = some g → c.extractLsb' 16 2 = g.code) ∧ (CommandFields.ofWord c).legal = true) ∨
    ((∃ e, decode c = .illegal e) ∧ (CommandFields.ofWord c).legal = false)

/-- The words of the opcode table, written out (30_encoding.md R95). A sanity statement on fixed words. -/
def Obligations.OpcodeTableWordsDecode : Prop :=
  decode 0x0000000000000001 = .command .zero ∧ decode 0x0000000000000101 = .command .zeroX2 ∧
  decode 0x0000000000000002 = .command .permute ∧ decode 0x0000000000000103 = .command .absorbX2 ∧
  decode 0x0000000000000004 = .command .squeeze ∧ decode 0x0000000000000005 = .command .hashShake128 ∧
  decode 0x0000000000010105 = .command .hashShake256X2 ∧ decode 0x0000000000020005 = .command .hashSha3_256 ∧
  decode 0x0000000000030105 = .command .hashSha3_512X2

/-! ## The step -/

/-- 43_register_access.md R227: when it is the engine's turn, the step is the meaning of the decoded command, the turn taken off the
schedule. That the schedule is a list, and that the engine moves when it is empty, is the model's choice (log 2). -/
def Obligations.StepRunsDecodedCommand : Prop :=
  ∀ (s : State) (c : Word) (ops : Operands) (i : Instr),
    s.eng = .busy c ops → s.resetIn = false → decode c = .command i →
      (s.moves = [] → step s = exec i s) ∧
      (∀ rest, s.moves = .engine :: rest → step s = exec i { s with moves := rest })

/-- 60_exceptions.md R244: an illegal word completes with ERR_ILLEGAL and has no effect beyond the recording. -/
def Obligations.IllegalWordCompletesWithErrIllegal : Prop :=
  ∀ (s : State) (c : Word) (ops : Operands),
    s.eng = .busy c ops → s.resetIn = false → s.moves = [] → (CommandFields.ofWord c).legal = false →
      step s = .next (s.failedCheck .illegal)

/-- 70_reset_and_hazards.md R273, 43_register_access.md R210: the engine has no step while idle, so nothing runs, from reset in
particular, until the host writes CMD; while the reset input is asserted it has none either. -/
def Obligations.NothingRunsWhileIdle : Prop :=
  (∀ s : State, s.moves = [] → (s.eng = .idle ∨ s.resetIn = true) → step s = .next s) ∧
  step State.reset = .next State.reset

/-! ## Reset and the invariant -/

/-- 10_state.md R46, 60_exceptions.md R261: for every value of the parameters every state element is 0 (PHASE EMPTY, `eng`
Idle, irq low) after reset; after a CTRL write with SRST = 1 in any state, busy or not, whatever bit 0; while the reset input
is asserted and when it is released; and after a power cycle. That the elements are reset at the assertion already is the
model's choice (log 14): the spec gives their values at the release. -/
def Obligations.ResetLeavesEverythingZero : Prop :=
  (∀ p : Params, (State.resetWith p).BlockReset ∧ (State.resetWith p).params = p) ∧
  (∀ (s : State) (v : Word), v.getLsbD 1 = true →
    (s.writeReg v .ctrl).BlockReset ∧ (s.writeReg v .ctrl).params = s.params) ∧
  (∀ s t : State, s.take .resetAssert = .next t → t.BlockReset ∧ t.resetIn = true ∧ t.params = s.params) ∧
  (∀ s t : State, s.resetIn = true → s.take .resetRelease = .next t →
    t.BlockReset ∧ t.resetIn = false ∧ t.params = s.params) ∧
  (∀ s t : State, s.take .powerCycle = .next t → t.BlockReset ∧ t.resetIn = false ∧ t.params = s.params)

/-- The invariant holds at reset, for every value of the parameters. -/
def Obligations.InvariantHoldsAtReset : Prop := ∀ p : Params, (State.resetWith p).Inv

/-- Every step, of any agent, keeps the invariant. -/
def Obligations.StepKeepsInvariant : Prop := ∀ s t : State, s.Inv → step s = .next t → t.Inv

/-! ## The permutation -/

/-- 40_permutation.md R122, R123, R125, R126, R127, lane by lane; pi also by where a lane moves and by lane index. -/
def Obligations.RoundStepsLaneByLane : Prop :=
  ∀ (A : Lanes) (x y : Fin 5),
    (theta A).at x y = A.at x y ^^^
      ((A.at (x - 1) 0 ^^^ A.at (x - 1) 1 ^^^ A.at (x - 1) 2 ^^^ A.at (x - 1) 3 ^^^ A.at (x - 1) 4) ^^^
        rol64 (A.at (x + 1) 0 ^^^ A.at (x + 1) 1 ^^^ A.at (x + 1) 2 ^^^ A.at (x + 1) 3 ^^^ A.at (x + 1) 4) 1) ∧
    (rho A).at x y = rol64 (A.at x y) (rhoOffset x y) ∧
    (pi A).at x y = A.at (x + 3 * y) x ∧ (pi A).at y (2 * x + 3 * y) = A.at x y ∧
    (∀ i < 25, (pi A).lane i = A.lane
      ([0, 6, 12, 18, 24, 3, 9, 10, 16, 22, 1, 7, 13, 19, 20, 4, 5, 11, 17, 23, 2, 8, 14, 15, 21].getD i 0)) ∧
    (chi A).at x y = A.at x y ^^^ (~~~A.at (x + 1) y &&& A.at (x + 2) y) ∧
    ∀ ir, (iota A ir).at x y = if x = 0 ∧ y = 0 then A.at 0 0 ^^^ roundConstant ir else A.at x y

/-- 40_permutation.md R124, R129: the tables are what Algorithm 2 and the rc LFSR of FIPS 202 generate. That the LFSR's update
shifts towards bit 8 is the model's reading of R129 (log 22). -/
def Obligations.TablesMatchTheirGenerators : Prop :=
  (∀ ir < 24, roundConstant ir = generatedRoundConstant ir) ∧
  rhoOffset 0 0 = 0 ∧ ∀ t < 24, rhoOffset (rhoWalk t).1 (rhoWalk t).2 = rhoWalkOffset t

/-- 40_permutation.md R132: the single pass over the lanes is rho followed by pi; and its (source, destination, rotation) triples. -/
def Obligations.FusedPassIsRhoThenPi : Prop :=
  ∀ A : Lanes, rhoPi A = pi (rho A) ∧
    ∀ m ∈ [(0, 0, 0), (1, 10, 1), (2, 20, 62), (3, 5, 28), (4, 15, 27), (5, 16, 36), (6, 1, 44), (7, 11, 6), (8, 21, 55),
        (9, 6, 20), (10, 7, 3), (11, 17, 10), (12, 2, 43), (13, 12, 25), (14, 22, 39), (15, 23, 41), (16, 8, 45),
        (17, 18, 15), (18, 3, 21), (19, 13, 8), (20, 14, 18), (21, 24, 2), (22, 9, 61), (23, 19, 56), (24, 4, 14)],
      (rhoPi A).lane m.2.1 = rol64 (A.lane m.1) m.2.2

/-! ## Bytes, padding, squeezing, interleaving -/

/-- 20_memory.md R64: byte j is bits 8(j mod 8)+7 to 8(j mod 8) of lane j div 8, and `SB[j] ^= v` changes that byte and no other. -/
def Obligations.XorByteChangesOneByte : Prop :=
  ∀ (L : Lanes) (v : Byte) (j k : Nat), j < 200 → k < 200 →
    L.byte k = (L.lane (k / 8)).extractLsb' (8 * (k % 8)) 8 ∧
    (L.xorByte j v).byte k = if k = j then L.byte k ^^^ v else L.byte k

/-- 41_sponge.md R153, R152: the state a message shorter than the rate leaves, byte by byte: the message, the separator right
after it, 0x80 XORed into byte R - 1, and 0 elsewhere. -/
def Obligations.ShortMessageImage : Prop :=
  ∀ (R : Nat) (ds : Byte) (msg : List Byte) (j : Nat),
    rateLegal R = true → msg.length < R → j < 200 →
      (absorbBytes R ds msg).byte j =
        (if j < msg.length then msg.getD j 0 else if j = msg.length then ds else 0) ^^^
          (if j = R - 1 then 0x80 else 0)

/-- 41_sponge.md R153: a message of one whole block and any rest: the block is XORed into 25 lanes of 0 and permuted, then the
rest's blocks likewise from there, each block by the first clause, and the rest's tail is XORed in and padded. With the
statement above it gives every message. -/
def Obligations.AbsorbGoesBlockByBlock : Prop :=
  ∀ (R : Nat) (ds : Byte) (block rest : List Byte),
    rateLegal R = true → block.length = R →
      (∀ (n : Nat) (L : Lanes), absorbBlocks R (n + 1) L (block ++ rest) =
        absorbBlocks R n (keccakF (xorBytes L 0 block)) rest) ∧
      (∀ L : Lanes, absorbBlocks R 0 L rest = L) ∧
      absorbBytes R ds (block ++ rest) =
        pad (xorBytes (absorbBlocks R (rest.length / R) (keccakF (xorBytes Lanes.zero 0 block)) rest) 0
          (rest.drop (rest.length / R * R))) (rest.drop (rest.length / R * R)).length R ds

/-- 10_state.md R23: XORing at most R bytes into the rate region leaves the capacity lanes R/8 to 24 as they were, and padding
does too. -/
def Obligations.CapacityUntouchedByInput : Prop :=
  ∀ (L : Lanes) (R : Nat) (ds : Byte) (msg : List Byte) (i : Nat),
    rateLegal R = true → R / 8 ≤ i → i < 25 →
      (msg.length ≤ R → (xorBytes L 0 msg).lane i = L.lane i) ∧
      (msg.length < R → (pad L msg.length R ds).lane i = L.lane i)

/-- 41_sponge.md R154: N blocks take exactly N permutations and give N·R bytes, byte j of block b being byte j of the state
after b + 1 permutations. -/
def Obligations.SqueezePermutesBeforeEveryBlock : Prop :=
  ∀ (R N : Nat) (L : Lanes),
    (squeezeBlocks R N L).1 = keccakF^[N] L ∧ (squeezeBlocks R N L).2.length = N * R ∧
    ∀ b < N, ∀ j < R, (squeezeBlocks R N L).2.getD (b * R + j) 0 = (keccakF^[b + 1] L).byte j

/-- 42_hash.md R191: outlen bytes take ceil(outlen / R) permutations, and byte k of the output is byte k mod R of the state after
k div R + 1 permutations. -/
def Obligations.OneShotOutputLengthAndPermutations : Prop :=
  ∀ (R : Nat) (ds : Byte) (outlen : Nat) (msg : List Byte), 0 < R →
    (oneShot R ds outlen msg).2.length = outlen ∧
    (oneShot R ds outlen msg).1 = keccakF^[(outlen + R - 1) / R] (absorbBytes R ds msg) ∧
    ∀ k < outlen, (oneShot R ds outlen msg).2.getD k 0 = (keccakF^[k / R + 1] (absorbBytes R ds msg)).byte (k % R)

/-- 41_sponge.md R155, R156, 10_state.md R44: interleaving puts byte j of stream e's piece k at 16k + 8e + j, the 400-byte image of
the dual-lane words is the interleaving of the streams' bytes, and de-interleaving undoes interleaving. -/
def Obligations.InterleaveAndDeinterleave : Prop :=
  (∀ a b : List Byte, a.length = b.length → a.length % 8 = 0 →
    (∀ k j, j < 8 → 8 * k + j < a.length →
      (interleave a b).getD (16 * k + j) 0 = a.getD (8 * k + j) 0 ∧
      (interleave a b).getD (16 * k + 8 + j) 0 = b.getD (8 * k + j) 0) ∧
    deinterleave (interleave a b) 0 = a ∧ deinterleave (interleave a b) 1 = b) ∧
  ∀ A B : Lanes, (List.range 400).map (windowByte A B) = interleave (A.bytes 200) (B.bytes 200)

/-! ## What each command does when nothing stops it -/

/-- 41_sponge.md R158, R159: ZERO in every state; ZERO.X2 with the datapath, and without it. -/
def Obligations.ZeroClearsTheNamedStreams : Prop :=
  ∀ s : State,
    exec .zero s =
      .next { s with
        s0 := Lanes.zero, phase := .empty, eng := .idle, prog := .start, done := true, tick := s.tick + 1 } ∧
    (s.params.hasX2 = true → exec .zeroX2 s =
      .next { s with
        s0 := Lanes.zero, s1 := Lanes.zero, phase := .empty, eng := .idle, prog := .start
        done := true, tick := s.tick + 1 }) ∧
    (s.params.hasX2 = false → exec .zeroX2 s = .next (s.failedCheck .noX2)) ∧
    ∀ i < 25, Lanes.zero.lane i = 0

/-- 40_permutation.md R135, R136: PERMUTE in every state and every phase; PERMUTE.X2 with the datapath, and without it; and the two
rules' examples of the permutation. -/
def Obligations.PermutePermutesTheNamedStreams : Prop :=
  (∀ s : State,
    exec .permute s =
      .next { s with
        s0 := keccakF s.s0, phase := .raw, eng := .idle, prog := .start, done := true, tick := s.tick + 1 } ∧
    (s.params.hasX2 = true → exec .permuteX2 s =
      .next { s with
        s0 := keccakF s.s0, s1 := keccakF s.s1, phase := .raw, eng := .idle, prog := .start
        done := true, tick := s.tick + 1 }) ∧
    (s.params.hasX2 = false → exec .permuteX2 s = .next (s.failedCheck .noX2))) ∧
  (keccakF Lanes.zero).lane 0 = 0xF1258F7940E1DDE7 ∧ (keccakF Lanes.zero).lane 24 = 0xEAF1FF7B5CECA249 ∧
  ∀ L : Lanes, (∀ i < 25, L.lane i = BitVec.ofNat 64 i) →
    (keccakF L).lane 0 = 0x8374B05252ED8115 ∧ (keccakF L).lane 24 = 0xD153F43A297E4A33

/-- 41_sponge.md R160: ABSORB, with a legal rate and a clear source range; nothing but the lanes of stream A, PHASE and the
completion changes. -/
def Obligations.AbsorbLeavesThePaddedState : Prop :=
  ∀ s : State,
    rateLegal s.operands.rate.toNat = true →
    RangeClear s.params .read s.operands.srcA.toNat s.operands.len.toNat →
      exec .absorb s = .next { s with
        s0 := absorbBytes s.operands.rate.toNat s.operands.ds
          (s.dmaBytes .a s.operands.srcA.toNat s.operands.len.toNat)
        phase := .absorbed, eng := .idle, prog := .start, done := true, tick := s.tick + 1 }

/-- 41_sponge.md R161: ABSORB.X2. -/
def Obligations.AbsorbX2LeavesBothPaddedStates : Prop :=
  ∀ s : State, s.params.hasX2 = true →
    rateLegal s.operands.rate.toNat = true →
    RangeClear s.params .read s.operands.srcA.toNat s.operands.len.toNat →
    RangeClear s.params .read s.operands.srcB.toNat s.operands.len.toNat →
      exec .absorbX2 s = .next { s with
        s0 := absorbBytes s.operands.rate.toNat s.operands.ds
          (s.dmaBytes .a s.operands.srcA.toNat s.operands.len.toNat)
        s1 := absorbBytes s.operands.rate.toNat s.operands.ds
          (s.dmaBytes .b s.operands.srcB.toNat s.operands.len.toNat)
        phase := .absorbed, eng := .idle, prog := .start, done := true, tick := s.tick + 1 }

/-- 41_sponge.md R162: SQUEEZE, NBLOCKS = 0 among them; only the lanes of stream A, PHASE, the destination bytes and the completion
change (and, without coherence, what may still be seen of those bytes' old values). -/
def Obligations.SqueezeWritesItsBlocks : Prop :=
  ∀ s : State, s.mem.wf = true → s.NoneWritten →
    rateLegal s.operands.rate.toNat = true → s.phase ≠ .empty → s.phase ≠ .failed →
    RangeClear s.params .write s.operands.dstA.toNat (s.operands.nblocks.toNat * s.operands.rate.toNat) →
      ∃ t, exec .squeeze s = .next t ∧
        t = { s with
          s0 := (squeezeBlocks s.operands.rate.toNat s.operands.nblocks.toNat s.s0).1
          phase := if s.operands.nblocks = 0 then s.phase else .squeezing
          eng := .idle, prog := .start, done := true, tick := s.tick + 1
          mem := t.mem, hostStale := t.hostStale, engineStale := t.engineStale } ∧
        Memory.Wrote s.mem t.mem s.operands.dstA.toNat
          (squeezeBlocks s.operands.rate.toNat s.operands.nblocks.toNat s.s0).2 ∧
        (s.params.dmaCoherent = true → t.hostStale = s.hostStale ∧ t.engineStale = s.engineStale)

/-- 41_sponge.md R163: SQUEEZE.X2, with destination ranges that do not overlap. -/
def Obligations.SqueezeX2WritesBothStreams : Prop :=
  ∀ s : State, s.params.hasX2 = true → s.mem.wf = true → s.NoneWritten →
    rateLegal s.operands.rate.toNat = true → s.phase ≠ .empty → s.phase ≠ .failed →
    RangeClear s.params .write s.operands.dstA.toNat (s.operands.nblocks.toNat * s.operands.rate.toNat) →
    RangeClear s.params .write s.operands.dstB.toNat (s.operands.nblocks.toNat * s.operands.rate.toNat) →
    dstDisjoint s.operands (s.operands.nblocks.toNat * s.operands.rate.toNat) →
      ∃ t, exec .squeezeX2 s = .next t ∧
        t = { s with
          s0 := (squeezeBlocks s.operands.rate.toNat s.operands.nblocks.toNat s.s0).1
          s1 := (squeezeBlocks s.operands.rate.toNat s.operands.nblocks.toNat s.s1).1
          phase := if s.operands.nblocks = 0 then s.phase else .squeezing
          eng := .idle, prog := .start, done := true, tick := s.tick + 1
          mem := t.mem, hostStale := t.hostStale, engineStale := t.engineStale } ∧
        Memory.WroteBoth s.mem t.mem
          s.operands.dstA.toNat (squeezeBlocks s.operands.rate.toNat s.operands.nblocks.toNat s.s0).2
          s.operands.dstB.toNat (squeezeBlocks s.operands.rate.toNat s.operands.nblocks.toNat s.s1).2 ∧
        (s.params.dmaCoherent = true → t.hostStale = s.hostStale ∧ t.engineStale = s.engineStale)

/-- 42_hash.md R193, R195, R197, R199: the scalar HASH commands. Source and destination may overlap: the digest is that of the
message before any write (R192). No register changes (R202). -/
def Obligations.HashWritesTheDigest : Prop :=
  ∀ (g : Alg) (s : State), s.mem.wf = true → s.NoneWritten →
    RangeClear s.params .read s.operands.srcA.toNat s.operands.len.toNat →
    RangeClear s.params .write s.operands.dstA.toNat (outputLength g s.operands) →
      ∃ t, exec (Instr.hash g false) s = .next t ∧
        t = { s with
          s0 := (oneShot (algRow g).rate (algRow g).ds (outputLength g s.operands)
            (s.dmaBytes .a s.operands.srcA.toNat s.operands.len.toNat)).1
          phase := if outputLength g s.operands = 0 then .absorbed else .squeezing
          eng := .idle, prog := .start, done := true, tick := s.tick + 1
          mem := t.mem, hostStale := t.hostStale, engineStale := t.engineStale } ∧
        Memory.Wrote s.mem t.mem s.operands.dstA.toNat
          (oneShot (algRow g).rate (algRow g).ds (outputLength g s.operands)
            (s.dmaBytes .a s.operands.srcA.toNat s.operands.len.toNat)).2 ∧
        (s.params.dmaCoherent = true → t.hostStale = s.hostStale ∧ t.engineStale = s.engineStale)

/-- 42_hash.md R194, R196, R198, R200: the x2 HASH commands, with destination ranges that do not overlap. -/
def Obligations.HashX2WritesBothDigests : Prop :=
  ∀ (g : Alg) (s : State), s.params.hasX2 = true → s.mem.wf = true → s.NoneWritten →
    RangeClear s.params .read s.operands.srcA.toNat s.operands.len.toNat →
    RangeClear s.params .read s.operands.srcB.toNat s.operands.len.toNat →
    RangeClear s.params .write s.operands.dstA.toNat (outputLength g s.operands) →
    RangeClear s.params .write s.operands.dstB.toNat (outputLength g s.operands) →
    dstDisjoint s.operands (outputLength g s.operands) →
      ∃ t, exec (Instr.hash g true) s = .next t ∧
        t = { s with
          s0 := (oneShot (algRow g).rate (algRow g).ds (outputLength g s.operands)
            (s.dmaBytes .a s.operands.srcA.toNat s.operands.len.toNat)).1
          s1 := (oneShot (algRow g).rate (algRow g).ds (outputLength g s.operands)
            (s.dmaBytes .b s.operands.srcB.toNat s.operands.len.toNat)).1
          phase := if outputLength g s.operands = 0 then .absorbed else .squeezing
          eng := .idle, prog := .start, done := true, tick := s.tick + 1
          mem := t.mem, hostStale := t.hostStale, engineStale := t.engineStale } ∧
        Memory.WroteBoth s.mem t.mem
          s.operands.dstA.toNat (oneShot (algRow g).rate (algRow g).ds (outputLength g s.operands)
            (s.dmaBytes .a s.operands.srcA.toNat s.operands.len.toNat)).2
          s.operands.dstB.toNat (oneShot (algRow g).rate (algRow g).ds (outputLength g s.operands)
            (s.dmaBytes .b s.operands.srcB.toNat s.operands.len.toNat)).2 ∧
        (s.params.dmaCoherent = true → t.hostStale = s.hostStale ∧ t.engineStale = s.engineStale)

/-- 42_hash.md R190, R201: the algorithm table, and SHA3 lengths that OUTLEN does not change. -/
def Obligations.AlgorithmTable : Prop :=
  ∀ o : Operands,
    algRow .shake128 = ⟨168, 0x1F, none⟩ ∧ algRow .shake256 = ⟨136, 0x1F, none⟩ ∧
    algRow .sha3_256 = ⟨136, 0x06, some 32⟩ ∧ algRow .sha3_512 = ⟨72, 0x06, some 64⟩ ∧
    capacity 168 = 32 ∧ capacity 136 = 64 ∧ capacity 72 = 128 ∧
    outputLength .shake128 o = o.outlen.toNat ∧ outputLength .shake256 o = o.outlen.toNat ∧
    outputLength .sha3_256 o = 32 ∧ outputLength .sha3_512 o = 64

/-! ## Errors -/

/-- 60_exceptions.md R242, R243: when the engine takes up a word, the first failing check of R242's list decides the error; the
command then completes with it and changes nothing else; and when none fails the word is a command that goes on to its
accesses. That it is refused where a range covers a device is the model's choice (log 12; 20_memory.md R70). -/
def Obligations.ChecksInOrder : Prop :=
  ∀ (s : State) (c : Word) (ops : Operands),
    s.eng = .busy c ops → s.resetIn = false → s.moves = [] →
      match expectedError s.params s.phase ops c with
      | some e => step s = .next (s.failedCheck e)
      | none => ∃ i, decode c = .command i ∧
          step s = if (jobOf i ops).touchesDevice s.params ops then .refused .deviceInDmaRange
            else .next ((jobOf i ops).perform s)

/-- 60_exceptions.md R245: an x2 command without the datapath completes with ERR_NO_X2 and no other effect; with the datapath no
command records that code. -/
def Obligations.X2NeedsTheDatapath : Prop :=
  ∀ (i : Instr) (s : State),
    (i.x2 = true → s.params.hasX2 = false → exec i s = .next (s.failedCheck .noX2)) ∧
    (s.params.hasX2 = true → s.errCode ≠ .noX2 → ∀ t, exec i s = .next t → t.errCode ≠ .noX2)

/-- 60_exceptions.md R246: ABSORB and SQUEEZE, in both forms, with a RATE that is not a multiple of 8 from 8 to 200. -/
def Obligations.IllegalRateIsAnError : Prop :=
  ∀ (i : Instr) (s : State),
    (i.op = .absorb ∨ i.op = .squeeze) → (i.x2 = true → s.params.hasX2 = true) →
    (s.operands.rate.toNat % 8 ≠ 0 ∨ s.operands.rate.toNat < 8 ∨ 200 < s.operands.rate.toNat) →
      exec i s = .next (s.failedCheck .rate)

/-- 60_exceptions.md R247: SQUEEZE, in both forms, while PHASE is EMPTY or FAILED, even with NBLOCKS = 0. -/
def Obligations.SqueezeNeedsAPrimedState : Prop :=
  ∀ (i : Instr) (s : State),
    i.op = .squeeze → (i.x2 = true → s.params.hasX2 = true) → rateLegal s.operands.rate.toNat = true →
    (s.phase = .empty ∨ s.phase = .failed) →
      exec i s = .next (s.failedCheck .seq)

/-- 60_exceptions.md R248: ABSORB and HASH with a source range, and HASH and SQUEEZE with a destination range, that passes 2^64, in
unbounded integers. One that ends exactly at 2^64 is no range error. -/
def Obligations.RangePastTheTopIsAnError : Prop :=
  ∀ (i : Instr) (s : State),
    (i.x2 = true → s.params.hasX2 = true) →
    ((i.op = .absorb ∨ i.op = .squeeze) → rateLegal s.operands.rate.toNat = true) →
    (i.op = .squeeze → s.phase ≠ .empty ∧ s.phase ≠ .failed) →
      ((∃ e ∈ (jobOf i s.operands).streams,
          2 ^ 64 < s.operands.src e + (jobOf i s.operands).srcLen ∨
          2 ^ 64 < s.operands.dst e + (jobOf i s.operands).dstLen) → exec i s = .next (s.failedCheck .range)) ∧
      ((∀ e ∈ (jobOf i s.operands).streams,
          s.operands.src e + (jobOf i s.operands).srcLen ≤ 2 ^ 64 ∧
          s.operands.dst e + (jobOf i s.operands).dstLen ≤ 2 ^ 64) →
        (jobOf i s.operands).check s.params s.phase s.operands = none)

/-- 60_exceptions.md R249, R251: a command that passed its checks and meets a refused read stops: ERR_BUS_READ with the address of one
refused read, PHASE FAILED, no destination byte written, stream B untouched by a scalar command. What the named lanes
hold is free (log 6); which refused address is free (log 7). -/
def Obligations.RefusedReadStopsTheCommand : Prop :=
  ∀ (i : Instr) (s : State),
    (jobOf i s.operands).check s.params s.phase s.operands = none →
    (jobOf i s.operands).touchesDevice s.params s.operands = false →
    (∀ a ∈ (jobOf i s.operands).srcAddrs s.operands, admits s.params a .read = true → responds s.params a .read = true) →
    (∃ a ∈ (jobOf i s.operands).srcAddrs s.operands, admits s.params a .read = false) →
      ∃ t a, exec i s = .next t ∧ a ∈ (jobOf i s.operands).srcAddrs s.operands ∧ admits s.params a .read = false ∧
        t.phase = .failed ∧ t.mem = s.mem ∧ t.eng = .idle ∧ t.done = true ∧ t.err = true ∧
        (s.err = false → t.errCode = .busRead ∧ t.errAddr = BitVec.ofNat 64 a) ∧
        (s.err = true → t.errCode = s.errCode ∧ t.errAddr = s.errAddr) ∧
        (i.x2 = false → t.s1 = s.s1)

/-- 60_exceptions.md R250, R251: a refused write stops the command: ERR_BUS_WRITE with the address of one refused write, PHASE FAILED;
every byte holds its old value, or the value the command writes there, and that only where the write is admitted. -/
def Obligations.RefusedWriteStopsTheCommand : Prop :=
  ∀ (i : Instr) (s : State), s.mem.wf = true →
    (jobOf i s.operands).check s.params s.phase s.operands = none →
    (jobOf i s.operands).touchesDevice s.params s.operands = false →
    (∀ a ∈ (jobOf i s.operands).srcAddrs s.operands, answers s.params .read a = true) →
    (∀ a ∈ (jobOf i s.operands).dstAddrs s.operands, admits s.params a .write = true → responds s.params a .write = true) →
    (∃ a ∈ (jobOf i s.operands).dstAddrs s.operands, admits s.params a .write = false) →
      ∃ t a, exec i s = .next t ∧ a ∈ (jobOf i s.operands).dstAddrs s.operands ∧ admits s.params a .write = false ∧
        t.phase = .failed ∧ t.eng = .idle ∧ t.done = true ∧ t.err = true ∧
        (s.err = false → t.errCode = .busWrite ∧ t.errAddr = BitVec.ofNat 64 a) ∧
        (s.err = true → t.errCode = s.errCode ∧ t.errAddr = s.errAddr) ∧
        (i.x2 = false → t.s1 = s.s1) ∧
        ∀ x, t.mem.read x = s.mem.read x ∨
          (admits s.params x .write = true ∧
            ∃ w ∈ (jobOf i s.operands).writes s, w.addr = x ∧ w.byte = t.mem.read x)

/-- 43_register_access.md R230: an access that never gets a response, with no refused one to stop the command, leaves the engine
busy: nothing completes, and no lane, no flag and no register changes. -/
def Obligations.SilentPlatformHangsTheEngine : Prop :=
  ∀ (i : Instr) (s : State) (c : Word) (ops : Operands), s.eng = .busy c ops →
    (jobOf i s.operands).check s.params s.phase s.operands = none →
    (jobOf i s.operands).touchesDevice s.params s.operands = false →
    (∀ a ∈ (jobOf i s.operands).srcAddrs s.operands, admits s.params a .read = true) →
    (∀ a ∈ (jobOf i s.operands).dstAddrs s.operands, admits s.params a .write = true) →
    ((∃ a ∈ (jobOf i s.operands).srcAddrs s.operands, responds s.params a .read = false) ∨
      ∃ a ∈ (jobOf i s.operands).dstAddrs s.operands, responds s.params a .write = false) →
      ∃ t, exec i s = .next t ∧ t.eng = .busy c ops ∧ t.done = s.done ∧ t.err = s.err ∧ t.errCode = s.errCode ∧
        t.errAddr = s.errAddr ∧ t.phase = s.phase ∧ t.s0 = s.s0 ∧ t.s1 = s.s1 ∧ t.regs = s.regs

/-- 60_exceptions.md R252, R254: ERR blocks nothing and keeps the first error: a command run with ERR = 1 leaves ERR, ERRCODE and
ERRADDR as they were, whether it fails or succeeds. -/
def Obligations.FirstErrorIsKept : Prop :=
  ∀ (i : Instr) (s t : State), s.err = true → exec i s = .next t →
    t.err = true ∧ t.errCode = s.errCode ∧ t.errAddr = s.errAddr

/-- 43_register_access.md R228, 60_exceptions.md R253: a command that leaves the engine idle sets DONE, with or without an error; one
that does not (an access without a response, 43_register_access.md R230) sets nothing. -/
def Obligations.EveryCompletionSetsDone : Prop :=
  ∀ (i : Instr) (s t : State), s.busy = true → exec i s = .next t →
    (t.busy = false ∧ t.done = true) ∨ (t.busy = true ∧ t.done = s.done ∧ t.err = s.err)

/-! ## Frames -/

/-- 30_encoding.md R92, 10_state.md R24, R28: whatever becomes of it, no command changes a parameter register, CMD, CTRL.IE, OVR, the
parameters or what the host holds, and a scalar command leaves stream B alone. -/
def Obligations.CommandsChangeNoRegister : Prop :=
  ∀ (i : Instr) (s t : State), exec i s = .next t →
    t.regs = s.regs ∧ t.cmd = s.cmd ∧ t.ie = s.ie ∧ t.ovr = s.ovr ∧ t.params = s.params ∧ t.moves = s.moves ∧
    t.rdata = s.rdata ∧ t.mdata = s.mdata ∧ t.resetIn = s.resetIn ∧
    (∀ c ∈ t.engineStale, c ∈ s.engineStale) ∧ (s.params.dmaCoherent = true → t.engineStale = s.engineStale) ∧
    t.inFlight = s.inFlight ∧ (i.x2 = false → t.s1 = s.s1)

/-- 20_memory.md R68: which bytes a command can change, whatever becomes of it: ZERO, PERMUTE and ABSORB none; SQUEEZE those of
`[DST_A, DST_A + NBLOCKS·R)`, HASH those of `[DST_A, DST_A + outlen)`, and the x2 forms those of the same range at DST_B. -/
def Obligations.CommandsWriteInTheirRangesOnly : Prop :=
  ∀ (i : Instr) (s t : State), s.mem.wf = true → exec i s = .next t →
    ((i.op = .zero ∨ i.op = .permute ∨ i.op = .absorb) → ∀ x, t.mem.read x = s.mem.read x) ∧
    (i.op = .squeeze → ∀ x,
      ¬inRange s.operands.dstA.toNat (s.operands.nblocks.toNat * s.operands.rate.toNat) x →
      (i.x2 = true → ¬inRange s.operands.dstB.toNat (s.operands.nblocks.toNat * s.operands.rate.toNat) x) →
        t.mem.read x = s.mem.read x) ∧
    (∀ g, i.alg = some g → ∀ x,
      ¬inRange s.operands.dstA.toNat (outputLength g s.operands) x →
      (i.x2 = true → ¬inRange s.operands.dstB.toNat (outputLength g s.operands) x) →
        t.mem.read x = s.mem.read x)

/-- 10_state.md R24: only the engine, a register write (a STATE write, or CTRL with SRST) and a reset change a lane, and only they
change PHASE. -/
def Obligations.OnlyTheseMovesChangeLanes : Prop :=
  ∀ (s t : State) (m : Move), s.take m = .next t → (t.s0 ≠ s.s0 ∨ t.s1 ≠ s.s1 ∨ t.phase ≠ s.phase) →
    (m = .engine ∧ s.busy = true) ∨
    (∃ addr size v off, m = .regWrite addr size v ∧ windowOffset s.params addr = some off ∧
      ((∃ i e, Reg.ofOffset off = .state i e) ∨ (Reg.ofOffset off = .ctrl ∧ v.getLsbD 1 = true))) ∨
    m = .resetAssert ∨ m = .resetRelease ∨ m = .powerCycle

/-- 43_register_access.md R218: while a command runs, no move changes its word, its operands, a parameter register, a lane or PHASE,
unless it ends the command. -/
def Obligations.RunningCommandIsLeftAlone : Prop :=
  ∀ s t : State, s.busy = true → step s = .next t → t.busy = true →
    t.eng = s.eng ∧ t.regs = s.regs ∧ t.cmd = s.cmd ∧ t.s0 = s.s0 ∧ t.s1 = s.s1 ∧ t.phase = s.phase

/-! ## The register window -/

/-- 43_register_access.md R220, R221: a parameter register reads back what was written while idle, RATE and DS its low byte, and
every other register field keeps its value. -/
def Obligations.ParameterRegistersReadBack : Prop :=
  ∀ (s : State) (v : Word), s.busy = false →
    (s.writeReg v .rate = { s with regs := { s.regs with rate := v.setWidth 8 } } ∧
      (s.writeReg v .rate).readReg .rate = v &&& 0xFF) ∧
    (s.writeReg v .ds = { s with regs := { s.regs with ds := v.setWidth 8 } } ∧
      (s.writeReg v .ds).readReg .ds = v &&& 0xFF) ∧
    (s.writeReg v .len = { s with regs := { s.regs with len := v } } ∧ (s.writeReg v .len).readReg .len = v) ∧
    (s.writeReg v .outlen = { s with regs := { s.regs with outlen := v } } ∧
      (s.writeReg v .outlen).readReg .outlen = v) ∧
    (s.writeReg v .nblocks = { s with regs := { s.regs with nblocks := v } } ∧
      (s.writeReg v .nblocks).readReg .nblocks = v) ∧
    (s.writeReg v .srcA = { s with regs := { s.regs with srcA := v } } ∧ (s.writeReg v .srcA).readReg .srcA = v) ∧
    (s.writeReg v .srcB = { s with regs := { s.regs with srcB := v } } ∧ (s.writeReg v .srcB).readReg .srcB = v) ∧
    (s.writeReg v .dstA = { s with regs := { s.regs with dstA := v } } ∧ (s.writeReg v .dstA).readReg .dstA = v) ∧
    (s.writeReg v .dstB = { s with regs := { s.regs with dstB := v } } ∧ (s.writeReg v .dstB).readReg .dstB = v)

/-- 43_register_access.md R223, R224, R225, R226: the STATE window. A write while idle changes the one lane it names, sets PHASE to
RAW and nothing else; a read returns the lane; every STATE read is 0 while busy; stream B's registers are reserved without
the datapath. -/
def Obligations.StateWindowReadsAndWritesLanes : Prop :=
  ∀ (s : State) (v : Word) (i : Fin 25) (e : StreamId),
    (s.busy = true → s.readReg (.state i e) = 0) ∧
    (laneExists s.params e = false →
      s.readReg (.state i e) = 0 ∧ s.writeReg v (.state i e) = s) ∧
    (s.busy = false → laneExists s.params e = true →
      s.readReg (.state i e) = (s.lanes e).lane i ∧
      (s.writeReg v (.state i e)).readReg (.state i e) = v ∧
      (∀ (k : Fin 25) (f : StreamId), (k, f) ≠ (i, e) →
        ((s.writeReg v (.state i e)).lanes f).lane k = (s.lanes f).lane k) ∧
      s.writeReg v (.state i e) =
        { s with
          s0 := (s.writeReg v (.state i e)).s0, s1 := (s.writeReg v (.state i e)).s1, phase := .raw }) ∧
    laneExists s.params .a = true ∧ laneExists s.params .b = s.params.hasX2

/-- 43_register_access.md R218: while busy, a write to CMD, a parameter register or an existing STATE register is dropped and sets
OVR; writes to CTRL and STATUS never are. -/
def Obligations.BusyLockDropsWrites : Prop :=
  ∀ (s : State) (v : Word) (r : Reg), s.busy = true →
    (r ∈ [Reg.cmd, .rate, .ds, .len, .outlen, .nblocks, .srcA, .srcB, .dstA, .dstB] ∨
      (∃ i e, r = .state i e ∧ laneExists s.params e = true) →
      s.writeReg v r = { s with ovr := true }) ∧
    s.writeReg v .status = s.clearFlags v ∧
    s.writeReg v .ctrl = if v.getLsbD 1 then s.softReset else { s with ie := v.getLsbD 0 }

/-- 43_register_access.md R211, R212, R213; 10_state.md R30: writes to reserved offsets, ID, CAPS and ERRADDR are ignored, busy or
not; reserved offsets read 0; ID and CAPS read their constants; and the register map. -/
def Obligations.ReadOnlyAndReservedRegisters : Prop :=
  ∀ (s : State) (v : Word),
    (∀ r ∈ [Reg.id, .caps, .errAddr, .reserved], s.writeReg v r = s) ∧
    s.readReg .reserved = 0 ∧ s.readReg .id = 0x000000014B454343 ∧
    (s.readReg .caps).getLsbD 0 = s.params.hasX2 ∧ (s.readReg .caps).extractLsb' 1 7 = 0 ∧
    (s.readReg .caps).extractLsb' 8 8 = BitVec.ofNat 8 s.params.roundsPerCycle.count ∧
    (s.readReg .caps).extractLsb' 16 48 = 0 ∧
    s.readReg .errAddr = s.errAddr ∧
    (∀ r : Reg, Reg.ofOffset r.offset = r) ∧
    ∀ off, off % 8 = 0 → (0x078 ≤ off ∧ off < 0x100 ∨ 0x290 ≤ off ∧ off < 0x400) → Reg.ofOffset off = .reserved

/-- 43_register_access.md R215: what a STATUS read returns, field by field, in every state; and a register read changes nothing
but what the host has read (20_memory.md R70). -/
def Obligations.StatusReadReturnsItsFields : Prop :=
  ∀ s : State,
    s.readReg .status = s.statusWord ∧
    s.statusWord.getLsbD 0 = s.busy ∧ s.statusWord.getLsbD 1 = s.done ∧ s.statusWord.getLsbD 2 = s.err ∧
    s.statusWord.getLsbD 3 = s.ovr ∧ s.statusWord.extractLsb' 4 4 = 0 ∧ s.statusWord.extractLsb' 8 4 = s.phase.code ∧
    s.statusWord.extractLsb' 12 4 = 0 ∧ s.statusWord.extractLsb' 16 8 = s.errCode.code ∧
    s.statusWord.extractLsb' 24 40 = 0 ∧
    ∀ addr size t, s.take (.regRead addr size) = .next t → t = { s with rdata := t.rdata }

/-- 43_register_access.md R214, R216: what a STATUS write clears, what a CTRL write does without and with SRST, and what a CTRL read
returns, in every state. -/
def Obligations.StatusAndCtrlWrites : Prop :=
  ∀ (s : State) (v : Word),
    s.writeReg v .status =
      { s with
        done := if v.getLsbD 1 then false else s.done
        err := if v.getLsbD 2 then false else s.err
        errCode := if v.getLsbD 2 then .none else s.errCode
        errAddr := if v.getLsbD 2 then 0 else s.errAddr
        ovr := if v.getLsbD 3 then false else s.ovr } ∧
    (v.getLsbD 1 = false → s.writeReg v .ctrl = { s with ie := v.getLsbD 0 }) ∧
    (v.getLsbD 1 = true → s.writeReg v .ctrl = s.softReset) ∧
    (s.readReg .ctrl).getLsbD 0 = s.ie ∧ (s.readReg .ctrl).extractLsb' 1 63 = 0

/-- 43_register_access.md R217, R219: a CMD write while idle accepts any word, legal or not, with a snapshot of the parameter
registers; CMD reads it back; BUSY is set and DONE cleared, and ERR, ERRCODE, ERRADDR, OVR and PHASE stay. -/
def Obligations.CmdWriteAcceptsTheWord : Prop :=
  ∀ (s : State) (v : Word), s.busy = false →
    ∃ t, s.writeReg v .cmd = t ∧ t.eng = .busy v s.regs ∧ t.prog = .start ∧ t.busy = true ∧ t.done = false ∧ t.readReg .cmd = v ∧
      t.err = s.err ∧ t.errCode = s.errCode ∧ t.errAddr = s.errAddr ∧ t.ovr = s.ovr ∧ t.phase = s.phase ∧
      t.regs = s.regs ∧ t.s0 = s.s0 ∧ t.s1 = s.s1 ∧ t.mem = s.mem ∧ t.ie = s.ie

/-- 10_state.md R45, 43_register_access.md R229: irq is CTRL.IE AND STATUS.DONE: it rises at a completion with IE = 1, and when IE is
set while DONE = 1; it falls when DONE is cleared, when a command is accepted, at a reset, and when IE is cleared. -/
def Obligations.IrqFollowsIeAndDone : Prop :=
  ∀ (s : State) (v : Word),
    (s.irq = true ↔ s.ie = true ∧ s.done = true) ∧
    (∀ (i : Instr) (t : State), s.busy = true → exec i s = .next t → t.busy = false → t.irq = s.ie) ∧
    (v.getLsbD 1 = true → (s.writeReg v .status).irq = false) ∧
    (s.busy = false → (s.writeReg v .cmd).irq = false) ∧
    (v.getLsbD 1 = false → (s.writeReg v .ctrl).irq = (v.getLsbD 0 && s.done)) ∧
    (v.getLsbD 1 = true → (s.writeReg v .ctrl).irq = false) ∧
    ∀ t, s.take .resetAssert = .next t → t.irq = false

/-- 20_memory.md R62: a host access to the window that is not 64 bits wide, or not at a multiple of 8, is a fault and has no effect;
every other one, outside reset and within the contract, has the effect of its register. -/
def Obligations.HostAccessShape : Prop :=
  ∀ (s : State) (addr v : Word) (size off : Nat),
    windowOffset s.params addr = some off → s.resetIn = false → s.outOfContract = false →
      (¬(size = 8 ∧ off % 8 = 0) →
        s.take (.regWrite addr size v) = .fault .hostAccessShape ∧
        s.take (.regRead addr size) = .fault .hostAccessShape) ∧
      (size = 8 ∧ off % 8 = 0 →
        s.take (.regWrite addr size v) = .next (s.writeReg v (Reg.ofOffset off)) ∧
        s.take (.regRead addr size) = .next { s with rdata := s.readReg (Reg.ofOffset off) })

/-- 70_reset_and_hazards.md R271: a soft reset, an assertion of the reset input or a power cycle abandons a running command: DONE
is not set, no error is recorded, irq is low, every lane is 0; each byte of the destination ranges holds its old value or the value the command would have written there,
and no other byte changes. The model's choice (log 14): that the lanes are 0 at the assertion already, and, for a power cycle, all
that is said of memory, since R261 and R271 do not say that memory keeps its contents then. -/
def Obligations.ResetAbandonsTheCommand : Prop :=
  ∀ (s t : State) (v : Word), s.Inv →
    (v.getLsbD 1 = true ∧ t = s.writeReg v .ctrl) ∨ s.take .resetAssert = .next t ∨ s.take .powerCycle = .next t →
      t.busy = false ∧ t.done = false ∧ t.err = false ∧ t.irq = false ∧ (∀ i < 25, t.s0.lane i = 0 ∧ t.s1.lane i = 0) ∧
      (s.busy = false → t.mem = s.mem) ∧
      ∀ x, t.mem.read x = s.mem.read x ∨
        ∃ c ops i, s.eng = .busy c ops ∧ decode c = .command i ∧ (jobOf i ops).inDst ops x = true ∧
          ∃ w ∈ (jobOf i ops).writes s, w.addr = x ∧ w.byte = t.mem.read x

/-! ## Races and overlaps -/

/-- 20_memory.md R74, R75, R81: what a DMA read returns: the byte there, one already read, or without coherence one it replaced;
right after acceptance, and with coherence, the byte there. A host store changes what the engine reads of no other byte,
and of its own byte to nothing but the stored one. And what a host load returns: the byte there, or without coherence one
it replaced; the byte there is the one before, or the one the running command writes, and no other byte changes; and the
engine's results stay the same. When the engine does which access is free (log 8), and so is a stale byte (log 10). -/
def Obligations.ReadsReturnHeldBytes : Prop :=
  (∀ (s : State) (e : StreamId) (a : Nat), s.dmaByte e a = s.mem.read a ∨
    (∃ r ∈ s.prog.reads, r.stream = e ∧ r.addr = a ∧ r.byte = s.dmaByte e a) ∨
    (s.params.dmaCoherent = false ∧ (a, s.dmaByte e a) ∈ s.engineStale)) ∧
  (∀ (s : State) (c : Word) (e : StreamId) (a : Nat), s.params.dmaCoherent = true →
    (s.accept c).dmaByte e a = s.mem.read a) ∧
  (∀ (s t : State) (addr : Word) (b : Byte), s.mem.wf = true → s.params.dmaCoherent = true →
    s.take (.memStore addr b) = .next t →
      ∀ e x, t.dmaByte e x = s.dmaByte e x ∨ (x = addr.toNat ∧ t.dmaByte e x = b)) ∧
  ∀ (s t : State) (addr : Word), s.mem.wf = true → s.take (.memLoad addr) = .next t →
    (t.mdata = t.mem.read addr.toNat ∨ (s.params.dmaCoherent = false ∧ (addr.toNat, t.mdata) ∈ t.hostStale)) ∧
    (t.mem.read addr.toNat = s.mem.read addr.toNat ∨
      ∃ w ∈ s.unfinishedWrites, w.addr = addr.toNat ∧ w.byte = t.mem.read addr.toNat) ∧
    (∀ x, x ≠ addr.toNat → t.mem.read x = s.mem.read x) ∧
    (s.params.dmaCoherent = true → ∀ c ops i e, s.eng = .busy c ops → decode c = .command i →
      e ∈ (jobOf i ops).streams → (jobOf i ops).result t e = (jobOf i ops).result s e)

/-- 20_memory.md R68, R75, R77: which byte each address holds when a command finishes: stream A's output byte where stream A has
still to write and stream B has not, and the other way round; either of the two where both have (R77); what was there where
neither has, every byte written before among them. And a byte the host stored to while the command ran ends up
holding the host's byte or one the command writes there (R75). Which, is free (log 8, log 9). -/
def Obligations.OverlappedByteIsOneOfTheTwo : Prop :=
  (∀ (i : Instr) (s : State), s.mem.wf = true →
    (jobOf i s.operands).check s.params s.phase s.operands = none →
    (jobOf i s.operands).BusClear s.params s.operands →
      ∃ t, exec i s = .next t ∧ ∀ x,
        let writesA := inRange (s.operands.dst .a) (jobOf i s.operands).dstLen x ∧ s.written .a x = false
        let writesB := i.x2 = true ∧ inRange (s.operands.dst .b) (jobOf i s.operands).dstLen x ∧ s.written .b x = false
        let byteA := ((jobOf i s.operands).result s .a).2.getD (x - s.operands.dst .a) 0
        let byteB := ((jobOf i s.operands).result s .b).2.getD (x - s.operands.dst .b) 0
        (writesA → ¬writesB → t.mem.read x = byteA) ∧
        (writesB → ¬writesA → t.mem.read x = byteB) ∧
        (writesA → writesB → t.mem.read x = byteA ∨ t.mem.read x = byteB) ∧
        (¬writesA → ¬writesB → t.mem.read x = s.mem.read x)) ∧
  ∀ (i : Instr) (s u : State) (addr : Word) (b : Byte), s.mem.wf = true → s.take (.memStore addr b) = .next u →
    (jobOf i u.operands).check u.params u.phase u.operands = none →
    (jobOf i u.operands).BusClear u.params u.operands →
      ∃ t, exec i u = .next t ∧ (t.mem.read addr.toNat = b ∨
        ∃ w ∈ (jobOf i u.operands).writes u, w.addr = addr.toNat ∧ w.byte = t.mem.read addr.toNat)

/-! ## Whole-machine equivalences -/

/-- 41_sponge.md R166: SQUEEZE of a + b blocks at d is SQUEEZE of a blocks at d, then of b blocks at d + a·R, at the same rate: the
same lanes, the same PHASE, the same memory. For SQUEEZE.X2 at d and d', with destination ranges that do not overlap. -/
def Obligations.SqueezeIsIncremental : Prop :=
  ∀ (i : Instr) (s : State) (a b d d' : Nat), i.op = .squeeze → s.mem.wf = true → s.eng = .idle →
    rateLegal s.regs.rate.toNat = true → s.phase ≠ .empty → s.phase ≠ .failed → d < 2 ^ 64 → d' < 2 ^ 64 →
    RangeClear s.params .write d ((a + b) * s.regs.rate.toNat) →
    (i.x2 = true → s.params.hasX2 = true ∧ RangeClear s.params .write d' ((a + b) * s.regs.rate.toNat) ∧
      (d + (a + b) * s.regs.rate.toNat ≤ d' ∨ d' + (a + b) * s.regs.rate.toNat ≤ d)) →
      ∃ t u v,
        ({ s with regs := { s.regs with
            nblocks := BitVec.ofNat 64 (a + b), dstA := BitVec.ofNat 64 d, dstB := BitVec.ofNat 64 d' } } : State).issue
          i = .next t ∧
        ({ s with regs := { s.regs with
            nblocks := BitVec.ofNat 64 a, dstA := BitVec.ofNat 64 d, dstB := BitVec.ofNat 64 d' } } : State).issue
          i = .next u ∧
        ({ u with regs := { u.regs with
            nblocks := BitVec.ofNat 64 b, dstA := BitVec.ofNat 64 (d + a * s.regs.rate.toNat)
            dstB := BitVec.ofNat 64 (d' + a * s.regs.rate.toNat) } } : State).issue i = .next v ∧
        v.s0 = t.s0 ∧ v.s1 = t.s1 ∧ v.phase = t.phase ∧ v.mem = t.mem

/-- 42_hash.md R203: a HASH whose outlen is a multiple of its rate is ABSORB at that rate and separator, then SQUEEZE of outlen / R
blocks at the same DST: the same lanes, PHASE and memory, outlen = 0 among them; and the x2 forms likewise, with
destination ranges that do not overlap. Only RATE and DS differ, which HASH leaves as they were. -/
def Obligations.HashIsAbsorbThenSqueeze : Prop :=
  ∀ (g : Alg) (x2 : Bool) (s : State), s.mem.wf = true → s.eng = .idle →
    outputLength g s.regs % (algRow g).rate = 0 →
    RangeClear s.params .read s.regs.srcA.toNat s.regs.len.toNat →
    RangeClear s.params .write s.regs.dstA.toNat (outputLength g s.regs) →
    (x2 = true → s.params.hasX2 = true ∧
      RangeClear s.params .read s.regs.srcB.toNat s.regs.len.toNat ∧
      RangeClear s.params .write s.regs.dstB.toNat (outputLength g s.regs) ∧
      dstDisjoint s.regs (outputLength g s.regs)) →
      ∃ t u v,
        s.issue (Instr.hash g x2) = .next t ∧
        ({ s with regs := { s.regs with rate := BitVec.ofNat 8 (algRow g).rate, ds := (algRow g).ds } } : State).issue
          (if x2 then .absorbX2 else .absorb) = .next u ∧
        ({ u with regs := { u.regs with
            nblocks := BitVec.ofNat 64 (outputLength g s.regs / (algRow g).rate) } } : State).issue
          (if x2 then .squeezeX2 else .squeeze) = .next v ∧
        v.s0 = t.s0 ∧ v.s1 = t.s1 ∧ v.phase = t.phase ∧ v.mem = t.mem ∧
        t.regs = s.regs ∧ { t.regs with rate := v.regs.rate, ds := v.regs.ds, nblocks := v.regs.nblocks } = v.regs

/-- 40_permutation.md R134, 41_sponge.md R167, 95_test_vectors.md V-SRC-7: an x2 command gives each stream what its scalar form gives
that stream alone: stream A as it stands, stream B with its lanes, source and destination put in stream A's place. -/
def Obligations.X2IsTheScalarCommandTwice : Prop :=
  ∀ (i : Instr) (s : State), i.x2 = true → s.mem.wf = true → s.Undisturbed →
    (jobOf i s.operands).check s.params s.phase s.operands = none →
    (jobOf i s.operands).BusClear s.params s.operands →
    dstDisjoint s.operands (jobOf i s.operands).dstLen →
      ∃ t u v, exec i s = .next t ∧ exec i.scalar s = .next u ∧
        exec i.scalar { s with
          s0 := s.s1
          eng := .busy (encode i.scalar) { s.operands with srcA := s.operands.srcB, dstA := s.operands.dstB } } = .next v ∧
        t.s0 = u.s0 ∧ t.s1 = v.s0 ∧ t.phase = u.phase ∧ t.phase = v.phase ∧
        (∀ x, inRange (s.operands.dst .a) (jobOf i s.operands).dstLen x → t.mem.read x = u.mem.read x) ∧
        (∀ x, inRange (s.operands.dst .b) (jobOf i s.operands).dstLen x → t.mem.read x = v.mem.read x)

/-- 41_sponge.md R168: the result of ABSORB, SQUEEZE and HASH, in both forms, depends only on the operand registers, the message
bytes and, for SQUEEZE, the lanes: two states that agree on these get equal lanes and equal output bytes. -/
def Obligations.ResultsDependOnOperandsAndMessage : Prop :=
  ∀ (i : Instr) (s s' : State),
    (i.op = .absorb ∨ i.op = .squeeze ∨ i.op = .hash) →
    s.operands = s'.operands → s.mem.wf = true → s'.mem.wf = true → s.Undisturbed → s'.Undisturbed →
    (jobOf i s.operands).check s.params s.phase s.operands = none →
    (jobOf i s.operands).check s'.params s'.phase s.operands = none →
    (jobOf i s.operands).BusClear s.params s.operands → (jobOf i s.operands).BusClear s'.params s.operands →
    (i.x2 = true → dstDisjoint s.operands (jobOf i s.operands).dstLen) →
    (∀ x ∈ (jobOf i s.operands).srcAddrs s.operands, s.mem.read x = s'.mem.read x) →
    (i.op = .squeeze → s.s0 = s'.s0 ∧ (i.x2 = true → s.s1 = s'.s1)) →
      ∃ t t', exec i s = .next t ∧ exec i s' = .next t' ∧ t.s0 = t'.s0 ∧ (i.x2 = true → t.s1 = t'.s1) ∧
        ∀ x, (jobOf i s.operands).inDst s.operands x = true → t.mem.read x = t'.mem.read x

/-- 43_register_access.md R230, 30_encoding.md R101: on a platform that answers every access and holds no device, the engine's turn ends every accepted
command, legal or not: it is idle with DONE set after it. And a wait polls STATUS until BUSY is 0, with an engine turn after each poll
that finds it busy (log 23). -/
def Obligations.EveryAcceptedCommandEnds : Prop :=
  (∀ s : State, s.busy = true → s.resetIn = false → s.moves = [] →
    s.params.silentReads = [] → s.params.silentWrites = [] → s.params.devices = [] →
      ∃ t, step s = .next t ∧ t.busy = false ∧ t.done = true) ∧
  ∀ (s : State) (rest : List Move), s.moves = .awaitIdle :: rest → s.resetIn = false → s.outOfContract = false →
    step s = .next { s with
      rdata := s.statusWord, moves := if s.busy then .engine :: .awaitIdle :: rest else rest }
end

