-- ==== Sys2Proof/Laws/Lanes.lean ====
section
/-! SUPPORT. The laws of lane arrays and of their byte view (10_state.md R21; 20_memory.md R64). -/

namespace Sys2Proof

@[simp] theorem Five.get_ofFn {α : Type} (f : Fin 5 → α) (i : Fin 5) : (Five.ofFn f).get i = f i := by
  fin_cases i <;> rfl

@[simp] theorem Five.get_set_self {α : Type} (v : Five α) (i : Fin 5) (a : α) : (v.set i a).get i = a := by
  fin_cases i <;> rfl

theorem Five.get_set_ne {α : Type} (v : Five α) {i j : Fin 5} (a : α) (h : j ≠ i) :
    (v.set i a).get j = v.get j := by
  fin_cases i <;> fin_cases j <;> first | rfl | exact absurd rfl h

theorem Five.ext_get {α : Type} {v w : Five α} (h : ∀ i, v.get i = w.get i) : v = w := by
  have h0 : v.x0 = w.x0 := h 0
  have h1 : v.x1 = w.x1 := h 1
  have h2 : v.x2 = w.x2 := h 2
  have h3 : v.x3 = w.x3 := h 3
  have h4 : v.x4 = w.x4 := h 4
  cases v; cases w; simp_all

@[simp] theorem Lanes.at_ofFn (f : Fin 5 → Fin 5 → Word) (x y : Fin 5) : (Lanes.ofFn f).at x y = f x y := by
  simp [Lanes.at, Lanes.ofFn]

theorem Lanes.ext_at {A B : Lanes} (h : ∀ x y, A.at x y = B.at x y) : A = B :=
  Five.ext_get fun y => Five.ext_get fun x => h x y

@[simp] theorem laneX_val (i : Nat) : (laneX i).val = i % 5 := by simp [laneX]

theorem laneY_val {i : Nat} (h : i < 25) : (laneY i).val = i / 5 := by
  simp [laneY]; omega

theorem laneX_of (x y : Fin 5) : laneX (x.val + 5 * y.val) = x := by
  apply Fin.ext; simp

theorem laneY_of (x y : Fin 5) : laneY (x.val + 5 * y.val) = y := by
  apply Fin.ext; rw [laneY_val (by omega)]; omega

/-- `A[x, y]` is lane x + 5y. -/
theorem Lanes.lane_eq_at (A : Lanes) (x y : Fin 5) : A.lane (x.val + 5 * y.val) = A.at x y := by
  rw [Lanes.lane, laneX_of, laneY_of]

theorem Lanes.ext_lane {A B : Lanes} (h : ∀ i < 25, A.lane i = B.lane i) : A = B :=
  Lanes.ext_at fun x y => by
    rw [← Lanes.lane_eq_at, ← Lanes.lane_eq_at]; exact h _ (by omega)

@[simp] theorem Lanes.lane_setLane_self (L : Lanes) (i : Nat) (v : Word) : (L.setLane i v).lane i = v := by
  simp [Lanes.lane, Lanes.setLane, Lanes.at]

theorem Lanes.lane_setLane_ne (L : Lanes) {i j : Nat} (v : Word) (hi : i < 25) (hj : j < 25) (h : j ≠ i) :
    (L.setLane i v).lane j = L.lane j := by
  unfold Lanes.lane Lanes.setLane Lanes.at
  by_cases hy : laneY j = laneY i
  · have hx : laneX j ≠ laneX i := by
      intro hx
      have h1 := congrArg Fin.val hx
      have h2 := congrArg Fin.val hy
      rw [laneX_val, laneX_val] at h1
      rw [laneY_val hi, laneY_val hj] at h2
      omega
    rw [hy, Five.get_set_self, Five.get_set_ne _ _ hx]
  · rw [Five.get_set_ne _ _ hy]

theorem Lanes.lane_setLane (L : Lanes) {i j : Nat} (v : Word) (hi : i < 25) (hj : j < 25) :
    (L.setLane i v).lane j = if j = i then v else L.lane j := by
  split_ifs with h
  · subst h; simp
  · exact Lanes.lane_setLane_ne L v hi hj h

@[simp] theorem Lanes.lane_zero (i : Nat) : Lanes.zero.lane i = 0#64 := by
  simp [Lanes.lane, Lanes.zero]

@[simp] theorem Lanes.byte_zero (j : Nat) : Lanes.zero.byte j = 0#8 := by
  simp [Lanes.byte]

/-- A word is its eight bytes. -/
theorem Word.ext_byte {v w : Word} (h : ∀ k < 8, v.extractLsb' (8 * k) 8 = w.extractLsb' (8 * k) 8) : v = w := by
  apply BitVec.eq_of_getLsbD_eq
  intro i hi
  have := congrArg (fun b => b.getLsbD (i % 8)) (h (i / 8) (by omega))
  simp only [BitVec.getLsbD_extractLsb'] at this
  have h1 : 8 * (i / 8) + i % 8 = i := by omega
  have h2 : i % 8 < 8 := by omega
  simpa [h1, h2] using this

/-- A state is its 200 bytes. -/
theorem Lanes.ext_byte {A B : Lanes} (h : ∀ j < 200, A.byte j = B.byte j) : A = B := by
  refine Lanes.ext_lane fun i hi => Word.ext_byte fun k hk => ?_
  have := h (8 * i + k) (by omega)
  have h1 : (8 * i + k) / 8 = i := by omega
  have h2 : (8 * i + k) % 8 = k := by omega
  simpa only [Lanes.byte, h1, h2] using this

/-- XOR of a byte into a word at byte k shows in byte k alone. -/
theorem Word.extract_xor_byte (w : Word) (v : Byte) {k m : Nat} (hk : k < 8) (hm : m < 8) :
    (w ^^^ (v.setWidth 64 <<< (8 * k))).extractLsb' (8 * m) 8 =
      if m = k then w.extractLsb' (8 * m) 8 ^^^ v else w.extractLsb' (8 * m) 8 := by
  apply BitVec.eq_of_getLsbD_eq
  intro i hi
  have h64 : 8 * m + i < 64 := by omega
  rcases Nat.lt_trichotomy m k with h | rfl | h
  · have h1 : m ≠ k := by omega
    have h2 : 8 * m + i < 8 * k := by omega
    simp [h1, h2, hi, h64]
  · simp [hi, h64]
  · have h1 : m ≠ k := by omega
    have h2 : ¬8 * m + i < 8 * k := by omega
    have h3 : v.getLsbD (8 * m + i - 8 * k) = false := BitVec.getLsbD_of_ge _ _ (by omega)
    simp [h1, h2, h3, hi, h64]

/-- `SB[j] ^= v` changes byte j and no other (20_memory.md R64). -/
theorem Lanes.byte_xorByte (L : Lanes) (v : Byte) {j k : Nat} (hj : j < 200) (hk : k < 200) :
    (L.xorByte j v).byte k = if k = j then L.byte k ^^^ v else L.byte k := by
  unfold Lanes.byte Lanes.xorByte
  rw [Lanes.lane_setLane _ _ (by omega) (by omega)]
  by_cases h : k / 8 = j / 8
  · rw [if_pos h, Word.extract_xor_byte _ _ (by omega) (by omega), h]
    by_cases h' : k % 8 = j % 8
    · have : k = j := by omega
      rw [if_pos h', if_pos this]
    · have : k ≠ j := by rintro rfl; exact h' rfl
      rw [if_neg h', if_neg this]
  · have : k ≠ j := by rintro rfl; exact h rfl
    rw [if_neg h, if_neg this]

/-- XOR of a byte leaves the other lanes alone. -/
theorem Lanes.lane_xorByte_ne (L : Lanes) (v : Byte) {j i : Nat} (hj : j < 200) (hi : i < 25) (h : i ≠ j / 8) :
    (L.xorByte j v).lane i = L.lane i := Lanes.lane_setLane_ne L _ (by omega) hi h

@[simp] theorem Lanes.length_bytes (L : Lanes) (n : Nat) : (L.bytes n).length = n := by simp [Lanes.bytes]

theorem Lanes.getD_bytes (L : Lanes) {n j : Nat} (h : j < n) (d : Byte) : (L.bytes n).getD j d = L.byte j := by
  simp [Lanes.bytes, h]

end Sys2Proof
end

