-- ==== Sys2Proof/Laws/Memory.lean ====
section
/-! SUPPORT. The laws of the DMA space: read after write, canonical form, and the bytes a byte string fills. -/

namespace Sys2Proof.Machine

@[simp] theorem Memory.unlisted_eq : Memory.unlisted = 0#8 := rfl

@[simp] theorem Memory.read_nil (k : Nat) : Memory.read [] k = 0#8 := rfl

@[simp] theorem Memory.wf_nil : Memory.wf [] = true := rfl

theorem Memory.wfFrom_cons {lo a : Nat} {b : Byte} {m : Memory} :
    Memory.wfFrom lo ((a, b) :: m) = true ↔
      lo ≤ a ∧ a < Memory.size ∧ b ≠ 0#8 ∧ Memory.wfFrom (a + 1) m = true := by
  simp only [Memory.wfFrom, Bool.and_eq_true, decide_eq_true_eq, and_assoc]
  exact Iff.rfl

theorem Memory.wfFrom_mono {lo lo' : Nat} {m : Memory} (h : Memory.wfFrom lo m = true) (hl : lo' ≤ lo) :
    Memory.wfFrom lo' m = true := by
  cases m with
  | nil => rfl
  | cons c m =>
    obtain ⟨a, b⟩ := c
    rw [Memory.wfFrom_cons] at h ⊢
    exact ⟨hl.trans h.1, h.2⟩

/-- Below where a canonical memory starts, everything reads as unlisted. -/
theorem Memory.read_below {lo k : Nat} {m : Memory} (h : Memory.wfFrom lo m = true) (hk : k < lo) :
    Memory.read m k = 0#8 := by
  induction m generalizing lo with
  | nil => rfl
  | cons c m ih =>
    obtain ⟨a, b⟩ := c
    obtain ⟨h1, -, -, h4⟩ := Memory.wfFrom_cons.1 h
    have hne : k ≠ a := by omega
    simpa [Memory.read, hne] using ih h4 (by omega)

theorem Memory.wfFrom_consCell {lo k : Nat} {m : Memory} (v : Byte) (h : Memory.wfFrom (k + 1) m = true)
    (hk : k < Memory.size) (hlo : lo ≤ k) : Memory.wfFrom lo (Memory.cons k v m) = true := by
  unfold Memory.cons
  split_ifs with hv
  · exact Memory.wfFrom_mono h (by omega)
  · exact Memory.wfFrom_cons.2 ⟨hlo, hk, hv, h⟩

theorem Memory.read_consCell {k : Nat} {m : Memory} (v : Byte) (h : Memory.wfFrom (k + 1) m = true) (x : Nat) :
    Memory.read (Memory.cons k v m) x = if x = k then v else Memory.read m x := by
  unfold Memory.cons
  split_ifs with hv hx hx
  · subst hx; rw [Memory.read_below h (by omega), hv]; rfl
  · rfl
  · simp [Memory.read, hx]
  · simp [Memory.read, hx]

theorem Memory.wfFrom_write {lo k : Nat} {m : Memory} (v : Byte) (h : Memory.wfFrom lo m = true)
    (hk : k < Memory.size) (hlo : lo ≤ k) : Memory.wfFrom lo (Memory.write m k v) = true := by
  induction m generalizing lo with
  | nil => exact Memory.wfFrom_consCell v rfl hk hlo
  | cons c m ih =>
    obtain ⟨a, b⟩ := c
    obtain ⟨h1, h2, h3, h4⟩ := Memory.wfFrom_cons.1 h
    unfold Memory.write
    split_ifs with hlt heq
    · exact Memory.wfFrom_consCell v (Memory.wfFrom_cons.2 ⟨by omega, h2, h3, h4⟩) hk hlo
    · subst heq; exact Memory.wfFrom_consCell v h4 hk hlo
    · exact Memory.wfFrom_cons.2 ⟨h1, h2, h3, ih h4 (by omega)⟩

/-- A store at a DMA address keeps the canonical form. -/
theorem Memory.wf_write {m : Memory} {k : Nat} (v : Byte) (h : m.wf = true) (hk : k < Memory.size) :
    (m.write k v).wf = true := Memory.wfFrom_write v h hk (Nat.zero_le k)

theorem Memory.read_write_from {lo : Nat} {m : Memory} (h : Memory.wfFrom lo m = true) (k : Nat) (v : Byte)
    (x : Nat) : Memory.read (Memory.write m k v) x = if x = k then v else Memory.read m x := by
  induction m generalizing lo with
  | nil => exact Memory.read_consCell v rfl x
  | cons c m ih =>
    obtain ⟨a, b⟩ := c
    obtain ⟨-, h2, h3, h4⟩ := Memory.wfFrom_cons.1 h
    by_cases hlt : k < a
    · have hw : Memory.write ((a, b) :: m) k v = Memory.cons k v ((a, b) :: m) := by simp [Memory.write, hlt]
      rw [hw, Memory.read_consCell v (Memory.wfFrom_cons.2 ⟨hlt, h2, h3, h4⟩)]
    · by_cases heq : k = a
      · subst heq
        have hw : Memory.write ((k, b) :: m) k v = Memory.cons k v m := by simp [Memory.write]
        rw [hw, Memory.read_consCell v h4]
        by_cases hx : x = k <;> simp [Memory.read, hx]
      · have hw : Memory.write ((a, b) :: m) k v = (a, b) :: Memory.write m k v := by
          simp [Memory.write, hlt, heq]
        rw [hw]
        by_cases hx : x = a
        · subst hx; simp [Memory.read, Ne.symm heq]
        · simp [Memory.read, hx, ih h4]

/-- Read after write. -/
theorem Memory.read_write {m : Memory} (h : m.wf = true) (k : Nat) (v : Byte) (x : Nat) :
    (m.write k v).read x = if x = k then v else m.read x := Memory.read_write_from h k v x

/-- Two canonical memories that read alike are equal data. -/
theorem Memory.eq_of_read_from {lo : Nat} {m n : Memory} (hm : Memory.wfFrom lo m = true)
    (hn : Memory.wfFrom lo n = true) (h : ∀ x, Memory.read m x = Memory.read n x) : m = n := by
  induction m generalizing lo n with
  | nil =>
    cases n with
    | nil => rfl
    | cons c n =>
      obtain ⟨a, b⟩ := c
      obtain ⟨-, -, h3, -⟩ := Memory.wfFrom_cons.1 hn
      exact absurd (by simpa [Memory.read] using (h a).symm) h3
  | cons c m ih =>
    obtain ⟨a, b⟩ := c
    obtain ⟨h1, h2, h3, h4⟩ := Memory.wfFrom_cons.1 hm
    cases n with
    | nil => exact absurd (by simpa [Memory.read] using h a) h3
    | cons d n =>
      obtain ⟨a', b'⟩ := d
      obtain ⟨h1', h2', h3', h4'⟩ := Memory.wfFrom_cons.1 hn
      rcases Nat.lt_trichotomy a a' with hlt | heq | hlt
      · have := h a
        rw [Memory.read_below (Memory.wfFrom_cons.2 ⟨le_refl a', h2', h3', h4'⟩) hlt] at this
        exact absurd (by simpa [Memory.read] using this) h3
      · subst heq
        have hb : b = b' := by simpa [Memory.read] using h a
        subst hb
        refine congrArg _ (ih h4 h4' fun x => ?_)
        by_cases hx : x = a
        · subst hx; rw [Memory.read_below h4 (by omega), Memory.read_below h4' (by omega)]
        · simpa [Memory.read, hx] using h x
      · have := (h a').symm
        rw [Memory.read_below (Memory.wfFrom_cons.2 ⟨le_refl a, h2, h3, h4⟩) hlt] at this
        exact absurd (by simpa [Memory.read] using this) h3'

theorem Memory.eq_of_read {m n : Memory} (hm : m.wf = true) (hn : n.wf = true)
    (h : ∀ x, m.read x = n.read x) : m = n := Memory.eq_of_read_from hm hn h

@[simp] theorem cellsAt_nil (a : Nat) : cellsAt a [] = [] := rfl

@[simp] theorem cellsAt_cons (a : Nat) (b : Byte) (bs : List Byte) :
    cellsAt a (b :: bs) = (a, b) :: cellsAt (a + 1) bs := rfl

theorem mem_cellsAt {a : Nat} {bs : List Byte} {c : Host.Cell} (h : c ∈ cellsAt a bs) :
    a ≤ c.1 ∧ c.1 < a + bs.length := by
  induction bs generalizing a with
  | nil => simp at h
  | cons b bs ih =>
    rcases List.mem_cons.1 h with rfl | h
    · simp
    · have := ih h
      simp only [List.length_cons]
      omega

theorem mem_cellsAt_getElem {a : Nat} {bs : List Byte} {c : Host.Cell} (h : c ∈ cellsAt a bs) :
    ∃ k, ∃ hk : k < bs.length, c = (a + k, bs[k]) := by
  induction bs generalizing a with
  | nil => simp at h
  | cons b bs ih =>
    rcases List.mem_cons.1 h with rfl | h
    · exact ⟨0, by simp, rfl⟩
    · obtain ⟨k, hk, rfl⟩ := ih h
      exact ⟨k + 1, by simpa using hk, by simp; omega⟩

@[simp] theorem Memory.writeCells_nil (m : Memory) : m.writeCells [] = m := rfl

@[simp] theorem Memory.writeCells_cons (m : Memory) (c : Host.Cell) (cs : List Host.Cell) :
    m.writeCells (c :: cs) = (m.write c.1 c.2).writeCells cs := rfl

theorem Memory.writeCells_append (m : Memory) (cs ds : List Host.Cell) :
    m.writeCells (cs ++ ds) = (m.writeCells cs).writeCells ds := by
  simp [Memory.writeCells]

theorem Memory.wf_writeCells {m : Memory} {cs : List Host.Cell} (h : m.wf = true)
    (hc : ∀ c ∈ cs, c.1 < Memory.size) : (m.writeCells cs).wf = true := by
  induction cs generalizing m with
  | nil => exact h
  | cons c cs ih =>
    exact ih (Memory.wf_write c.2 h (hc c List.mem_cons_self)) fun d hd => hc d (List.mem_cons_of_mem c hd)

/-- What a byte string put at an address leaves: its bytes there, everything else as before. -/
theorem Memory.read_writeCells_cellsAt {m : Memory} (h : m.wf = true) {a : Nat} {bs : List Byte}
    (ha : a + bs.length ≤ Memory.size) (x : Nat) :
    (m.writeCells (cellsAt a bs)).read x =
      if a ≤ x ∧ x < a + bs.length then bs.getD (x - a) 0#8 else m.read x := by
  induction bs generalizing m a with
  | nil => simp
  | cons b bs ih =>
    simp only [List.length_cons] at ha
    rw [cellsAt_cons, Memory.writeCells_cons, ih (Memory.wf_write b h (by omega)) (by omega),
      Memory.read_write h]
    simp only [List.length_cons]
    rcases Nat.lt_trichotomy x a with hx | rfl | hx
    · have h1 : ¬(a + 1 ≤ x ∧ x < a + 1 + bs.length) := by omega
      have h2 : ¬(a ≤ x ∧ x < a + (bs.length + 1)) := by omega
      have h3 : x ≠ a := by omega
      rw [if_neg h1, if_neg h2, if_neg h3]
    · simp
    · have h3 : x ≠ a := by omega
      have h4 : x - a = (x - (a + 1)) + 1 := by omega
      by_cases h5 : x < a + 1 + bs.length
      · have h1 : a + 1 ≤ x ∧ x < a + 1 + bs.length := by omega
        have h2 : a ≤ x ∧ x < a + (bs.length + 1) := by omega
        rw [if_pos h1, if_pos h2, h4, List.getD_cons_succ]
      · have h1 : ¬(a + 1 ≤ x ∧ x < a + 1 + bs.length) := by omega
        have h2 : ¬(a ≤ x ∧ x < a + (bs.length + 1)) := by omega
        rw [if_neg h1, if_neg h2, if_neg h3]

theorem mem_addressesFrom {a n x : Nat} : x ∈ addressesFrom a n ↔ a ≤ x ∧ x < a + n := by
  simp only [addressesFrom, List.mem_map, List.mem_range]
  constructor
  · rintro ⟨k, hk, rfl⟩; omega
  · rintro ⟨h1, h2⟩; exact ⟨x - a, by omega, by omega⟩

@[simp] theorem length_addressesFrom (a n : Nat) : (addressesFrom a n).length = n := by simp [addressesFrom]

theorem spanMeets_iff {p : Span} {a n : Nat} :
    spanMeets p a n = true ↔ ∃ x, a ≤ x ∧ x < a + n ∧ spanHolds p x = true := by
  simp only [spanMeets, spanHolds, Bool.and_eq_true, decide_eq_true_eq]
  constructor
  · rintro ⟨⟨⟨h1, h2⟩, h3⟩, h4⟩
    exact ⟨max a p.base, by omega, by omega, by omega, by omega⟩
  · rintro ⟨x, h1, h2, h3, h4⟩; omega

/-- A range covers a device exactly when one of its addresses is in one. -/
theorem coversDevice_iff {p : Params} {a n : Nat} :
    coversDevice p a n = true ↔ ∃ x, a ≤ x ∧ x < a + n ∧ (p.devices.any fun sp => spanHolds sp x) = true := by
  simp only [coversDevice, List.any_eq_true, spanMeets_iff]
  constructor
  · rintro ⟨sp, hsp, x, h1, h2, h3⟩; exact ⟨x, h1, h2, sp, hsp, h3⟩
  · rintro ⟨x, h1, h2, sp, hsp, h3⟩; exact ⟨sp, hsp, x, h1, h2, h3⟩

end Sys2Proof.Machine
end

