-- ==== Sys2Proof/Laws/Sponge.lean ====
section
/-! SUPPORT. The laws of the sponge: what padding and XOR leave, lengths, and how squeezing goes on (41_sponge.md R152 to R156). -/

namespace Sys2Proof

@[simp] theorem xorBytes_nil (L : Lanes) (j : Nat) : xorBytes L j [] = L := rfl

@[simp] theorem xorBytes_cons (L : Lanes) (j : Nat) (b : Byte) (bs : List Byte) :
    xorBytes L j (b :: bs) = xorBytes (L.xorByte j b) (j + 1) bs := rfl

/-- The bytes of a state after a byte string is XORed in from byte j on. -/
theorem byte_xorBytes (L : Lanes) {j k : Nat} (bs : List Byte) (h : j + bs.length ≤ 200) (hk : k < 200) :
    (xorBytes L j bs).byte k = if j ≤ k ∧ k < j + bs.length then L.byte k ^^^ bs.getD (k - j) 0#8 else L.byte k := by
  induction bs generalizing L j with
  | nil => simp
  | cons b bs ih =>
    simp only [List.length_cons] at h
    rw [xorBytes_cons, ih _ (by omega), Lanes.byte_xorByte _ _ (by omega) hk]
    simp only [List.length_cons]
    rcases Nat.lt_trichotomy k j with hlt | rfl | hgt
    · rw [if_neg (by omega), if_neg (by omega), if_neg (by omega)]
    · rw [if_neg (by omega), if_pos rfl, if_pos (by omega), Nat.sub_self, List.getD_cons_zero]
    · have h4 : k - j = (k - (j + 1)) + 1 := by omega
      by_cases hin : k < j + 1 + bs.length
      · rw [if_pos (by omega), if_neg (by omega), if_pos (by omega), h4, List.getD_cons_succ]
      · rw [if_neg (by omega), if_neg (by omega), if_neg (by omega)]

/-- The bytes of a state after padding (41_sponge.md R152). -/
theorem byte_pad (L : Lanes) (ds : Byte) {r R j : Nat} (hr : r < R) (hR : R ≤ 200) (hj : j < 200) :
    (pad L r R ds).byte j = L.byte j ^^^ (if j = r then ds else 0#8) ^^^ (if j = R - 1 then 0x80#8 else 0#8) := by
  unfold pad
  rw [Lanes.byte_xorByte _ _ (by omega) hj, Lanes.byte_xorByte _ _ (by omega) hj]
  split_ifs <;> simp

theorem squeezeBlocks_succ (R n : Nat) (L : Lanes) :
    squeezeBlocks R (n + 1) L =
      ((squeezeBlocks R n (keccakF L)).1, (keccakF L).bytes R ++ (squeezeBlocks R n (keccakF L)).2) := rfl

@[simp] theorem length_squeezeBlocks (R n : Nat) (L : Lanes) : (squeezeBlocks R n L).2.length = n * R := by
  induction n generalizing L with
  | zero => simp [squeezeBlocks]
  | succ n ih => simp [squeezeBlocks_succ, ih, Nat.succ_mul, Nat.add_comm]

/-- Exactly n permutations (41_sponge.md R154). -/
theorem squeezeBlocks_lanes (R n : Nat) (L : Lanes) : (squeezeBlocks R n L).1 = keccakF^[n] L := by
  induction n generalizing L with
  | zero => rfl
  | succ n ih => rw [squeezeBlocks_succ, ih, Function.iterate_succ_apply]

/-- Squeezing goes on where it stopped (41_sponge.md R166). -/
theorem squeezeBlocks_add (R m n : Nat) (L : Lanes) :
    squeezeBlocks R (m + n) L =
      ((squeezeBlocks R n (squeezeBlocks R m L).1).1,
        (squeezeBlocks R m L).2 ++ (squeezeBlocks R n (squeezeBlocks R m L).1).2) := by
  induction m generalizing L with
  | zero => simp [squeezeBlocks]
  | succ m ih => rw [Nat.succ_add, squeezeBlocks_succ, squeezeBlocks_succ, ih]; simp

/-- Byte j of block b is byte j of the state after b + 1 permutations (41_sponge.md R154). -/
theorem squeezeBlocks_getD (R n : Nat) (L : Lanes) {b j : Nat} (hb : b < n) (hj : j < R) :
    (squeezeBlocks R n L).2.getD (b * R + j) 0#8 = (keccakF^[b + 1] L).byte j := by
  induction n generalizing L b with
  | zero => omega
  | succ n ih =>
    rw [squeezeBlocks_succ]
    cases b with
    | zero =>
      rw [List.getD_append _ _ _ _ (by simpa using hj), Nat.zero_mul, Nat.zero_add, Lanes.getD_bytes _ hj]
      rfl
    | succ b =>
      rw [List.getD_append_right _ _ _ _ (by simp [Nat.succ_mul]; omega), Lanes.length_bytes]
      have : (b + 1) * R + j - R = b * R + j := by rw [Nat.succ_mul]; omega
      rw [this, ih _ (by omega), Function.iterate_succ_apply keccakF (b + 1)]

@[simp] theorem length_squeezeBytes (R outlen : Nat) (L : Lanes) : (squeezeBytes R outlen L).2.length = outlen := by
  unfold squeezeBytes
  have := Nat.div_add_mod outlen R
  rw [Nat.mul_comm] at this
  split_ifs with h
  · simp; omega
  · simp; omega

@[simp] theorem length_oneShot (R : Nat) (ds : Byte) (outlen : Nat) (msg : List Byte) :
    (oneShot R ds outlen msg).2.length = outlen := by simp [oneShot]

end Sys2Proof
end

