-- ==== Sys2Proof/Laws/State.lean ====
section
/-! SUPPORT. The fields of a state after each shared operation: one lemma for each field. -/

namespace Sys2Proof.Machine

/-! Completion. -/
@[simp] theorem State.complete_params (s : State) : (s.complete).params = s.params := rfl
@[simp] theorem State.complete_s0 (s : State) : (s.complete).s0 = s.s0 := rfl
@[simp] theorem State.complete_s1 (s : State) : (s.complete).s1 = s.s1 := rfl
@[simp] theorem State.complete_phase (s : State) : (s.complete).phase = s.phase := rfl
@[simp] theorem State.complete_eng (s : State) : (s.complete).eng = .idle := rfl
@[simp] theorem State.complete_prog (s : State) : (s.complete).prog = Progress.start := rfl
@[simp] theorem State.complete_done (s : State) : (s.complete).done = true := rfl
@[simp] theorem State.complete_err (s : State) : (s.complete).err = s.err := rfl
@[simp] theorem State.complete_ovr (s : State) : (s.complete).ovr = s.ovr := rfl
@[simp] theorem State.complete_errCode (s : State) : (s.complete).errCode = s.errCode := rfl
@[simp] theorem State.complete_errAddr (s : State) : (s.complete).errAddr = s.errAddr := rfl
@[simp] theorem State.complete_ie (s : State) : (s.complete).ie = s.ie := rfl
@[simp] theorem State.complete_cmd (s : State) : (s.complete).cmd = s.cmd := rfl
@[simp] theorem State.complete_regs (s : State) : (s.complete).regs = s.regs := rfl
@[simp] theorem State.complete_mem (s : State) : (s.complete).mem = s.mem := rfl
@[simp] theorem State.complete_resetIn (s : State) : (s.complete).resetIn = s.resetIn := rfl
@[simp] theorem State.complete_moves (s : State) : (s.complete).moves = s.moves := rfl
@[simp] theorem State.complete_rdata (s : State) : (s.complete).rdata = s.rdata := rfl
@[simp] theorem State.complete_mdata (s : State) : (s.complete).mdata = s.mdata := rfl
@[simp] theorem State.complete_engineStale (s : State) : (s.complete).engineStale = s.engineStale := rfl
@[simp] theorem State.complete_hostStale (s : State) : (s.complete).hostStale = s.hostStale := rfl
@[simp] theorem State.complete_inFlight (s : State) : (s.complete).inFlight = s.inFlight := rfl
@[simp] theorem State.complete_tick (s : State) : (s.complete).tick = s.tick + 1 := rfl

/-! Waiting for a response. -/
@[simp] theorem State.hang_params (s : State) : (s.hang).params = s.params := rfl
@[simp] theorem State.hang_s0 (s : State) : (s.hang).s0 = s.s0 := rfl
@[simp] theorem State.hang_s1 (s : State) : (s.hang).s1 = s.s1 := rfl
@[simp] theorem State.hang_phase (s : State) : (s.hang).phase = s.phase := rfl
@[simp] theorem State.hang_eng (s : State) : (s.hang).eng = s.eng := rfl
@[simp] theorem State.hang_prog (s : State) : (s.hang).prog = s.prog := rfl
@[simp] theorem State.hang_done (s : State) : (s.hang).done = s.done := rfl
@[simp] theorem State.hang_err (s : State) : (s.hang).err = s.err := rfl
@[simp] theorem State.hang_ovr (s : State) : (s.hang).ovr = s.ovr := rfl
@[simp] theorem State.hang_errCode (s : State) : (s.hang).errCode = s.errCode := rfl
@[simp] theorem State.hang_errAddr (s : State) : (s.hang).errAddr = s.errAddr := rfl
@[simp] theorem State.hang_ie (s : State) : (s.hang).ie = s.ie := rfl
@[simp] theorem State.hang_cmd (s : State) : (s.hang).cmd = s.cmd := rfl
@[simp] theorem State.hang_regs (s : State) : (s.hang).regs = s.regs := rfl
@[simp] theorem State.hang_mem (s : State) : (s.hang).mem = s.mem := rfl
@[simp] theorem State.hang_resetIn (s : State) : (s.hang).resetIn = s.resetIn := rfl
@[simp] theorem State.hang_moves (s : State) : (s.hang).moves = s.moves := rfl
@[simp] theorem State.hang_rdata (s : State) : (s.hang).rdata = s.rdata := rfl
@[simp] theorem State.hang_mdata (s : State) : (s.hang).mdata = s.mdata := rfl
@[simp] theorem State.hang_engineStale (s : State) : (s.hang).engineStale = s.engineStale := rfl
@[simp] theorem State.hang_hostStale (s : State) : (s.hang).hostStale = s.hostStale := rfl
@[simp] theorem State.hang_inFlight (s : State) : (s.hang).inFlight = s.inFlight := rfl
@[simp] theorem State.hang_tick (s : State) : (s.hang).tick = s.tick + 1 := rfl

/-! One byte written by the engine. -/
@[simp] theorem State.dmaStore_params (s : State) (a : Nat) (b : Byte) : (s.dmaStore a b).params = s.params := rfl
@[simp] theorem State.dmaStore_s0 (s : State) (a : Nat) (b : Byte) : (s.dmaStore a b).s0 = s.s0 := rfl
@[simp] theorem State.dmaStore_s1 (s : State) (a : Nat) (b : Byte) : (s.dmaStore a b).s1 = s.s1 := rfl
@[simp] theorem State.dmaStore_phase (s : State) (a : Nat) (b : Byte) : (s.dmaStore a b).phase = s.phase := rfl
@[simp] theorem State.dmaStore_eng (s : State) (a : Nat) (b : Byte) : (s.dmaStore a b).eng = s.eng := rfl
@[simp] theorem State.dmaStore_prog (s : State) (a : Nat) (b : Byte) : (s.dmaStore a b).prog = s.prog := rfl
@[simp] theorem State.dmaStore_done (s : State) (a : Nat) (b : Byte) : (s.dmaStore a b).done = s.done := rfl
@[simp] theorem State.dmaStore_err (s : State) (a : Nat) (b : Byte) : (s.dmaStore a b).err = s.err := rfl
@[simp] theorem State.dmaStore_ovr (s : State) (a : Nat) (b : Byte) : (s.dmaStore a b).ovr = s.ovr := rfl
@[simp] theorem State.dmaStore_errCode (s : State) (a : Nat) (b : Byte) : (s.dmaStore a b).errCode = s.errCode := rfl
@[simp] theorem State.dmaStore_errAddr (s : State) (a : Nat) (b : Byte) : (s.dmaStore a b).errAddr = s.errAddr := rfl
@[simp] theorem State.dmaStore_ie (s : State) (a : Nat) (b : Byte) : (s.dmaStore a b).ie = s.ie := rfl
@[simp] theorem State.dmaStore_cmd (s : State) (a : Nat) (b : Byte) : (s.dmaStore a b).cmd = s.cmd := rfl
@[simp] theorem State.dmaStore_regs (s : State) (a : Nat) (b : Byte) : (s.dmaStore a b).regs = s.regs := rfl
@[simp] theorem State.dmaStore_mem (s : State) (a : Nat) (b : Byte) : (s.dmaStore a b).mem = s.mem.write a b := rfl
@[simp] theorem State.dmaStore_resetIn (s : State) (a : Nat) (b : Byte) : (s.dmaStore a b).resetIn = s.resetIn := rfl
@[simp] theorem State.dmaStore_moves (s : State) (a : Nat) (b : Byte) : (s.dmaStore a b).moves = s.moves := rfl
@[simp] theorem State.dmaStore_rdata (s : State) (a : Nat) (b : Byte) : (s.dmaStore a b).rdata = s.rdata := rfl
@[simp] theorem State.dmaStore_mdata (s : State) (a : Nat) (b : Byte) : (s.dmaStore a b).mdata = s.mdata := rfl
@[simp] theorem State.dmaStore_engineStale (s : State) (a : Nat) (b : Byte) : (s.dmaStore a b).engineStale =
    (if s.params.dmaCoherent then s.engineStale else s.engineStale.filter fun c => !(c.1 == a)) := rfl
@[simp] theorem State.dmaStore_hostStale (s : State) (a : Nat) (b : Byte) : (s.dmaStore a b).hostStale = (if s.params.dmaCoherent then s.hostStale else (a, s.mem.read a) :: s.hostStale) := rfl
@[simp] theorem State.dmaStore_inFlight (s : State) (a : Nat) (b : Byte) : (s.dmaStore a b).inFlight = s.inFlight := rfl
@[simp] theorem State.dmaStore_tick (s : State) (a : Nat) (b : Byte) : (s.dmaStore a b).tick = s.tick := rfl

/-! Acceptance of a command. -/
@[simp] theorem State.accept_params (s : State) (c : Word) : (s.accept c).params = s.params := rfl
@[simp] theorem State.accept_s0 (s : State) (c : Word) : (s.accept c).s0 = s.s0 := rfl
@[simp] theorem State.accept_s1 (s : State) (c : Word) : (s.accept c).s1 = s.s1 := rfl
@[simp] theorem State.accept_phase (s : State) (c : Word) : (s.accept c).phase = s.phase := rfl
@[simp] theorem State.accept_eng (s : State) (c : Word) : (s.accept c).eng = .busy c s.regs := rfl
@[simp] theorem State.accept_prog (s : State) (c : Word) : (s.accept c).prog = Progress.start := rfl
@[simp] theorem State.accept_done (s : State) (c : Word) : (s.accept c).done = false := rfl
@[simp] theorem State.accept_err (s : State) (c : Word) : (s.accept c).err = s.err := rfl
@[simp] theorem State.accept_ovr (s : State) (c : Word) : (s.accept c).ovr = s.ovr := rfl
@[simp] theorem State.accept_errCode (s : State) (c : Word) : (s.accept c).errCode = s.errCode := rfl
@[simp] theorem State.accept_errAddr (s : State) (c : Word) : (s.accept c).errAddr = s.errAddr := rfl
@[simp] theorem State.accept_ie (s : State) (c : Word) : (s.accept c).ie = s.ie := rfl
@[simp] theorem State.accept_cmd (s : State) (c : Word) : (s.accept c).cmd = c := rfl
@[simp] theorem State.accept_regs (s : State) (c : Word) : (s.accept c).regs = s.regs := rfl
@[simp] theorem State.accept_mem (s : State) (c : Word) : (s.accept c).mem = s.mem := rfl
@[simp] theorem State.accept_resetIn (s : State) (c : Word) : (s.accept c).resetIn = s.resetIn := rfl
@[simp] theorem State.accept_moves (s : State) (c : Word) : (s.accept c).moves = s.moves := rfl
@[simp] theorem State.accept_rdata (s : State) (c : Word) : (s.accept c).rdata = s.rdata := rfl
@[simp] theorem State.accept_mdata (s : State) (c : Word) : (s.accept c).mdata = s.mdata := rfl
@[simp] theorem State.accept_engineStale (s : State) (c : Word) : (s.accept c).engineStale = s.engineStale := rfl
@[simp] theorem State.accept_hostStale (s : State) (c : Word) : (s.accept c).hostStale = s.hostStale := rfl
@[simp] theorem State.accept_inFlight (s : State) (c : Word) : (s.accept c).inFlight = s.inFlight := rfl
@[simp] theorem State.accept_tick (s : State) (c : Word) : (s.accept c).tick = s.tick := rfl

/-! A STATUS write. -/
@[simp] theorem State.clearFlags_params (s : State) (v : Word) : (s.clearFlags v).params = s.params := rfl
@[simp] theorem State.clearFlags_s0 (s : State) (v : Word) : (s.clearFlags v).s0 = s.s0 := rfl
@[simp] theorem State.clearFlags_s1 (s : State) (v : Word) : (s.clearFlags v).s1 = s.s1 := rfl
@[simp] theorem State.clearFlags_phase (s : State) (v : Word) : (s.clearFlags v).phase = s.phase := rfl
@[simp] theorem State.clearFlags_eng (s : State) (v : Word) : (s.clearFlags v).eng = s.eng := rfl
@[simp] theorem State.clearFlags_prog (s : State) (v : Word) : (s.clearFlags v).prog = s.prog := rfl
@[simp] theorem State.clearFlags_done (s : State) (v : Word) : (s.clearFlags v).done = (s.done && !v.getLsbD 1) := rfl
@[simp] theorem State.clearFlags_err (s : State) (v : Word) : (s.clearFlags v).err = (s.err && !v.getLsbD 2) := rfl
@[simp] theorem State.clearFlags_ovr (s : State) (v : Word) : (s.clearFlags v).ovr = (s.ovr && !v.getLsbD 3) := rfl
@[simp] theorem State.clearFlags_errCode (s : State) (v : Word) : (s.clearFlags v).errCode = (if v.getLsbD 2 then .none else s.errCode) := rfl
@[simp] theorem State.clearFlags_errAddr (s : State) (v : Word) : (s.clearFlags v).errAddr = (if v.getLsbD 2 then 0 else s.errAddr) := rfl
@[simp] theorem State.clearFlags_ie (s : State) (v : Word) : (s.clearFlags v).ie = s.ie := rfl
@[simp] theorem State.clearFlags_cmd (s : State) (v : Word) : (s.clearFlags v).cmd = s.cmd := rfl
@[simp] theorem State.clearFlags_regs (s : State) (v : Word) : (s.clearFlags v).regs = s.regs := rfl
@[simp] theorem State.clearFlags_mem (s : State) (v : Word) : (s.clearFlags v).mem = s.mem := rfl
@[simp] theorem State.clearFlags_resetIn (s : State) (v : Word) : (s.clearFlags v).resetIn = s.resetIn := rfl
@[simp] theorem State.clearFlags_moves (s : State) (v : Word) : (s.clearFlags v).moves = s.moves := rfl
@[simp] theorem State.clearFlags_rdata (s : State) (v : Word) : (s.clearFlags v).rdata = s.rdata := rfl
@[simp] theorem State.clearFlags_mdata (s : State) (v : Word) : (s.clearFlags v).mdata = s.mdata := rfl
@[simp] theorem State.clearFlags_engineStale (s : State) (v : Word) : (s.clearFlags v).engineStale = s.engineStale := rfl
@[simp] theorem State.clearFlags_hostStale (s : State) (v : Word) : (s.clearFlags v).hostStale = s.hostStale := rfl
@[simp] theorem State.clearFlags_inFlight (s : State) (v : Word) : (s.clearFlags v).inFlight = s.inFlight := rfl
@[simp] theorem State.clearFlags_tick (s : State) (v : Word) : (s.clearFlags v).tick = s.tick := rfl

/-! Recording an error: the first one is kept (60_exceptions.md R252). -/

@[simp] theorem State.recordError_err (s : State) (e : ErrCode) (a : Word) : (s.recordError e a).err = true := by
  unfold State.recordError; split <;> simp_all

@[simp] theorem State.recordError_errCode (s : State) (e : ErrCode) (a : Word) :
    (s.recordError e a).errCode = if s.err then s.errCode else e := by
  unfold State.recordError; split <;> rfl

@[simp] theorem State.recordError_errAddr (s : State) (e : ErrCode) (a : Word) :
    (s.recordError e a).errAddr = if s.err then s.errAddr else if e.hasAddr then a else 0 := by
  unfold State.recordError; split <;> rfl

@[simp] theorem State.recordError_params (s : State) (e : ErrCode) (a : Word) : (s.recordError e a).params = s.params := by
  unfold State.recordError; split <;> rfl
@[simp] theorem State.recordError_s0 (s : State) (e : ErrCode) (a : Word) : (s.recordError e a).s0 = s.s0 := by
  unfold State.recordError; split <;> rfl
@[simp] theorem State.recordError_s1 (s : State) (e : ErrCode) (a : Word) : (s.recordError e a).s1 = s.s1 := by
  unfold State.recordError; split <;> rfl
@[simp] theorem State.recordError_phase (s : State) (e : ErrCode) (a : Word) : (s.recordError e a).phase = s.phase := by
  unfold State.recordError; split <;> rfl
@[simp] theorem State.recordError_eng (s : State) (e : ErrCode) (a : Word) : (s.recordError e a).eng = s.eng := by
  unfold State.recordError; split <;> rfl
@[simp] theorem State.recordError_prog (s : State) (e : ErrCode) (a : Word) : (s.recordError e a).prog = s.prog := by
  unfold State.recordError; split <;> rfl
@[simp] theorem State.recordError_done (s : State) (e : ErrCode) (a : Word) : (s.recordError e a).done = s.done := by
  unfold State.recordError; split <;> rfl
@[simp] theorem State.recordError_ovr (s : State) (e : ErrCode) (a : Word) : (s.recordError e a).ovr = s.ovr := by
  unfold State.recordError; split <;> rfl
@[simp] theorem State.recordError_ie (s : State) (e : ErrCode) (a : Word) : (s.recordError e a).ie = s.ie := by
  unfold State.recordError; split <;> rfl
@[simp] theorem State.recordError_cmd (s : State) (e : ErrCode) (a : Word) : (s.recordError e a).cmd = s.cmd := by
  unfold State.recordError; split <;> rfl
@[simp] theorem State.recordError_regs (s : State) (e : ErrCode) (a : Word) : (s.recordError e a).regs = s.regs := by
  unfold State.recordError; split <;> rfl
@[simp] theorem State.recordError_mem (s : State) (e : ErrCode) (a : Word) : (s.recordError e a).mem = s.mem := by
  unfold State.recordError; split <;> rfl
@[simp] theorem State.recordError_resetIn (s : State) (e : ErrCode) (a : Word) : (s.recordError e a).resetIn = s.resetIn := by
  unfold State.recordError; split <;> rfl
@[simp] theorem State.recordError_moves (s : State) (e : ErrCode) (a : Word) : (s.recordError e a).moves = s.moves := by
  unfold State.recordError; split <;> rfl
@[simp] theorem State.recordError_rdata (s : State) (e : ErrCode) (a : Word) : (s.recordError e a).rdata = s.rdata := by
  unfold State.recordError; split <;> rfl
@[simp] theorem State.recordError_mdata (s : State) (e : ErrCode) (a : Word) : (s.recordError e a).mdata = s.mdata := by
  unfold State.recordError; split <;> rfl
@[simp] theorem State.recordError_engineStale (s : State) (e : ErrCode) (a : Word) : (s.recordError e a).engineStale = s.engineStale := by
  unfold State.recordError; split <;> rfl
@[simp] theorem State.recordError_hostStale (s : State) (e : ErrCode) (a : Word) : (s.recordError e a).hostStale = s.hostStale := by
  unfold State.recordError; split <;> rfl
@[simp] theorem State.recordError_inFlight (s : State) (e : ErrCode) (a : Word) : (s.recordError e a).inFlight = s.inFlight := by
  unfold State.recordError; split <;> rfl
@[simp] theorem State.recordError_tick (s : State) (e : ErrCode) (a : Word) : (s.recordError e a).tick = s.tick := by
  unfold State.recordError; split <;> rfl

/-! Completion with an error. -/

@[simp] theorem State.completeError_params (s : State) (e : ErrCode) (a : Word) :
    (s.completeError e a).params = s.params := by simp [State.completeError]
@[simp] theorem State.completeError_s0 (s : State) (e : ErrCode) (a : Word) :
    (s.completeError e a).s0 = s.s0 := by simp [State.completeError]
@[simp] theorem State.completeError_s1 (s : State) (e : ErrCode) (a : Word) :
    (s.completeError e a).s1 = s.s1 := by simp [State.completeError]
@[simp] theorem State.completeError_phase (s : State) (e : ErrCode) (a : Word) :
    (s.completeError e a).phase = s.phase := by simp [State.completeError]
@[simp] theorem State.completeError_eng (s : State) (e : ErrCode) (a : Word) :
    (s.completeError e a).eng = .idle := by simp [State.completeError]
@[simp] theorem State.completeError_prog (s : State) (e : ErrCode) (a : Word) :
    (s.completeError e a).prog = Progress.start := by simp [State.completeError]
@[simp] theorem State.completeError_done (s : State) (e : ErrCode) (a : Word) :
    (s.completeError e a).done = true := by simp [State.completeError]
@[simp] theorem State.completeError_err (s : State) (e : ErrCode) (a : Word) :
    (s.completeError e a).err = true := by simp [State.completeError]
@[simp] theorem State.completeError_ovr (s : State) (e : ErrCode) (a : Word) :
    (s.completeError e a).ovr = s.ovr := by simp [State.completeError]
@[simp] theorem State.completeError_errCode (s : State) (e : ErrCode) (a : Word) :
    (s.completeError e a).errCode = (if s.err then s.errCode else e) := by simp [State.completeError]
@[simp] theorem State.completeError_errAddr (s : State) (e : ErrCode) (a : Word) :
    (s.completeError e a).errAddr = (if s.err then s.errAddr else if e.hasAddr then a else 0) := by simp [State.completeError]
@[simp] theorem State.completeError_ie (s : State) (e : ErrCode) (a : Word) :
    (s.completeError e a).ie = s.ie := by simp [State.completeError]
@[simp] theorem State.completeError_cmd (s : State) (e : ErrCode) (a : Word) :
    (s.completeError e a).cmd = s.cmd := by simp [State.completeError]
@[simp] theorem State.completeError_regs (s : State) (e : ErrCode) (a : Word) :
    (s.completeError e a).regs = s.regs := by simp [State.completeError]
@[simp] theorem State.completeError_mem (s : State) (e : ErrCode) (a : Word) :
    (s.completeError e a).mem = s.mem := by simp [State.completeError]
@[simp] theorem State.completeError_resetIn (s : State) (e : ErrCode) (a : Word) :
    (s.completeError e a).resetIn = s.resetIn := by simp [State.completeError]
@[simp] theorem State.completeError_moves (s : State) (e : ErrCode) (a : Word) :
    (s.completeError e a).moves = s.moves := by simp [State.completeError]
@[simp] theorem State.completeError_rdata (s : State) (e : ErrCode) (a : Word) :
    (s.completeError e a).rdata = s.rdata := by simp [State.completeError]
@[simp] theorem State.completeError_mdata (s : State) (e : ErrCode) (a : Word) :
    (s.completeError e a).mdata = s.mdata := by simp [State.completeError]
@[simp] theorem State.completeError_engineStale (s : State) (e : ErrCode) (a : Word) :
    (s.completeError e a).engineStale = s.engineStale := by simp [State.completeError]
@[simp] theorem State.completeError_hostStale (s : State) (e : ErrCode) (a : Word) :
    (s.completeError e a).hostStale = s.hostStale := by simp [State.completeError]
@[simp] theorem State.completeError_inFlight (s : State) (e : ErrCode) (a : Word) :
    (s.completeError e a).inFlight = s.inFlight := by simp [State.completeError]
@[simp] theorem State.completeError_tick (s : State) (e : ErrCode) (a : Word) :
    (s.completeError e a).tick = s.tick + 1 := by simp [State.completeError]

/-- Completion with an error, as one record. -/
theorem State.completeError_eq (s : State) (e : ErrCode) (a : Word) :
    s.completeError e a =
      { s with
        eng := .idle, prog := Progress.start, done := true, err := true, errCode := if s.err then s.errCode else e
        errAddr := if s.err then s.errAddr else if e.hasAddr then a else 0, tick := s.tick + 1 } := by
  unfold State.completeError State.recordError State.complete
  by_cases h : s.err = true <;> simp [h]

/-! The writes of a command change the DMA space and what may still be seen of its old bytes, nothing else. -/

@[simp] theorem State.landWrite_params (how : Landing) (s : State) (w : DmaWrite) : (State.landWrite how s w).params = s.params := by
  unfold State.landWrite; split <;> rfl
@[simp] theorem State.landWrite_s0 (how : Landing) (s : State) (w : DmaWrite) : (State.landWrite how s w).s0 = s.s0 := by
  unfold State.landWrite; split <;> rfl
@[simp] theorem State.landWrite_s1 (how : Landing) (s : State) (w : DmaWrite) : (State.landWrite how s w).s1 = s.s1 := by
  unfold State.landWrite; split <;> rfl
@[simp] theorem State.landWrite_phase (how : Landing) (s : State) (w : DmaWrite) : (State.landWrite how s w).phase = s.phase := by
  unfold State.landWrite; split <;> rfl
@[simp] theorem State.landWrite_eng (how : Landing) (s : State) (w : DmaWrite) : (State.landWrite how s w).eng = s.eng := by
  unfold State.landWrite; split <;> rfl
@[simp] theorem State.landWrite_prog (how : Landing) (s : State) (w : DmaWrite) : (State.landWrite how s w).prog = s.prog := by
  unfold State.landWrite; split <;> rfl
@[simp] theorem State.landWrite_done (how : Landing) (s : State) (w : DmaWrite) : (State.landWrite how s w).done = s.done := by
  unfold State.landWrite; split <;> rfl
@[simp] theorem State.landWrite_err (how : Landing) (s : State) (w : DmaWrite) : (State.landWrite how s w).err = s.err := by
  unfold State.landWrite; split <;> rfl
@[simp] theorem State.landWrite_ovr (how : Landing) (s : State) (w : DmaWrite) : (State.landWrite how s w).ovr = s.ovr := by
  unfold State.landWrite; split <;> rfl
@[simp] theorem State.landWrite_errCode (how : Landing) (s : State) (w : DmaWrite) : (State.landWrite how s w).errCode = s.errCode := by
  unfold State.landWrite; split <;> rfl
@[simp] theorem State.landWrite_errAddr (how : Landing) (s : State) (w : DmaWrite) : (State.landWrite how s w).errAddr = s.errAddr := by
  unfold State.landWrite; split <;> rfl
@[simp] theorem State.landWrite_ie (how : Landing) (s : State) (w : DmaWrite) : (State.landWrite how s w).ie = s.ie := by
  unfold State.landWrite; split <;> rfl
@[simp] theorem State.landWrite_cmd (how : Landing) (s : State) (w : DmaWrite) : (State.landWrite how s w).cmd = s.cmd := by
  unfold State.landWrite; split <;> rfl
@[simp] theorem State.landWrite_regs (how : Landing) (s : State) (w : DmaWrite) : (State.landWrite how s w).regs = s.regs := by
  unfold State.landWrite; split <;> rfl
@[simp] theorem State.landWrite_resetIn (how : Landing) (s : State) (w : DmaWrite) : (State.landWrite how s w).resetIn = s.resetIn := by
  unfold State.landWrite; split <;> rfl
@[simp] theorem State.landWrite_moves (how : Landing) (s : State) (w : DmaWrite) : (State.landWrite how s w).moves = s.moves := by
  unfold State.landWrite; split <;> rfl
@[simp] theorem State.landWrite_rdata (how : Landing) (s : State) (w : DmaWrite) : (State.landWrite how s w).rdata = s.rdata := by
  unfold State.landWrite; split <;> rfl
@[simp] theorem State.landWrite_mdata (how : Landing) (s : State) (w : DmaWrite) : (State.landWrite how s w).mdata = s.mdata := by
  unfold State.landWrite; split <;> rfl
@[simp] theorem State.landWrite_inFlight (how : Landing) (s : State) (w : DmaWrite) : (State.landWrite how s w).inFlight = s.inFlight := by
  unfold State.landWrite; split <;> rfl
@[simp] theorem State.landWrite_tick (how : Landing) (s : State) (w : DmaWrite) : (State.landWrite how s w).tick = s.tick := by
  unfold State.landWrite; split <;> rfl

@[simp] theorem State.landWrites_params (how : Landing) (s : State) (ws : List DmaWrite) :
    (s.landWrites how ws).params = s.params := by
  unfold State.landWrites; induction ws generalizing s with
  | nil => rfl
  | cons w ws ih => simpa using ih (State.landWrite how s w)
@[simp] theorem State.landWrites_s0 (how : Landing) (s : State) (ws : List DmaWrite) :
    (s.landWrites how ws).s0 = s.s0 := by
  unfold State.landWrites; induction ws generalizing s with
  | nil => rfl
  | cons w ws ih => simpa using ih (State.landWrite how s w)
@[simp] theorem State.landWrites_s1 (how : Landing) (s : State) (ws : List DmaWrite) :
    (s.landWrites how ws).s1 = s.s1 := by
  unfold State.landWrites; induction ws generalizing s with
  | nil => rfl
  | cons w ws ih => simpa using ih (State.landWrite how s w)
@[simp] theorem State.landWrites_phase (how : Landing) (s : State) (ws : List DmaWrite) :
    (s.landWrites how ws).phase = s.phase := by
  unfold State.landWrites; induction ws generalizing s with
  | nil => rfl
  | cons w ws ih => simpa using ih (State.landWrite how s w)
@[simp] theorem State.landWrites_eng (how : Landing) (s : State) (ws : List DmaWrite) :
    (s.landWrites how ws).eng = s.eng := by
  unfold State.landWrites; induction ws generalizing s with
  | nil => rfl
  | cons w ws ih => simpa using ih (State.landWrite how s w)
@[simp] theorem State.landWrites_prog (how : Landing) (s : State) (ws : List DmaWrite) :
    (s.landWrites how ws).prog = s.prog := by
  unfold State.landWrites; induction ws generalizing s with
  | nil => rfl
  | cons w ws ih => simpa using ih (State.landWrite how s w)
@[simp] theorem State.landWrites_done (how : Landing) (s : State) (ws : List DmaWrite) :
    (s.landWrites how ws).done = s.done := by
  unfold State.landWrites; induction ws generalizing s with
  | nil => rfl
  | cons w ws ih => simpa using ih (State.landWrite how s w)
@[simp] theorem State.landWrites_err (how : Landing) (s : State) (ws : List DmaWrite) :
    (s.landWrites how ws).err = s.err := by
  unfold State.landWrites; induction ws generalizing s with
  | nil => rfl
  | cons w ws ih => simpa using ih (State.landWrite how s w)
@[simp] theorem State.landWrites_ovr (how : Landing) (s : State) (ws : List DmaWrite) :
    (s.landWrites how ws).ovr = s.ovr := by
  unfold State.landWrites; induction ws generalizing s with
  | nil => rfl
  | cons w ws ih => simpa using ih (State.landWrite how s w)
@[simp] theorem State.landWrites_errCode (how : Landing) (s : State) (ws : List DmaWrite) :
    (s.landWrites how ws).errCode = s.errCode := by
  unfold State.landWrites; induction ws generalizing s with
  | nil => rfl
  | cons w ws ih => simpa using ih (State.landWrite how s w)
@[simp] theorem State.landWrites_errAddr (how : Landing) (s : State) (ws : List DmaWrite) :
    (s.landWrites how ws).errAddr = s.errAddr := by
  unfold State.landWrites; induction ws generalizing s with
  | nil => rfl
  | cons w ws ih => simpa using ih (State.landWrite how s w)
@[simp] theorem State.landWrites_ie (how : Landing) (s : State) (ws : List DmaWrite) :
    (s.landWrites how ws).ie = s.ie := by
  unfold State.landWrites; induction ws generalizing s with
  | nil => rfl
  | cons w ws ih => simpa using ih (State.landWrite how s w)
@[simp] theorem State.landWrites_cmd (how : Landing) (s : State) (ws : List DmaWrite) :
    (s.landWrites how ws).cmd = s.cmd := by
  unfold State.landWrites; induction ws generalizing s with
  | nil => rfl
  | cons w ws ih => simpa using ih (State.landWrite how s w)
@[simp] theorem State.landWrites_regs (how : Landing) (s : State) (ws : List DmaWrite) :
    (s.landWrites how ws).regs = s.regs := by
  unfold State.landWrites; induction ws generalizing s with
  | nil => rfl
  | cons w ws ih => simpa using ih (State.landWrite how s w)
@[simp] theorem State.landWrites_resetIn (how : Landing) (s : State) (ws : List DmaWrite) :
    (s.landWrites how ws).resetIn = s.resetIn := by
  unfold State.landWrites; induction ws generalizing s with
  | nil => rfl
  | cons w ws ih => simpa using ih (State.landWrite how s w)
@[simp] theorem State.landWrites_moves (how : Landing) (s : State) (ws : List DmaWrite) :
    (s.landWrites how ws).moves = s.moves := by
  unfold State.landWrites; induction ws generalizing s with
  | nil => rfl
  | cons w ws ih => simpa using ih (State.landWrite how s w)
@[simp] theorem State.landWrites_rdata (how : Landing) (s : State) (ws : List DmaWrite) :
    (s.landWrites how ws).rdata = s.rdata := by
  unfold State.landWrites; induction ws generalizing s with
  | nil => rfl
  | cons w ws ih => simpa using ih (State.landWrite how s w)
@[simp] theorem State.landWrites_mdata (how : Landing) (s : State) (ws : List DmaWrite) :
    (s.landWrites how ws).mdata = s.mdata := by
  unfold State.landWrites; induction ws generalizing s with
  | nil => rfl
  | cons w ws ih => simpa using ih (State.landWrite how s w)
@[simp] theorem State.landWrites_inFlight (how : Landing) (s : State) (ws : List DmaWrite) :
    (s.landWrites how ws).inFlight = s.inFlight := by
  unfold State.landWrites; induction ws generalizing s with
  | nil => rfl
  | cons w ws ih => simpa using ih (State.landWrite how s w)
@[simp] theorem State.landWrites_tick (how : Landing) (s : State) (ws : List DmaWrite) :
    (s.landWrites how ws).tick = s.tick := by
  unfold State.landWrites; induction ws generalizing s with
  | nil => rfl
  | cons w ws ih => simpa using ih (State.landWrite how s w)

/-- The writes of a command, as one record. -/
theorem State.landWrites_eq (how : Landing) (s : State) (ws : List DmaWrite) :
    s.landWrites how ws =
      { s with
        mem := (s.landWrites how ws).mem, hostStale := (s.landWrites how ws).hostStale
        engineStale := (s.landWrites how ws).engineStale } := by
  apply State.ext <;> simp

/-! What a running command has done by now: a read changes only what is recorded of it. -/

@[simp] theorem State.mayRead_params (s : State) (as : List Nat) : (s.mayRead as).params = s.params := by
  unfold State.mayRead; split <;> rfl
@[simp] theorem State.mayRead_s0 (s : State) (as : List Nat) : (s.mayRead as).s0 = s.s0 := by
  unfold State.mayRead; split <;> rfl
@[simp] theorem State.mayRead_s1 (s : State) (as : List Nat) : (s.mayRead as).s1 = s.s1 := by
  unfold State.mayRead; split <;> rfl
@[simp] theorem State.mayRead_phase (s : State) (as : List Nat) : (s.mayRead as).phase = s.phase := by
  unfold State.mayRead; split <;> rfl
@[simp] theorem State.mayRead_eng (s : State) (as : List Nat) : (s.mayRead as).eng = s.eng := by
  unfold State.mayRead; split <;> rfl
@[simp] theorem State.mayRead_done (s : State) (as : List Nat) : (s.mayRead as).done = s.done := by
  unfold State.mayRead; split <;> rfl
@[simp] theorem State.mayRead_err (s : State) (as : List Nat) : (s.mayRead as).err = s.err := by
  unfold State.mayRead; split <;> rfl
@[simp] theorem State.mayRead_ovr (s : State) (as : List Nat) : (s.mayRead as).ovr = s.ovr := by
  unfold State.mayRead; split <;> rfl
@[simp] theorem State.mayRead_errCode (s : State) (as : List Nat) : (s.mayRead as).errCode = s.errCode := by
  unfold State.mayRead; split <;> rfl
@[simp] theorem State.mayRead_errAddr (s : State) (as : List Nat) : (s.mayRead as).errAddr = s.errAddr := by
  unfold State.mayRead; split <;> rfl
@[simp] theorem State.mayRead_ie (s : State) (as : List Nat) : (s.mayRead as).ie = s.ie := by
  unfold State.mayRead; split <;> rfl
@[simp] theorem State.mayRead_cmd (s : State) (as : List Nat) : (s.mayRead as).cmd = s.cmd := by
  unfold State.mayRead; split <;> rfl
@[simp] theorem State.mayRead_regs (s : State) (as : List Nat) : (s.mayRead as).regs = s.regs := by
  unfold State.mayRead; split <;> rfl
@[simp] theorem State.mayRead_mem (s : State) (as : List Nat) : (s.mayRead as).mem = s.mem := by
  unfold State.mayRead; split <;> rfl
@[simp] theorem State.mayRead_resetIn (s : State) (as : List Nat) : (s.mayRead as).resetIn = s.resetIn := by
  unfold State.mayRead; split <;> rfl
@[simp] theorem State.mayRead_moves (s : State) (as : List Nat) : (s.mayRead as).moves = s.moves := by
  unfold State.mayRead; split <;> rfl
@[simp] theorem State.mayRead_rdata (s : State) (as : List Nat) : (s.mayRead as).rdata = s.rdata := by
  unfold State.mayRead; split <;> rfl
@[simp] theorem State.mayRead_mdata (s : State) (as : List Nat) : (s.mayRead as).mdata = s.mdata := by
  unfold State.mayRead; split <;> rfl
@[simp] theorem State.mayRead_engineStale (s : State) (as : List Nat) : (s.mayRead as).engineStale = s.engineStale := by
  unfold State.mayRead; split <;> rfl
@[simp] theorem State.mayRead_hostStale (s : State) (as : List Nat) : (s.mayRead as).hostStale = s.hostStale := by
  unfold State.mayRead; split <;> rfl
@[simp] theorem State.mayRead_inFlight (s : State) (as : List Nat) : (s.mayRead as).inFlight = s.inFlight := by
  unfold State.mayRead; split <;> rfl
@[simp] theorem State.mayRead_tick (s : State) (as : List Nat) : (s.mayRead as).tick = s.tick := by
  unfold State.mayRead; split <;> rfl

/-! A write changes the DMA space and the record as well. -/

@[simp] theorem State.mayWrite_params (s : State) (a : Nat) : (s.mayWrite a).params = s.params := by
  unfold State.mayWrite; split <;> simp
@[simp] theorem State.mayWrite_s0 (s : State) (a : Nat) : (s.mayWrite a).s0 = s.s0 := by
  unfold State.mayWrite; split <;> simp
@[simp] theorem State.mayWrite_s1 (s : State) (a : Nat) : (s.mayWrite a).s1 = s.s1 := by
  unfold State.mayWrite; split <;> simp
@[simp] theorem State.mayWrite_phase (s : State) (a : Nat) : (s.mayWrite a).phase = s.phase := by
  unfold State.mayWrite; split <;> simp
@[simp] theorem State.mayWrite_eng (s : State) (a : Nat) : (s.mayWrite a).eng = s.eng := by
  unfold State.mayWrite; split <;> simp
@[simp] theorem State.mayWrite_done (s : State) (a : Nat) : (s.mayWrite a).done = s.done := by
  unfold State.mayWrite; split <;> simp
@[simp] theorem State.mayWrite_err (s : State) (a : Nat) : (s.mayWrite a).err = s.err := by
  unfold State.mayWrite; split <;> simp
@[simp] theorem State.mayWrite_ovr (s : State) (a : Nat) : (s.mayWrite a).ovr = s.ovr := by
  unfold State.mayWrite; split <;> simp
@[simp] theorem State.mayWrite_errCode (s : State) (a : Nat) : (s.mayWrite a).errCode = s.errCode := by
  unfold State.mayWrite; split <;> simp
@[simp] theorem State.mayWrite_errAddr (s : State) (a : Nat) : (s.mayWrite a).errAddr = s.errAddr := by
  unfold State.mayWrite; split <;> simp
@[simp] theorem State.mayWrite_ie (s : State) (a : Nat) : (s.mayWrite a).ie = s.ie := by
  unfold State.mayWrite; split <;> simp
@[simp] theorem State.mayWrite_cmd (s : State) (a : Nat) : (s.mayWrite a).cmd = s.cmd := by
  unfold State.mayWrite; split <;> simp
@[simp] theorem State.mayWrite_regs (s : State) (a : Nat) : (s.mayWrite a).regs = s.regs := by
  unfold State.mayWrite; split <;> simp
@[simp] theorem State.mayWrite_resetIn (s : State) (a : Nat) : (s.mayWrite a).resetIn = s.resetIn := by
  unfold State.mayWrite; split <;> simp
@[simp] theorem State.mayWrite_moves (s : State) (a : Nat) : (s.mayWrite a).moves = s.moves := by
  unfold State.mayWrite; split <;> simp
@[simp] theorem State.mayWrite_rdata (s : State) (a : Nat) : (s.mayWrite a).rdata = s.rdata := by
  unfold State.mayWrite; split <;> simp
@[simp] theorem State.mayWrite_mdata (s : State) (a : Nat) : (s.mayWrite a).mdata = s.mdata := by
  unfold State.mayWrite; split <;> simp
@[simp] theorem State.mayWrite_inFlight (s : State) (a : Nat) : (s.mayWrite a).inFlight = s.inFlight := by
  unfold State.mayWrite; split <;> simp
@[simp] theorem State.mayWrite_tick (s : State) (a : Nat) : (s.mayWrite a).tick = s.tick := by
  unfold State.mayWrite; split <;> simp

/-! The host's byte in the DMA space. -/
@[simp] theorem State.hostPut_params (s : State) (a : Nat) (b : Byte) : (s.hostPut a b).params = s.params := rfl
@[simp] theorem State.hostPut_s0 (s : State) (a : Nat) (b : Byte) : (s.hostPut a b).s0 = s.s0 := rfl
@[simp] theorem State.hostPut_s1 (s : State) (a : Nat) (b : Byte) : (s.hostPut a b).s1 = s.s1 := rfl
@[simp] theorem State.hostPut_phase (s : State) (a : Nat) (b : Byte) : (s.hostPut a b).phase = s.phase := rfl
@[simp] theorem State.hostPut_eng (s : State) (a : Nat) (b : Byte) : (s.hostPut a b).eng = s.eng := rfl
@[simp] theorem State.hostPut_prog (s : State) (a : Nat) (b : Byte) : (s.hostPut a b).prog = s.prog := rfl
@[simp] theorem State.hostPut_done (s : State) (a : Nat) (b : Byte) : (s.hostPut a b).done = s.done := rfl
@[simp] theorem State.hostPut_err (s : State) (a : Nat) (b : Byte) : (s.hostPut a b).err = s.err := rfl
@[simp] theorem State.hostPut_ovr (s : State) (a : Nat) (b : Byte) : (s.hostPut a b).ovr = s.ovr := rfl
@[simp] theorem State.hostPut_errCode (s : State) (a : Nat) (b : Byte) : (s.hostPut a b).errCode = s.errCode := rfl
@[simp] theorem State.hostPut_errAddr (s : State) (a : Nat) (b : Byte) : (s.hostPut a b).errAddr = s.errAddr := rfl
@[simp] theorem State.hostPut_ie (s : State) (a : Nat) (b : Byte) : (s.hostPut a b).ie = s.ie := rfl
@[simp] theorem State.hostPut_cmd (s : State) (a : Nat) (b : Byte) : (s.hostPut a b).cmd = s.cmd := rfl
@[simp] theorem State.hostPut_regs (s : State) (a : Nat) (b : Byte) : (s.hostPut a b).regs = s.regs := rfl
@[simp] theorem State.hostPut_mem (s : State) (a : Nat) (b : Byte) : (s.hostPut a b).mem = s.mem.write a b := rfl
@[simp] theorem State.hostPut_resetIn (s : State) (a : Nat) (b : Byte) : (s.hostPut a b).resetIn = s.resetIn := rfl
@[simp] theorem State.hostPut_moves (s : State) (a : Nat) (b : Byte) : (s.hostPut a b).moves = s.moves := rfl
@[simp] theorem State.hostPut_rdata (s : State) (a : Nat) (b : Byte) : (s.hostPut a b).rdata = s.rdata := rfl
@[simp] theorem State.hostPut_mdata (s : State) (a : Nat) (b : Byte) : (s.hostPut a b).mdata = s.mdata := rfl
@[simp] theorem State.hostPut_engineStale (s : State) (a : Nat) (b : Byte) : (s.hostPut a b).engineStale = (if s.params.dmaCoherent then s.engineStale
    else (a, s.mem.read a) :: s.engineStale) := rfl
@[simp] theorem State.hostPut_hostStale (s : State) (a : Nat) (b : Byte) : (s.hostPut a b).hostStale = s.hostStale.filter (fun c => !(c.1 == a)) := rfl
@[simp] theorem State.hostPut_inFlight (s : State) (a : Nat) (b : Byte) : (s.hostPut a b).inFlight = s.inFlight := rfl
@[simp] theorem State.hostPut_tick (s : State) (a : Nat) (b : Byte) : (s.hostPut a b).tick = s.tick + 1 := rfl

/-! The host's load. -/
@[simp] theorem State.hostGet_params (s : State) (a : Nat) : (s.hostGet a).params = s.params := rfl
@[simp] theorem State.hostGet_s0 (s : State) (a : Nat) : (s.hostGet a).s0 = s.s0 := rfl
@[simp] theorem State.hostGet_s1 (s : State) (a : Nat) : (s.hostGet a).s1 = s.s1 := rfl
@[simp] theorem State.hostGet_phase (s : State) (a : Nat) : (s.hostGet a).phase = s.phase := rfl
@[simp] theorem State.hostGet_eng (s : State) (a : Nat) : (s.hostGet a).eng = s.eng := rfl
@[simp] theorem State.hostGet_prog (s : State) (a : Nat) : (s.hostGet a).prog = s.prog := rfl
@[simp] theorem State.hostGet_done (s : State) (a : Nat) : (s.hostGet a).done = s.done := rfl
@[simp] theorem State.hostGet_err (s : State) (a : Nat) : (s.hostGet a).err = s.err := rfl
@[simp] theorem State.hostGet_ovr (s : State) (a : Nat) : (s.hostGet a).ovr = s.ovr := rfl
@[simp] theorem State.hostGet_errCode (s : State) (a : Nat) : (s.hostGet a).errCode = s.errCode := rfl
@[simp] theorem State.hostGet_errAddr (s : State) (a : Nat) : (s.hostGet a).errAddr = s.errAddr := rfl
@[simp] theorem State.hostGet_ie (s : State) (a : Nat) : (s.hostGet a).ie = s.ie := rfl
@[simp] theorem State.hostGet_cmd (s : State) (a : Nat) : (s.hostGet a).cmd = s.cmd := rfl
@[simp] theorem State.hostGet_regs (s : State) (a : Nat) : (s.hostGet a).regs = s.regs := rfl
@[simp] theorem State.hostGet_mem (s : State) (a : Nat) : (s.hostGet a).mem = s.mem := rfl
@[simp] theorem State.hostGet_resetIn (s : State) (a : Nat) : (s.hostGet a).resetIn = s.resetIn := rfl
@[simp] theorem State.hostGet_moves (s : State) (a : Nat) : (s.hostGet a).moves = s.moves := rfl
@[simp] theorem State.hostGet_rdata (s : State) (a : Nat) : (s.hostGet a).rdata = s.rdata := rfl
@[simp] theorem State.hostGet_mdata (s : State) (a : Nat) : (s.hostGet a).mdata = 
    pickByte (s.mem.read a) (s.hostSees a) (Config.freePick s.tick .hostRead .a a) := rfl
@[simp] theorem State.hostGet_engineStale (s : State) (a : Nat) : (s.hostGet a).engineStale = s.engineStale := rfl
@[simp] theorem State.hostGet_hostStale (s : State) (a : Nat) : (s.hostGet a).hostStale = s.hostStale := rfl
@[simp] theorem State.hostGet_inFlight (s : State) (a : Nat) : (s.hostGet a).inFlight = s.inFlight := rfl
@[simp] theorem State.hostGet_tick (s : State) (a : Nat) : (s.hostGet a).tick = s.tick + 1 := rfl

/-! Cleaning a span. -/
@[simp] theorem State.dropStale_params (s : State) (sp : Span) : (s.dropStale sp).params = s.params := rfl
@[simp] theorem State.dropStale_s0 (s : State) (sp : Span) : (s.dropStale sp).s0 = s.s0 := rfl
@[simp] theorem State.dropStale_s1 (s : State) (sp : Span) : (s.dropStale sp).s1 = s.s1 := rfl
@[simp] theorem State.dropStale_phase (s : State) (sp : Span) : (s.dropStale sp).phase = s.phase := rfl
@[simp] theorem State.dropStale_eng (s : State) (sp : Span) : (s.dropStale sp).eng = s.eng := rfl
@[simp] theorem State.dropStale_prog (s : State) (sp : Span) : (s.dropStale sp).prog = s.prog := rfl
@[simp] theorem State.dropStale_done (s : State) (sp : Span) : (s.dropStale sp).done = s.done := rfl
@[simp] theorem State.dropStale_err (s : State) (sp : Span) : (s.dropStale sp).err = s.err := rfl
@[simp] theorem State.dropStale_ovr (s : State) (sp : Span) : (s.dropStale sp).ovr = s.ovr := rfl
@[simp] theorem State.dropStale_errCode (s : State) (sp : Span) : (s.dropStale sp).errCode = s.errCode := rfl
@[simp] theorem State.dropStale_errAddr (s : State) (sp : Span) : (s.dropStale sp).errAddr = s.errAddr := rfl
@[simp] theorem State.dropStale_ie (s : State) (sp : Span) : (s.dropStale sp).ie = s.ie := rfl
@[simp] theorem State.dropStale_cmd (s : State) (sp : Span) : (s.dropStale sp).cmd = s.cmd := rfl
@[simp] theorem State.dropStale_regs (s : State) (sp : Span) : (s.dropStale sp).regs = s.regs := rfl
@[simp] theorem State.dropStale_mem (s : State) (sp : Span) : (s.dropStale sp).mem = s.mem := rfl
@[simp] theorem State.dropStale_resetIn (s : State) (sp : Span) : (s.dropStale sp).resetIn = s.resetIn := rfl
@[simp] theorem State.dropStale_moves (s : State) (sp : Span) : (s.dropStale sp).moves = s.moves := rfl
@[simp] theorem State.dropStale_rdata (s : State) (sp : Span) : (s.dropStale sp).rdata = s.rdata := rfl
@[simp] theorem State.dropStale_mdata (s : State) (sp : Span) : (s.dropStale sp).mdata = s.mdata := rfl
@[simp] theorem State.dropStale_engineStale (s : State) (sp : Span) : (s.dropStale sp).engineStale = s.engineStale.filter (fun c => !spanHolds sp c.1) := rfl
@[simp] theorem State.dropStale_hostStale (s : State) (sp : Span) : (s.dropStale sp).hostStale = s.hostStale := rfl
@[simp] theorem State.dropStale_inFlight (s : State) (sp : Span) : (s.dropStale sp).inFlight = s.inFlight := rfl
@[simp] theorem State.dropStale_tick (s : State) (sp : Span) : (s.dropStale sp).tick = s.tick + 1 := rfl

/-! A poll of a wait. -/
@[simp] theorem State.poll_params (s : State) : (s.poll).params = s.params := rfl
@[simp] theorem State.poll_s0 (s : State) : (s.poll).s0 = s.s0 := rfl
@[simp] theorem State.poll_s1 (s : State) : (s.poll).s1 = s.s1 := rfl
@[simp] theorem State.poll_phase (s : State) : (s.poll).phase = s.phase := rfl
@[simp] theorem State.poll_eng (s : State) : (s.poll).eng = s.eng := rfl
@[simp] theorem State.poll_prog (s : State) : (s.poll).prog = s.prog := rfl
@[simp] theorem State.poll_done (s : State) : (s.poll).done = s.done := rfl
@[simp] theorem State.poll_err (s : State) : (s.poll).err = s.err := rfl
@[simp] theorem State.poll_ovr (s : State) : (s.poll).ovr = s.ovr := rfl
@[simp] theorem State.poll_errCode (s : State) : (s.poll).errCode = s.errCode := rfl
@[simp] theorem State.poll_errAddr (s : State) : (s.poll).errAddr = s.errAddr := rfl
@[simp] theorem State.poll_ie (s : State) : (s.poll).ie = s.ie := rfl
@[simp] theorem State.poll_cmd (s : State) : (s.poll).cmd = s.cmd := rfl
@[simp] theorem State.poll_regs (s : State) : (s.poll).regs = s.regs := rfl
@[simp] theorem State.poll_mem (s : State) : (s.poll).mem = s.mem := rfl
@[simp] theorem State.poll_resetIn (s : State) : (s.poll).resetIn = s.resetIn := rfl
@[simp] theorem State.poll_moves (s : State) : (s.poll).moves = (if s.busy then .engine :: .awaitIdle :: s.moves else s.moves) := rfl
@[simp] theorem State.poll_rdata (s : State) : (s.poll).rdata = s.statusWord := rfl
@[simp] theorem State.poll_mdata (s : State) : (s.poll).mdata = s.mdata := rfl
@[simp] theorem State.poll_engineStale (s : State) : (s.poll).engineStale = s.engineStale := rfl
@[simp] theorem State.poll_hostStale (s : State) : (s.poll).hostStale = s.hostStale := rfl
@[simp] theorem State.poll_inFlight (s : State) : (s.poll).inFlight = s.inFlight := rfl
@[simp] theorem State.poll_tick (s : State) : (s.poll).tick = s.tick := rfl

end Sys2Proof.Machine
end

