-- ==== Sys2Proof/Laws/Ops.lean ====
section
/-! SUPPORT. What the shared operations can do, said once for each: landing writes, the bus, a failed and a finished job,
and the engine step of a command (43_register_access.md R227; 60_exceptions.md R242 to R252). -/

namespace Sys2Proof.Machine

/-- Every meaning is the run of its job. -/
theorem exec_eq_runJob (i : Instr) (s : State) : exec i s = runJob (jobOf i s.operands) s := by cases i <;> rfl

@[simp] theorem jobOf_x2 (i : Instr) (o : Operands) : (jobOf i o).x2 = i.x2 := by cases i <;> rfl

/-- A job writes as many bytes as its range holds. -/
theorem jobOf_length (i : Instr) (o : Operands) (L : Lanes) (msg : List Byte) :
    ((jobOf i o).work L msg).2.length = (jobOf i o).dstLen := by
  cases i <;> simp [jobOf, zeroJob, permuteJob, absorbJob, squeezeJob, hashJob]

/-! The operands depend on the engine and the registers alone. -/

@[simp] theorem operands_of_idle {s : State} (h : s.eng = .idle) : s.operands = s.regs := by simp [State.operands, h]

@[simp] theorem operands_of_busy {s : State} {c : Word} {ops : Operands} (h : s.eng = .busy c ops) : s.operands = ops := by
  simp [State.operands, h]

theorem operands_congr {s t : State} (he : s.eng = t.eng) (hr : s.regs = t.regs) : s.operands = t.operands := by
  unfold State.operands; rw [he, hr]

@[simp] theorem operands_landWrites (how : Landing) (s : State) (ws : List DmaWrite) :
    (s.landWrites how ws).operands = s.operands := operands_congr (by simp) (by simp)

/-! Landing. -/

@[simp] theorem landWrites_nil (how : Landing) (s : State) : s.landWrites how [] = s := rfl

@[simp] theorem landWrites_cons (how : Landing) (s : State) (w : DmaWrite) (ws : List DmaWrite) :
    s.landWrites how (w :: ws) = (State.landWrite how s w).landWrites how ws := rfl

theorem landWrites_append (how : Landing) (s : State) (vs ws : List DmaWrite) :
    s.landWrites how (vs ++ ws) = (s.landWrites how vs).landWrites how ws := by
  simp [State.landWrites]

/-- A completed command has made every write. -/
@[simp] theorem makes_whole (s : State) (e : StreamId) (a : Nat) : s.makes .whole e a = true := rfl

/-- Whether a write is made and lands depends on nothing that landing writes changes. -/
@[simp] theorem makes_landWrite (how how' : Landing) (s : State) (v : DmaWrite) (e : StreamId) (a : Nat) :
    (State.landWrite how s v).makes how' e a = s.makes how' e a := by
  cases how' <;> simp [State.makes]

@[simp] theorem lands_landWrite (how how' : Landing) (s : State) (v w : DmaWrite) :
    (State.landWrite how s v).lands how' w = s.lands how' w := by
  simp [State.lands]

/-- A write that lands, of a command cut short, was admitted. -/
theorem admits_of_lands {s : State} {w : DmaWrite} (h : s.lands .cut w = true) : admits s.params w.addr .write = true := by
  simp only [State.lands, State.makes, Bool.and_eq_true] at h
  exact h.1.1

theorem landWrite_mem (how : Landing) (s : State) (w : DmaWrite) :
    (State.landWrite how s w).mem = if s.lands how w then s.mem.write w.addr w.byte else s.mem := by
  unfold State.landWrite; split <;> rfl

/-- Landing keeps the canonical form. -/
theorem landWrites_wf {how : Landing} {s : State} {ws : List DmaWrite} (h : s.mem.wf = true)
    (hw : ∀ w ∈ ws, w.addr < Memory.size) : (s.landWrites how ws).mem.wf = true := by
  induction ws generalizing s with
  | nil => exact h
  | cons w ws ih =>
    refine ih ?_ fun v hv => hw v (List.mem_cons_of_mem w hv)
    rw [landWrite_mem]
    split_ifs
    · exact Memory.wf_write _ h (hw w List.mem_cons_self)
    · exact h

/-- Every byte after landing is the byte before, or a byte that was written there. -/
theorem landWrites_read {how : Landing} {s : State} {ws : List DmaWrite} (h : s.mem.wf = true)
    (hw : ∀ w ∈ ws, w.addr < Memory.size) (x : Nat) :
    (s.landWrites how ws).mem.read x = s.mem.read x ∨
      ∃ w ∈ ws, w.addr = x ∧ s.lands how w = true ∧ (s.landWrites how ws).mem.read x = w.byte := by
  induction ws generalizing s with
  | nil => exact .inl rfl
  | cons w ws ih =>
    have hw1 : (State.landWrite how s w).mem.wf = true := by
      have := landWrites_wf (how := how) (ws := [w]) h fun v hv => hw v (by simp_all)
      simpa using this
    rcases ih hw1 fun v hv => hw v (List.mem_cons_of_mem w hv) with h1 | ⟨v, hv, hx, hl, hb⟩
    · rw [landWrites_cons, h1, landWrite_mem]
      split_ifs with hl
      · rw [Memory.read_write h]
        split_ifs with hx
        · exact .inr ⟨w, List.mem_cons_self, hx.symm, hl, rfl⟩
        · exact .inl rfl
      · exact .inl rfl
    · exact .inr ⟨v, List.mem_cons_of_mem w hv, hx, by simpa using hl, hb⟩

/-- Nothing outside the written addresses changes. -/
theorem landWrites_read_other {how : Landing} {s : State} {ws : List DmaWrite} (h : s.mem.wf = true)
    (hw : ∀ w ∈ ws, w.addr < Memory.size) {x : Nat} (hx : ∀ w ∈ ws, w.addr ≠ x) :
    (s.landWrites how ws).mem.read x = s.mem.read x := by
  rcases landWrites_read (how := how) h hw x with h1 | ⟨w, hm, he, -⟩
  · exact h1
  · exact absurd he (hx w hm)

/-- Where every write lands, landing is storing cells. -/
theorem landWrites_mem_of_lands {how : Landing} {s : State} {ws : List DmaWrite}
    (hl : ∀ w ∈ ws, s.lands how w = true) :
    (s.landWrites how ws).mem = s.mem.writeCells (ws.map fun w => (w.addr, w.byte)) := by
  induction ws generalizing s with
  | nil => rfl
  | cons w ws ih =>
    rw [landWrites_cons, ih fun v hv => by simpa using hl v (List.mem_cons_of_mem w hv), landWrite_mem,
      if_pos (hl w List.mem_cons_self)]
    rfl

/-- With coherence, landing leaves no old byte to be seen. -/
theorem landWrites_stale_of_coherent {how : Landing} {s : State} {ws : List DmaWrite}
    (hc : s.params.dmaCoherent = true) :
    (s.landWrites how ws).hostStale = s.hostStale ∧ (s.landWrites how ws).engineStale = s.engineStale := by
  induction ws generalizing s with
  | nil => exact ⟨rfl, rfl⟩
  | cons w ws ih =>
    have h := ih (s := State.landWrite how s w) (by simpa using hc)
    rw [landWrites_cons, h.1, h.2]
    unfold State.landWrite; split
    · simp [hc]
    · exact ⟨rfl, rfl⟩

/-- Landing takes replaced bytes away from the engine and adds none. -/
theorem mem_engineStale_landWrites {how : Landing} {s : State} {ws : List DmaWrite} {c : Host.Cell}
    (h : c ∈ (s.landWrites how ws).engineStale) : c ∈ s.engineStale := by
  induction ws generalizing s with
  | nil => exact h
  | cons w ws ih =>
    have h := ih h
    unfold State.landWrite at h
    split at h
    · rw [State.dmaStore_engineStale] at h
      split at h
      · exact h
      · exact (List.mem_filter.1 h).1
    · exact h

/-! The writes of a job. -/

theorem mem_writesFrom {e : StreamId} {f : Nat → Bool} {a : Nat} {bs : List Byte} {w : DmaWrite}
    (h : w ∈ writesFrom e f a bs) : ∃ k, ∃ hk : k < bs.length, w = ⟨e, a + k, bs[k], f (a + k)⟩ := by
  obtain ⟨c, hc, rfl⟩ := List.mem_map.1 h
  obtain ⟨k, hk, rfl⟩ := mem_cellsAt_getElem hc
  exact ⟨k, hk, rfl⟩

theorem writesFrom_cells (e : StreamId) (f : Nat → Bool) (a : Nat) (bs : List Byte) :
    (writesFrom e f a bs).map (fun w => (w.addr, w.byte)) = cellsAt a bs := by
  simp [writesFrom, Function.comp_def]

/-- The output of a command has the length of its destination range. -/
theorem length_result (i : Instr) (s : State) (e : StreamId) :
    ((jobOf i s.operands).result s e).2.length = (jobOf i s.operands).dstLen := jobOf_length i s.operands _ _

/-- A command writes in its destination ranges alone (20_memory.md R68). -/
theorem writes_inDst {i : Instr} {s : State} {w : DmaWrite} (h : w ∈ (jobOf i s.operands).writes s) :
    (jobOf i s.operands).inDst s.operands w.addr = true := by
  have key : ∀ e ∈ (jobOf i s.operands).streams, ∀ f,
      w ∈ writesFrom e f (s.operands.dst e) ((jobOf i s.operands).result s e).2 →
        (jobOf i s.operands).inDst s.operands w.addr = true := by
    intro e he f hm
    obtain ⟨k, hk, rfl⟩ := mem_writesFrom hm
    rw [length_result] at hk
    exact List.any_eq_true.2 ⟨e, he, by simp; omega⟩
  rcases List.mem_append.1 h with h | h
  · exact key .a (by unfold Job.streams; split <;> simp) _ h
  · by_cases hx : (jobOf i s.operands).x2 = true
    · rw [if_pos hx] at h
      exact key .b (by rw [Job.streams, if_pos hx]; simp) _ h
    · rw [if_neg hx] at h; simp at h

theorem mem_pending {j : Job} {s : State} {w : DmaWrite} :
    w ∈ j.pending s ↔ w ∈ j.writes s ∧ s.written w.stream w.addr = false := by simp [Job.pending]

/-- The writes a command has still to make, stream by stream. -/
theorem pending_eq (j : Job) (s : State) :
    j.pending s =
      (writesFrom .a (fun _ => false) (s.operands.dst .a) (j.result s .a).2).filter (fun w => !s.written .a w.addr) ++
      if j.x2 then
        (writesFrom .b (fun a => j.inDstA s.operands a && !s.written .a a) (s.operands.dst .b)
          (j.result s .b).2).filter (fun w => !s.written .b w.addr)
      else [] := by
  have key : ∀ e f a bs, (writesFrom e f a bs).filter (fun w => !s.written w.stream w.addr) =
      (writesFrom e f a bs).filter fun w => !s.written e w.addr := by
    intro e f a bs
    refine List.filter_congr fun w hw => ?_
    obtain ⟨k, hk, rfl⟩ := mem_writesFrom hw
    rfl
  rw [Job.pending, Job.writes, List.filter_append, key]
  split
  · rw [key]
  · rfl

theorem rangeBad_false {j : Job} {o : Operands} (h : j.rangeBad o = false) :
    ∀ e ∈ j.streams, o.src e + j.srcLen ≤ 2 ^ 64 ∧ o.dst e + j.dstLen ≤ 2 ^ 64 := by
  intro e he
  have := List.any_eq_false.1 h e he
  simp only [Bool.or_eq_true, decide_eq_true_eq, not_or, Nat.not_lt] at this
  exact this

theorem inDst_lt {j : Job} {o : Operands} (h : j.rangeBad o = false) {a : Nat} (ha : j.inDst o a = true) :
    a < Memory.size := by
  obtain ⟨e, he, hx⟩ := List.any_eq_true.1 ha
  have := (rangeBad_false h e he).2
  simp only [Bool.and_eq_true, decide_eq_true_eq] at hx
  have : Memory.size = 2 ^ 64 := rfl
  omega

/-- What check 5 is: some range ends past 2^64 (60_exceptions.md R242). -/
theorem rangeBad_iff {j : Job} {o : Operands} :
    j.rangeBad o = true ↔ ∃ e ∈ j.streams, 2 ^ 64 < o.src e + j.srcLen ∨ 2 ^ 64 < o.dst e + j.dstLen := by
  rw [Job.rangeBad, List.any_eq_true]; simp

theorem mem_streams {j : Job} {e : StreamId} : e ∈ j.streams ↔ e = .a ∨ (j.x2 = true ∧ e = .b) := by
  unfold Job.streams; split <;> cases e <;> simp_all

/-- The checks pass exactly when none of the four fails. -/
theorem check_none {j : Job} {p : Params} {ph : Phase} {o : Operands} :
    j.check p ph o = none ↔
      (j.x2 && !p.hasX2) = false ∧ j.rateBad = false ∧ j.seqBad ph = false ∧ j.rangeBad o = false := by
  unfold Job.check
  split_ifs <;> simp_all

/-- The error of a failed check is one of the four of checks 2 to 5. -/
theorem check_some {j : Job} {p : Params} {ph : Phase} {o : Operands} {e : ErrCode} (h : j.check p ph o = some e) :
    e = .noX2 ∨ e = .rate ∨ e = .seq ∨ e = .range := by
  unfold Job.check at h
  split_ifs at h <;> simp_all

/-! The bus. -/

theorem mem_refusedOf {p : Params} {k : AccessKind} {as : List Nat} {a : Nat} :
    a ∈ refusedOf p k as ↔ a ∈ as ∧ admits p a k = false := by simp [refusedOf]

theorem refusedOf_eq_nil {p : Params} {k : AccessKind} {as : List Nat} :
    refusedOf p k as = [] ↔ ∀ a ∈ as, admits p a k = true := by simp [refusedOf, List.filter_eq_nil_iff]

theorem silentOf_eq_nil {p : Params} {k : AccessKind} {as : List Nat} :
    silentOf p k as = [] ↔ ∀ a ∈ as, admits p a k = true → responds p a k = true := by
  simp [silentOf, List.filter_eq_nil_iff]

theorem answers_iff {p : Params} {k : AccessKind} {a : Nat} :
    answers p k a = true ↔ admits p a k = true ∧ responds p a k = true := by simp [answers]

/-- What the bus can do to the accesses of a command. -/
theorem busOutcome_cases (s : State) (k : AccessKind) (as : List Nat) :
    (s.busOutcome k as = .answered ∧ ∀ a ∈ as, answers s.params k a = true) ∨
    (∃ a ∈ as, s.busOutcome k as = .refused a ∧ admits s.params a k = false) ∨
    (s.busOutcome k as = .hung ∧ ∃ a ∈ as, admits s.params a k = true ∧ responds s.params a k = false) := by
  have hung : ¬(silentOf s.params k as).isEmpty = true →
      ∃ a ∈ as, admits s.params a k = true ∧ responds s.params a k = false := by
    intro hs
    rw [List.isEmpty_iff, silentOf_eq_nil] at hs
    push Not at hs
    obtain ⟨a, ha, h1, h2⟩ := hs
    exact ⟨a, ha, h1, by simpa using h2⟩
  unfold State.busOutcome
  cases hr : refusedOf s.params k as with
  | nil =>
    by_cases hs : (silentOf s.params k as).isEmpty = true
    · refine .inl ⟨if_pos hs, fun a ha => ?_⟩
      have h1 := refusedOf_eq_nil.1 hr a ha
      exact answers_iff.2 ⟨h1, silentOf_eq_nil.1 (List.isEmpty_iff.1 hs) a ha h1⟩
    · exact .inr (.inr ⟨if_neg hs, hung hs⟩)
  | cons a rest =>
    by_cases hg : ((silentOf s.params k as).isEmpty || Config.freeBit s.tick .refusedFirst .a (accessKey k)) = true
    · refine .inr (.inl ?_)
      have hmem : (a :: rest).getD (Config.freePick s.tick .refusedAddr .a (accessKey k) % (rest.length + 1)) a ∈
          refusedOf s.params k as := by
        have hlt : Config.freePick s.tick .refusedAddr .a (accessKey k) % (rest.length + 1) < (a :: rest).length := by
          simpa using Nat.mod_lt _ (Nat.succ_pos rest.length)
        rw [hr, List.getD_eq_getElem _ _ hlt]
        exact List.getElem_mem hlt
      obtain ⟨h1, h2⟩ := mem_refusedOf.1 hmem
      exact ⟨_, h1, if_pos hg, h2⟩
    · exact .inr (.inr ⟨if_neg hg, hung fun h => hg (by simp [h])⟩)

theorem busOutcome_answered {s : State} {k : AccessKind} {as : List Nat}
    (h : ∀ a ∈ as, answers s.params k a = true) : s.busOutcome k as = .answered := by
  unfold State.busOutcome
  rw [refusedOf_eq_nil.2 fun a ha => (answers_iff.1 (h a ha)).1,
    silentOf_eq_nil.2 fun a ha _ => (answers_iff.1 (h a ha)).2]
  rfl

theorem mem_srcAddrs {j : Job} {o : Operands} {a : Nat} :
    a ∈ j.srcAddrs o ↔ ∃ e ∈ j.streams, o.src e ≤ a ∧ a < o.src e + j.srcLen := by
  simp [Job.srcAddrs, mem_addressesFrom]

theorem mem_dstAddrs {j : Job} {o : Operands} {a : Nat} :
    a ∈ j.dstAddrs o ↔ ∃ e ∈ j.streams, o.dst e ≤ a ∧ a < o.dst e + j.dstLen := by
  simp [Job.dstAddrs, mem_addressesFrom]

theorem mem_dstAddrs_iff_inDst {j : Job} {o : Operands} {a : Nat} : a ∈ j.dstAddrs o ↔ j.inDst o a = true := by
  rw [mem_dstAddrs]; simp [Job.inDst]

/-! The engine step of a command. -/

/-- Everything the engine step of a command can do (43_register_access.md R227). -/
theorem runJob_cases (j : Job) (s : State) :
    (∃ e, j.check s.params s.phase s.operands = some e ∧ runJob j s = .next (s.completeError e 0)) ∨
    (j.check s.params s.phase s.operands = none ∧
      ((j.touchesDevice s.params s.operands = true ∧ runJob j s = .refused .deviceInDmaRange) ∨
       (j.touchesDevice s.params s.operands = false ∧ runJob j s = .next (j.perform s)))) := by
  unfold runJob
  cases h : j.check s.params s.phase s.operands with
  | some e => exact .inl ⟨e, rfl, rfl⟩
  | none =>
    cases hd : j.touchesDevice s.params s.operands with
    | true => exact .inr ⟨rfl, .inl ⟨rfl, rfl⟩⟩
    | false => exact .inr ⟨rfl, .inr ⟨rfl, rfl⟩⟩

/-- Everything a command that passed its checks can do. -/
theorem perform_cases (j : Job) (s : State) :
    (∃ a ∈ j.srcAddrs s.operands, admits s.params a .read = false ∧ j.perform s = j.fail s .busRead a) ∨
    ((∃ a ∈ j.srcAddrs s.operands, responds s.params a .read = false) ∧ j.perform s = s.hang) ∨
    ((∀ a ∈ j.srcAddrs s.operands, answers s.params .read a = true) ∧
      ((∃ a ∈ j.dstAddrs s.operands, admits s.params a .write = false ∧
          j.perform s = j.fail (s.landWrites .cut (j.pending s)) .busWrite a) ∨
       ((∃ a ∈ j.dstAddrs s.operands, responds s.params a .write = false) ∧ j.perform s = s.hang) ∨
       ((∀ a ∈ j.dstAddrs s.operands, answers s.params .write a = true) ∧ j.perform s = j.finish s))) := by
  unfold Job.perform
  rcases busOutcome_cases s .read (j.srcAddrs s.operands) with ⟨h, ha⟩ | ⟨a, hm, h, hb⟩ | ⟨h, a, hm, -, hb⟩
  · refine .inr (.inr ⟨ha, ?_⟩)
    simp only [h]
    rcases busOutcome_cases s .write (j.dstAddrs s.operands) with ⟨h', ha'⟩ | ⟨a, hm, h', hb⟩ | ⟨h', a, hm, -, hb⟩
    · exact .inr (.inr ⟨ha', by simp only [h']⟩)
    · exact .inl ⟨a, hm, hb, by simp only [h']⟩
    · exact .inr (.inl ⟨⟨a, hm, hb⟩, by simp only [h']⟩)
  · exact .inl ⟨a, hm, hb, by simp only [h]⟩
  · exact .inr (.inl ⟨⟨a, hm, hb⟩, by simp only [h]⟩)

/-- A command whose checks pass and whose bus is clear finishes. -/
theorem runJob_finish {j : Job} {s : State} (hc : j.check s.params s.phase s.operands = none)
    (hb : j.BusClear s.params s.operands) : runJob j s = .next (j.finish s) := by
  have hr : s.busOutcome .read (j.srcAddrs s.operands) = .answered :=
    busOutcome_answered fun a ha => by
      obtain ⟨e, he, h1, h2⟩ := mem_srcAddrs.1 ha
      exact hb.readsAnswer e he a h1 h2
  have hw : s.busOutcome .write (j.dstAddrs s.operands) = .answered :=
    busOutcome_answered fun a ha => by
      obtain ⟨e, he, h1, h2⟩ := mem_dstAddrs.1 ha
      exact hb.writesAnswer e he a h1 h2
  simp [runJob, hc, hb.noDevice, Job.perform, hr, hw]

/-- A failed check completes with its error and has no other effect (60_exceptions.md R243). -/
theorem runJob_check {j : Job} {s : State} {e : ErrCode} (h : j.check s.params s.phase s.operands = some e) :
    runJob j s = .next (s.completeError e 0) := by simp [runJob, h]

/-! What a DMA read returns. -/

theorem pickByte_cases (now : Byte) (olds : List Byte) (n : Nat) : pickByte now olds n = now ∨ pickByte now olds n ∈ olds := by
  unfold pickByte
  split
  · exact .inl rfl
  · rename_i o os
    have hlt : n % ((o :: os).length + 1) < (now :: o :: os).length := by
      simpa using Nat.mod_lt n (Nat.succ_pos (o :: os).length)
    rw [List.getD_eq_getElem _ _ hlt]
    exact List.mem_cons.1 (List.getElem_mem hlt)

theorem staleFor_eq_nil {s : State} (h : s.params.dmaCoherent = true ∨ s.engineStale = []) (a : Nat) :
    s.staleFor a = [] := by
  unfold State.staleFor
  rcases h with h | h <;> simp [h]

/-- What is not read yet is the byte in memory, where the engine sees no replaced one. -/
theorem dmaByte_of_unread {s : State} {e : StreamId} {a : Nat} (hr : s.readAlready e a = none)
    (h : s.params.dmaCoherent = true ∨ s.engineStale = []) : s.dmaByte e a = s.mem.read a := by
  simp [State.dmaByte, hr, staleFor_eq_nil h, pickByte]

@[simp] theorem readAlready_start {s : State} (h : s.prog = Progress.start) (e : StreamId) (a : Nat) :
    s.readAlready e a = none := by simp [State.readAlready, h, Progress.start]

/-- An undisturbed command reads the bytes in memory. -/
theorem dmaBytes_of_undisturbed {s : State} (h : s.Undisturbed) (e : StreamId) (a n : Nat) :
    s.dmaBytes e a n = (addressesFrom a n).map s.mem.read :=
  List.map_congr_left fun _ _ => dmaByte_of_unread (readAlready_start h.nothingDone _ _) h.readsMemory

@[simp] theorem length_dmaBytes (s : State) (e : StreamId) (a n : Nat) : (s.dmaBytes e a n).length = n := by
  simp [State.dmaBytes]

@[simp] theorem written_of_noneWritten {s : State} (h : s.NoneWritten) (e : StreamId) (a : Nat) :
    s.written e a = false := by
  rw [State.written, h]; rfl

theorem pending_of_noneWritten {s : State} (h : s.NoneWritten) (j : Job) : j.pending s = j.writes s := by
  rw [Job.pending, List.filter_eq_self]
  intro w _
  rw [written_of_noneWritten h]; rfl

/-- Everything a command that answers a next state has done: it failed a check, met a refused read, waits for an
access, met a refused write, or finished. -/
theorem exec_next_cases {i : Instr} {s t : State} (h : exec i s = .next t) :
    let j := jobOf i s.operands
    (∃ e, j.check s.params s.phase s.operands = some e ∧ t = s.completeError e 0) ∨
    (j.check s.params s.phase s.operands = none ∧
      ((∃ a ∈ j.srcAddrs s.operands, admits s.params a .read = false ∧ t = j.fail s .busRead a) ∨
       t = s.hang ∨
       ((∀ a ∈ j.srcAddrs s.operands, answers s.params .read a = true) ∧
        ((∃ a ∈ j.dstAddrs s.operands, admits s.params a .write = false ∧
            t = j.fail (s.landWrites .cut (j.pending s)) .busWrite a) ∨
         t = j.finish s)))) := by
  intro j
  rw [exec_eq_runJob] at h
  rcases runJob_cases j s with ⟨e, he, h'⟩ | ⟨hc, h'⟩
  · rw [h'] at h; cases h
    exact .inl ⟨e, he, rfl⟩
  · refine .inr ⟨hc, ?_⟩
    rcases h' with ⟨-, h'⟩ | ⟨-, h'⟩
    · rw [h'] at h; cases h
    · rw [h'] at h; cases h
      rcases perform_cases j s with ⟨a, h1, h2, h3⟩ | ⟨-, h3⟩ | ⟨hr, h⟩
      · exact .inl ⟨a, h1, h2, h3⟩
      · exact .inr (.inl h3)
      · rcases h with ⟨a, h1, h2, h3⟩ | ⟨-, h3⟩ | ⟨-, h3⟩
        · exact .inr (.inr ⟨hr, .inl ⟨a, h1, h2, h3⟩⟩)
        · exact .inr (.inl h3)
        · exact .inr (.inr ⟨hr, .inr h3⟩)

/-- A command that passed its checks writes inside the DMA space. -/
theorem writes_lt {i : Instr} {s : State}
    (hc : (jobOf i s.operands).check s.params s.phase s.operands = none) :
    ∀ w ∈ (jobOf i s.operands).writes s, w.addr < Memory.size :=
  fun _ hw => inDst_lt (check_none.1 hc).2.2.2 (writes_inDst hw)

@[simp] theorem coversDevice_zero (p : Params) (a : Nat) : coversDevice p a 0 = false := by
  simp [coversDevice, spanMeets]

/-- When the checks pass and the bus is clear, from facts about each range alone; an empty range needs none. -/
theorem check_and_bus_of_ranges {i : Instr} {s : State} (hx : i.x2 = true → s.params.hasX2 = true)
    (hr : (jobOf i s.operands).rateBad = false) (hp : (jobOf i s.operands).seqBad s.phase = false)
    (h : ∀ e ∈ (jobOf i s.operands).streams,
      ((jobOf i s.operands).srcLen = 0 ∨ RangeClear s.params .read (s.operands.src e) (jobOf i s.operands).srcLen) ∧
      ((jobOf i s.operands).dstLen = 0 ∨ RangeClear s.params .write (s.operands.dst e) (jobOf i s.operands).dstLen)) :
    (jobOf i s.operands).check s.params s.phase s.operands = none ∧
      (jobOf i s.operands).BusClear s.params s.operands := by
  have l1 : ∀ e, s.operands.src e ≤ 2 ^ 64 := fun e => by cases e <;> exact le_of_lt (BitVec.isLt _)
  have l2 : ∀ e, s.operands.dst e ≤ 2 ^ 64 := fun e => by cases e <;> exact le_of_lt (BitVec.isLt _)
  have hxx : (i.x2 && !s.params.hasX2) = false := by
    cases hi : i.x2 <;> simp [hi] at hx ⊢; exact hx
  refine ⟨?_, ?_, ?_, ?_⟩
  · rw [check_none, jobOf_x2]
    refine ⟨hxx, hr, hp, ?_⟩
    rw [Bool.eq_false_iff]
    intro hb
    obtain ⟨e, he, hb⟩ := rangeBad_iff.1 hb
    obtain ⟨h1, h2⟩ := h e he
    have g1 : s.operands.src e + (jobOf i s.operands).srcLen ≤ 2 ^ 64 := h1.elim (fun z => by rw [z]; exact l1 e) (·.1)
    have g2 : s.operands.dst e + (jobOf i s.operands).dstLen ≤ 2 ^ 64 := h2.elim (fun z => by rw [z]; exact l2 e) (·.1)
    omega
  · rw [Job.touchesDevice, List.any_eq_false]
    intro e he
    obtain ⟨h1, h2⟩ := h e he
    have g1 := h1.elim (fun z => by rw [z]; exact coversDevice_zero _ _) (·.3)
    have g2 := h2.elim (fun z => by rw [z]; exact coversDevice_zero _ _) (·.3)
    simp [g1, g2]
  · intro e he
    exact (h e he).1.elim (fun z x h1 h2 => absurd h2 (by omega)) (·.2)
  · intro e he
    exact (h e he).2.elim (fun z x h1 h2 => absurd h2 (by omega)) (·.2)

/-- A finished command, field by field. -/
theorem finish_eq (i : Instr) (s : State) :
    (jobOf i s.operands).finish s = { s with
      s0 := ((jobOf i s.operands).result s .a).1
      s1 := if i.x2 then ((jobOf i s.operands).result s .b).1 else s.s1
      phase := (jobOf i s.operands).phase s.phase
      eng := .idle, prog := Progress.start, done := true, tick := s.tick + 1
      mem := ((jobOf i s.operands).finish s).mem
      hostStale := ((jobOf i s.operands).finish s).hostStale
      engineStale := ((jobOf i s.operands).finish s).engineStale } := by
  apply State.ext <;> simp [Job.finish, State.complete]

/-- What the outstanding writes of one byte string leave when a command finishes, `done` being the addresses written before:
the string, except that a contested byte may keep what was there; everything else as before. -/
theorem landWrites_whole_read {s : State} {e : StreamId} {f done : Nat → Bool} {a : Nat} {bs : List Byte}
    (hm : s.mem.wf = true) (ha : a + bs.length ≤ 2 ^ 64) (x : Nat) :
    (¬ (inRange a bs.length x ∧ done x = false) →
      (s.landWrites .whole ((writesFrom e f a bs).filter fun w => !done w.addr)).mem.read x = s.mem.read x) ∧
    (inRange a bs.length x → done x = false → f x = false →
      (s.landWrites .whole ((writesFrom e f a bs).filter fun w => !done w.addr)).mem.read x = bs.getD (x - a) 0) ∧
    (inRange a bs.length x → done x = false →
      (s.landWrites .whole ((writesFrom e f a bs).filter fun w => !done w.addr)).mem.read x = bs.getD (x - a) 0 ∨
      (s.landWrites .whole ((writesFrom e f a bs).filter fun w => !done w.addr)).mem.read x = s.mem.read x) := by
  induction bs generalizing s a with
  | nil => simp [inRange, writesFrom]
  | cons b bs ih =>
    simp only [List.length_cons] at ha
    have hsub : ∀ y, a < y → bs.getD (y - (a + 1)) 0 = (b :: bs).getD (y - a) 0 := fun y hy => by
      rw [show y - a = (y - (a + 1)) + 1 by omega, List.getD_cons_succ]
    cases hd : done a with
    | true =>
      have hcons : (writesFrom e f a (b :: bs)).filter (fun w => !done w.addr) =
          (writesFrom e f (a + 1) bs).filter fun w => !done w.addr := by simp [writesFrom, hd]
      obtain ⟨i1, i2, i3⟩ := ih hm (a := a + 1) (by omega)
      rw [hcons]
      simp only [List.length_cons, inRange] at *
      have hne : done x = false → x ≠ a := fun h hx => by rw [hx, hd] at h; cases h
      refine ⟨fun h => i1 fun h' => h ⟨by omega, h'.2⟩, fun h h' hf => ?_, fun h h' => ?_⟩ <;>
        have := hne h' <;> rw [← hsub x (by omega)]
      · exact i2 (by omega) h' hf
      · exact i3 (by omega) h'
    | false =>
      have hcons : (writesFrom e f a (b :: bs)).filter (fun w => !done w.addr) =
          ⟨e, a, b, f a⟩ :: (writesFrom e f (a + 1) bs).filter fun w => !done w.addr := by simp [writesFrom, hd]
      have hw' : (State.landWrite .whole s ⟨e, a, b, f a⟩).mem.wf = true := by
        rw [landWrite_mem]; split
        · exact Memory.wf_write _ hm (by show a < Memory.size; unfold Memory.size; omega)
        · exact hm
      have hl : s.lands .whole ⟨e, a, b, f a⟩ = (!f a || Config.freeBit s.tick .overlap .b a) := by
        simp [State.lands]
      obtain ⟨i1, i2, i3⟩ := ih hw' (a := a + 1) (by omega)
      rw [hcons, landWrites_cons]
      simp only [List.length_cons, inRange] at *
      have hread : ∀ y, (State.landWrite .whole s ⟨e, a, b, f a⟩).mem.read y =
          if s.lands .whole ⟨e, a, b, f a⟩ = true ∧ y = a then b else s.mem.read y := by
        intro y
        rw [landWrite_mem]
        split
        · rename_i h; rw [Memory.read_write hm]; simp [h]
        · rename_i h; simp [h]
      rcases Nat.lt_trichotomy x a with hx | hx | hx
      · refine ⟨fun _ => ?_, fun h => absurd h (by omega), fun h => absurd h (by omega)⟩
        rw [i1 (by omega), hread, if_neg (by omega)]
      · subst hx
        refine ⟨fun h => absurd ⟨by omega, hd⟩ h, fun _ _ hf => ?_, fun _ _ => ?_⟩
        · rw [i1 (by omega), hread, if_pos ⟨by rw [hl, hf]; rfl, rfl⟩]; simp
        · rw [i1 (by omega), hread]; split <;> simp
      · rw [hread, if_neg (by omega), hsub x hx] at i3
        rw [hsub x hx] at i2
        rw [hread, if_neg (by omega)] at i1
        exact ⟨fun h => i1 fun h' => h ⟨by omega, h'.2⟩, fun h => i2 (by omega), fun h => i3 (by omega)⟩

end Sys2Proof.Machine
end

