-- ==== Sys2Proof/Laws/PerInstr.lean ====
section
/-! SUPPORT. What holds of every instruction as syntax, one lemma for each constructor: its word is legal and decodes to it
(30_encoding.md R95, R98). -/

namespace Sys2Proof.Laws.RoundTrip

def Statement (i : Instr) : Prop := i.WellFormed ∧ decode (encode i) = .command i ∧ decodeBytes (encodeBytes i) = .command i

theorem zero : Statement .zero := by unfold Statement; decide

theorem zeroX2 : Statement .zeroX2 := by unfold Statement; decide

theorem permute : Statement .permute := by unfold Statement; decide

theorem permuteX2 : Statement .permuteX2 := by unfold Statement; decide

theorem absorb : Statement .absorb := by unfold Statement; decide

theorem absorbX2 : Statement .absorbX2 := by unfold Statement; decide

theorem squeeze : Statement .squeeze := by unfold Statement; decide

theorem squeezeX2 : Statement .squeezeX2 := by unfold Statement; decide

theorem hashShake128 : Statement .hashShake128 := by unfold Statement; decide

theorem hashShake128X2 : Statement .hashShake128X2 := by unfold Statement; decide

theorem hashShake256 : Statement .hashShake256 := by unfold Statement; decide

theorem hashShake256X2 : Statement .hashShake256X2 := by unfold Statement; decide

theorem hashSha3_256 : Statement .hashSha3_256 := by unfold Statement; decide

theorem hashSha3_256X2 : Statement .hashSha3_256X2 := by unfold Statement; decide

theorem hashSha3_512 : Statement .hashSha3_512 := by unfold Statement; decide

theorem hashSha3_512X2 : Statement .hashSha3_512X2 := by unfold Statement; decide

end Sys2Proof.Laws.RoundTrip
end

