-- ==== Sys2Proof/Laws/Progress.lean ====
section
/-! SUPPORT. What the host can tell of a running command: the reads and writes it may have done by now change neither what it
reads in all nor any byte it does not write (20_memory.md R68, R74 to R76). -/

namespace Sys2Proof.Machine

theorem runningJob_congr {s t : State} (h : s.eng = t.eng) : s.runningJob = t.runningJob := by
  unfold State.runningJob; rw [h]

theorem runningJob_some {s : State} {j : Job} (h : s.runningJob = some j) :
    ∃ c ops i, s.eng = .busy c ops ∧ decode c = .command i ∧ j = jobOf i ops := by
  unfold State.runningJob at h
  cases he : s.eng with
  | idle => simp [he] at h
  | busy c ops =>
    cases hd : decode c with
    | illegal e => simp [he, hd] at h
    | command i => exact ⟨c, ops, i, rfl, hd, by simpa [he, hd] using h.symm⟩

theorem runningJob_of_idle {s : State} (h : s.eng = .idle) : s.runningJob = none := by simp [State.runningJob, h]

/-- The writes of an unfinished command are those of the command its word decodes to, in its destination ranges. -/
theorem mem_unfinishedWrites {s : State} {w : DmaWrite} (h : w ∈ s.unfinishedWrites) :
    ∃ c ops i, s.eng = .busy c ops ∧ decode c = .command i ∧ (jobOf i ops).inDst ops w.addr = true ∧
      w ∈ (jobOf i ops).writes s ∧ w.addr < Memory.size := by
  unfold State.unfinishedWrites at h
  cases hj : s.runningJob with
  | none => simp [hj] at h
  | some j =>
    obtain ⟨c, ops, i, he, hd, rfl⟩ := runningJob_some hj
    simp only [hj] at h
    split at h
    · rename_i hg
      simp only [Bool.and_eq_true, State.runningAccesses, Option.isNone_iff_eq_none] at hg
      have ho : s.operands = ops := operands_of_busy he
      have hw := (mem_pending.1 h).1
      have hc := hg.1
      rw [← ho] at hw hc
      have h1 := writes_inDst hw
      exact ⟨c, s.operands, i, by rw [he, ho], hd, h1, hw, inDst_lt (check_none.1 hc).2.2.2 h1⟩
    · simp at h

/-- Reading bytes down changes nothing of what is read, where each recorded byte is the one read and what is not recorded
is found as before. -/
theorem dmaByte_of_record {s t : State} {l : List ReadByte} {e : StreamId} {x : Nat}
    (hl : ∀ r ∈ l, r.byte = s.dmaByte r.stream r.addr) (ht : t.prog.reads = l ++ s.prog.reads)
    (h : (∃ r ∈ l, r.stream = e ∧ r.addr = x) ∨
      (t.mem.read x = s.mem.read x ∧ t.staleFor x = s.staleFor x ∧ t.tick = s.tick)) :
    t.dmaByte e x = s.dmaByte e x := by
  cases hf : l.find? fun r => r.stream == e && r.addr == x with
  | some r =>
    have hp := List.find?_some hf
    simp only [Bool.and_eq_true, beq_iff_eq] at hp
    have : t.readAlready e x = some r.byte := by simp [State.readAlready, ht, List.find?_append, hf]
    rw [State.dmaByte, this, hl r (List.mem_of_find?_eq_some hf), hp.1, hp.2]
  | none =>
    rcases h with ⟨r, hr, he, hx⟩ | ⟨h1, h2, h3⟩
    · exact absurd (List.find?_eq_none.1 hf r hr) (by simp [he, hx])
    · have : t.readAlready e x = s.readAlready e x := by simp [State.readAlready, ht, List.find?_append, hf]
      simp only [State.dmaByte, this, h1, h2, h3]

theorem staleFor_congr {s t : State} (hp : s.params = t.params) (he : s.engineStale = t.engineStale) (a : Nat) :
    s.staleFor a = t.staleFor a := by unfold State.staleFor; rw [hp, he]

/-- What the engine may have read by now, it reads. -/
@[simp] theorem dmaByte_mayRead (s : State) (as : List Nat) (e : StreamId) (x : Nat) :
    (s.mayRead as).dmaByte e x = s.dmaByte e x := by
  cases hj : s.runningJob with
  | none => simp [State.mayRead, hj]
  | some j =>
    refine dmaByte_of_record (l := j.readSome s as) ?_ (by simp [State.mayRead, hj])
      (.inr ⟨by simp, staleFor_congr (by simp) (by simp) x, by simp⟩)
    intro r hr
    simp only [Job.readSome, List.mem_flatMap, List.mem_map] at hr
    obtain ⟨_, -, _, -, rfl⟩ := hr
    rfl

@[simp] theorem mayRead_of_idle {s : State} (h : s.eng = .idle) (as : List Nat) : s.mayRead as = s := by
  simp [State.mayRead, runningJob_of_idle h]

@[simp] theorem written_mayRead (s : State) (as : List Nat) (e : StreamId) (a : Nat) :
    (s.mayRead as).written e a = s.written e a := by
  unfold State.mayRead; split <;> rfl

/-- What a command may have written to an address by now: nothing, or some of its outstanding writes there, every read done. -/
theorem mayWrite_cases (s : State) (a : Nat) :
    s.mayWrite a = s ∨ ∃ j, s.runningJob = some j ∧
      s.mayWrite a = { s.landWrites .cut (s.writesBy a) with
        prog := { reads := j.readAll s ++ s.prog.reads
                  written := (s.writesBy a).map (fun v => (v.stream, v.addr)) ++ s.prog.written } } := by
  unfold State.mayWrite
  split
  · rename_i j w ws hj hw; rw [hw]; exact .inr ⟨j, hj, rfl⟩
  · exact .inl rfl

@[simp] theorem mayWrite_of_idle {s : State} (h : s.eng = .idle) (a : Nat) : s.mayWrite a = s := by
  simp [State.mayWrite, runningJob_of_idle h]

theorem mem_writesBy {s : State} {a : Nat} {w : DmaWrite} (h : w ∈ s.writesBy a) :
    w ∈ s.unfinishedWrites ∧ w.addr = a ∧ w.addr < Memory.size := by
  obtain ⟨h1, h2⟩ := List.mem_filter.1 h
  obtain ⟨-, -, -, -, -, -, -, h3⟩ := mem_unfinishedWrites h1
  simp only [Bool.and_eq_true, beq_iff_eq] at h2
  exact ⟨h1, h2.1, h3⟩

/-- A write made by now is recorded, whether it shows or not (20_memory.md R68, R77). -/
theorem written_mayWrite {s : State} {a : Nat} {w : DmaWrite} (h : w ∈ s.writesBy a) :
    (s.mayWrite a).written w.stream w.addr = true := by
  obtain ⟨c, ops, i, he, hd, -⟩ := mem_unfinishedWrites (mem_writesBy h).1
  have hj : s.runningJob = some (jobOf i ops) := by simp [State.runningJob, he, hd]
  unfold State.mayWrite
  split
  · rename_i w' ws _ hw
    have h' : w ∈ w' :: ws := hw ▸ h
    have hm : (w.stream, w.addr) ∈ (w' :: ws).map fun v => (v.stream, v.addr) := List.mem_map_of_mem h'
    simp only [State.written, List.contains_iff_mem, List.mem_append]
    exact .inl hm
  · rename_i hn
    cases hw : s.writesBy a with
    | nil => simp [hw] at h
    | cons v vs => exact absurd hw (hn _ _ _ hj)

/-- So it is not made again. -/
theorem pending_mayWrite {s : State} {a : Nat} {w v : DmaWrite} {j : Job} (h : w ∈ s.writesBy a)
    (hv : v ∈ j.pending (s.mayWrite a)) : ¬(v.stream = w.stream ∧ v.addr = w.addr) := by
  rintro ⟨h1, h2⟩
  have := (mem_pending.1 hv).2
  rw [h1, h2, written_mayWrite h] at this
  cases this

theorem mayWrite_wf {s : State} (h : s.mem.wf = true) (a : Nat) : (s.mayWrite a).mem.wf = true := by
  rcases mayWrite_cases s a with h' | ⟨j, -, h'⟩ <;> rw [h']
  · exact h
  · exact landWrites_wf h fun _ hw => (mem_writesBy hw).2.2

/-- Only the byte looked at may change, to one the running command writes there. -/
theorem mayWrite_read {s : State} (h : s.mem.wf = true) (a x : Nat) :
    (s.mayWrite a).mem.read x = s.mem.read x ∨
      (x = a ∧ ∃ w ∈ s.unfinishedWrites, w.addr = a ∧ w.byte = (s.mayWrite a).mem.read x) := by
  rcases mayWrite_cases s a with h' | ⟨j, -, h'⟩ <;> rw [h']
  · exact .inl rfl
  · rcases landWrites_read (how := .cut) h (fun _ hw => (mem_writesBy hw).2.2) x with h1 | ⟨w, hw, hx, -, hb⟩
    · exact .inl h1
    · obtain ⟨h1, h2, -⟩ := mem_writesBy hw
      exact .inr ⟨hx ▸ h2, w, h1, h2, hb.symm⟩

/-- A source byte of the running command reads the same after the engine may have written to an address; so does any
other byte but the one there. -/
theorem dmaByte_mayWrite {s : State} (h : s.mem.wf = true) (a : Nat) {e : StreamId} {x : Nat}
    (hx : (x ≠ a ∧ s.params.dmaCoherent = true) ∨
      ∃ j, s.runningJob = some j ∧ e ∈ j.streams ∧ j.inSrc s.operands e x = true) :
    (s.mayWrite a).dmaByte e x = s.dmaByte e x := by
  rcases mayWrite_cases s a with h' | ⟨j, hj, h'⟩
  · rw [h']
  · refine dmaByte_of_record (l := j.readAll s) ?_ (by rw [h']) ?_
    · intro r hr
      simp only [Job.readAll, List.mem_flatMap, List.mem_map] at hr
      obtain ⟨_, -, _, -, rfl⟩ := hr
      rfl
    · rcases hx with ⟨hx, hc⟩ | ⟨j', hj', he, hs⟩
      · refine .inr ⟨?_, ?_, by simp⟩
        · rcases mayWrite_read h a x with h1 | ⟨h1, -⟩
          · exact h1
          · exact absurd h1 hx
        · rw [staleFor_eq_nil (.inl (by simpa using hc)), staleFor_eq_nil (.inl hc)]
      · rw [hj] at hj'; cases hj'
        refine .inl ⟨⟨e, x, s.dmaByte e x⟩, ?_, rfl, rfl⟩
        simp only [Job.readAll, List.mem_flatMap, List.mem_map]
        refine ⟨e, he, x, ?_, rfl⟩
        simp only [Job.inSrc, Bool.and_eq_true, decide_eq_true_eq] at hs
        exact mem_addressesFrom.2 hs

/-- The results of the running command do not depend on how much of it is done (42_hash.md R192). -/
theorem result_mayWrite {s : State} (h : s.mem.wf = true) (a : Nat) {j : Job} (hj : s.runningJob = some j) {e : StreamId}
    (he : e ∈ j.streams) : j.result (s.mayWrite a) e = j.result s e := by
  have ho : (s.mayWrite a).operands = s.operands := operands_congr (by simp) (by simp)
  have hl : (s.mayWrite a).lanes e = s.lanes e := by cases e <;> simp [State.lanes]
  have hd : (s.mayWrite a).dmaBytes e (s.operands.src e) j.srcLen = s.dmaBytes e (s.operands.src e) j.srcLen :=
    List.map_congr_left fun x hx => dmaByte_mayWrite h a (.inr ⟨j, hj, he, by
      have := mem_addressesFrom.1 hx
      simpa [Job.inSrc] using this⟩)
  unfold Job.result
  rw [ho, hl, hd]

end Sys2Proof.Machine
end

