-- ==== Sys2Proof/Laws/Registers.lean ====
section
/-! SUPPORT. What a host access and an abandoned command can do (20_memory.md R62; 70_reset_and_hazards.md R271). -/

namespace Sys2Proof.Machine

/-- A host access that answers a next state had the effect of its register, outside reset. -/
theorem access_next {s t : State} {addr : Word} {size : Nat} {act : Reg → State} (h : s.access addr size act = .next t) :
    ∃ off, windowOffset s.params addr = some off ∧ s.resetIn = false ∧ size = 8 ∧ off % 8 = 0 ∧
      t = act (Reg.ofOffset off) := by
  unfold State.access at h
  split at h
  · cases h
  · split at h
    · cases h
    · split at h
      · rename_i hs
        cases h
        exact ⟨_, ‹_›, by simp_all, hs.1, hs.2, rfl⟩
      · cases h

/-- Abandoning a command keeps the canonical form. -/
theorem abandon_wf {s : State} (h : s.mem.wf = true) : s.abandon.mem.wf = true :=
  landWrites_wf h fun _ hw => by
    obtain ⟨-, -, -, -, -, -, -, hl⟩ := mem_unfinishedWrites hw
    exact hl

/-- Where the STATE window lies (10_state.md R44). -/
theorem state_offset_lt (i : Fin 25) (e : StreamId) : (Reg.state i e).offset < 0x290 ∧ (Reg.state i e).offset % 8 = 0 := by
  cases e <;> simp only [Reg.offset, StreamId.index] <;> omega

end Sys2Proof.Machine
end

