-- ==== Sys2Proof/Tests/Slice0.lean ====
section
/-! SUPPORT. Tests: every expected value is the spec's own (95_test_vectors.md, or a rule's example, named with the test);
and, for every statement with hypotheses, a concrete state and operands that meet them. -/

namespace Sys2Proof.Tests

open Sys2Proof Sys2Proof.Machine

-- One theorem at a time: evaluated at once they start more threads than the check's memory limit has room for.
set_option Elab.async false

/-! ## Fields that are no command (30_encoding.md R95, R96) -/

theorem test_fields_resB_refused :
    (CommandFields.mk 0x01 false 0 0 1).resBZero = false ∧ (CommandFields.mk 0x01 false 0 0 1).legal = false ∧
    (CommandFields.mk 0x01 false 0 0 1).decode = .illegal .resB := by decide

theorem test_fields_resA_refused :
    (CommandFields.mk 0x02 false 1 0 0).resAZero = false ∧ (CommandFields.mk 0x02 false 1 0 0).legal = false ∧
    (CommandFields.mk 0x02 false 1 0 0).decode = .illegal .resA := by decide

theorem test_fields_op_refused :
    (CommandFields.mk 0x06 false 0 0 0).opKnown = false ∧ (CommandFields.mk 0x06 false 0 0 0).legal = false ∧
    (CommandFields.mk 0x06 false 0 0 0).decode = .illegal (.reservedOp 0x06) := by decide

theorem test_fields_alg_refused :
    (CommandFields.mk 0x04 false 0 3 0).algAllowed = false ∧ (CommandFields.mk 0x04 false 0 3 0).legal = false ∧
    (CommandFields.mk 0x04 false 0 3 0).decode = .illegal (.algOutsideHash 3) := by decide

/-! ## Decoding: words written out from the fields of R91 and from the table of R95 (V-ENC) -/

/-- A word from its fields as R91 draws them: RES_B, ALG, RES_A, X2, OP. -/
def fieldWord (alg : BitVec 2) (x2 : BitVec 1) (op : BitVec 8) : Word := 0#46 ++ (alg ++ (0#7 ++ (x2 ++ op)))

theorem test_decode_zero : decode (fieldWord 0b00 0b0 0b00000001) = .command .zero := by decide
theorem test_decode_permute_x2 : decode (fieldWord 0b00 0b1 0b00000010) = .command .permuteX2 := by decide
theorem test_decode_absorb : decode (fieldWord 0b00 0b0 0b00000011) = .command .absorb := by decide
theorem test_decode_squeeze_x2 : decode (fieldWord 0b00 0b1 0b00000100) = .command .squeezeX2 := by decide
theorem test_decode_hash_sha3_512 : decode (fieldWord 0b11 0b0 0b00000101) = .command .hashSha3_512 := by decide

/-- Every row of R95's table. -/
theorem test_decode_table :
    decode 0x0000000000000001 = .command .zero ∧ decode 0x0000000000000101 = .command .zeroX2 ∧
    decode 0x0000000000000002 = .command .permute ∧ decode 0x0000000000000102 = .command .permuteX2 ∧
    decode 0x0000000000000003 = .command .absorb ∧ decode 0x0000000000000103 = .command .absorbX2 ∧
    decode 0x0000000000000004 = .command .squeeze ∧ decode 0x0000000000000104 = .command .squeezeX2 ∧
    decode 0x0000000000000005 = .command .hashShake128 ∧ decode 0x0000000000000105 = .command .hashShake128X2 ∧
    decode 0x0000000000010005 = .command .hashShake256 ∧ decode 0x0000000000010105 = .command .hashShake256X2 ∧
    decode 0x0000000000020005 = .command .hashSha3_256 ∧ decode 0x0000000000020105 = .command .hashSha3_256X2 ∧
    decode 0x0000000000030005 = .command .hashSha3_512 ∧ decode 0x0000000000030105 = .command .hashSha3_512X2 := by
  decide

/-- The illegal words of V-ENC. -/
theorem test_decode_illegal :
    ([0x0000000000000000#64, 0x0000000000000006#64, 0x0000000000000007#64, 0x00000000000000FF#64,
      0x0000000000000200#64, 0x0000000000000202#64, 0x0000000000010001#64, 0x0000000000030004#64,
      0x0000000000040005#64, 0x0000000100000001#64, 0x8000000000000002#64].all fun c =>
      !(CommandFields.ofWord c).legal && match decode c with | .illegal _ => true | .command _ => false) = true := by
  decide +kernel

/-- The bytes of a word come lowest first (20_memory.md R63), eight of them (R90). -/
theorem test_decode_bytes :
    decodeBytes [0x05, 0x01, 0x01, 0, 0, 0, 0, 0] = .command .hashShake256X2 ∧
    decodeBytes [0x01, 0, 0, 0] = .illegal (.notOneWord 4) ∧
    decodeTableWord 64 0x20005 = some .hashSha3_256 ∧ decodeTableWord 64 0x6 = none := by decide

/-! ## The permutation (V-STEP, V-PERM) -/

/-- The input of V-STEP: lane i holds i. -/
def counting : Lanes := Lanes.ofFn fun x y => BitVec.ofNat 64 (x.val + 5 * y.val)

theorem test_theta : (List.range 25).map (theta counting).lane =
    [0x1A, 0x9, 0xD, 0x1D, 0x2F, 0x1F, 0xE, 0x8, 0x16, 0x22, 0x10, 0x3, 0x3, 0x13, 0x25, 0x15, 0x18, 0x1E, 0xC, 0x38,
      0xE, 0x1D, 0x19, 0x9, 0x33] := by decide +kernel

theorem test_rho : (rho counting).lane 2 = 0x8000000000000000 ∧ (rho counting).lane 6 = 0x600000000000 ∧
    (rho counting).lane 22 = 0xC000000000000002 ∧ (rho counting).lane 24 = 0x60000 := by decide +kernel

theorem test_pi : (List.range 25).map (pi counting).lane =
    [0x0, 0x6, 0xC, 0x12, 0x18, 0x3, 0x9, 0xA, 0x10, 0x16, 0x1, 0x7, 0xD, 0x13, 0x14, 0x4, 0x5, 0xB, 0x11, 0x17, 0x2,
      0x8, 0xE, 0xF, 0x15] := by decide +kernel

theorem test_chi : (List.range 25).map (chi counting).lane =
    [0x2, 0x0, 0x6, 0x3, 0x5, 0x4, 0xE, 0x6, 0xC, 0xB, 0xE, 0xA, 0xE, 0xD, 0xF, 0xE, 0x12, 0x10, 0x1E, 0x3, 0x16, 0x14,
      0x1E, 0x13, 0x19] := by decide +kernel

theorem test_iota : (iota counting 0).lane 0 = 0x1 ∧ (iota counting 23).lane 0 = 0x8000000080008008 ∧
    (iota counting 23).lane 1 = 0x1 := by decide

theorem test_one_round : (keccakRound counting 0).lane 0 = 0x000018000000001B ∧
    (keccakRound counting 0).lane 9 = 0x2000000002200003 ∧ (keccakRound counting 0).lane 24 = 0x0B00000000000074 := by
  decide +kernel

theorem test_permutation_of_zero :
    (keccakF Lanes.zero).lane 0 = 0xF1258F7940E1DDE7 ∧ (keccakF Lanes.zero).lane 1 = 0x84D5CCF933C0478A ∧
    (keccakF Lanes.zero).lane 24 = 0xEAF1FF7B5CECA249 := by decide +kernel

/-! ## Padding images (V-PAD, V-SRC-2) -/

theorem test_pad_shares_the_last_byte :
    (absorbBytes 136 0x06 (List.replicate 135 0xAA)).lane 16 = 0x86AAAAAAAAAAAAAA ∧
    (absorbBytes 136 0x80 (List.replicate 135 0xAA)).lane 16 = 0x00AAAAAAAAAAAAAA ∧
    (absorbBytes 8 0x06 (List.replicate 7 0xAA)).lane 0 = 0x86AAAAAAAAAAAAAA := by decide +kernel

theorem test_pad_empty_message :
    (absorbBytes 8 0x06 []).lane 0 = 0x8000000000000006 ∧ (absorbBytes 200 0x1F []).lane 0 = 0x1F ∧
    (absorbBytes 200 0x1F []).lane 24 = 0x8000000000000000 := by decide +kernel

/-- V-ABS-5: a whole block, then the padding of an empty tail. -/
theorem test_absorb_one_block :
    (absorbBytes 8 0x1F [1, 2, 3, 4, 5, 6, 7, 8]).lane 0 = 0x71E1951BE6EE183F ∧
    (absorbBytes 8 0x1F [1, 2, 3, 4, 5, 6, 7, 8]).lane 24 = 0x49B6D85F2381A376 := by decide +kernel

/-! ## The commands, one step each -/

/-- Operands most tests share. -/
def someOps : Operands where
  rate := 136
  ds := 0x1F
  len := 3
  outlen := 32
  nblocks := 1
  srcA := 0x1000
  srcB := 0x1100
  dstA := 0x2000
  dstB := 0x3000

/-- "abc" at 0x1000 and "xyz" at 0x1100. -/
def someMem : Memory :=
  [(0x1000, 0x61), (0x1001, 0x62), (0x1002, 0x63), (0x1100, 0x78), (0x1101, 0x79), (0x1102, 0x7A)]

/-- A block that has accepted a command word, with parameters, operands and PHASE given. -/
def accepted (p : Params) (c : Word) (o : Operands) (ph : Phase) : State :=
  { State.resetWith p with mem := someMem, phase := ph, cmd := c, regs := o, eng := .busy c o }

/-- The same for a command, on the standard block. -/
def busyWith (i : Instr) (o : Operands) (ph : Phase) : State := accepted Params.standard (encode i) o ph

/-- A result that is a next state with a property. -/
def nextWith (r : Result) (f : State → Bool) : Bool :=
  match r with
  | .next t => f t
  | .fault _ => false
  | .refused _ => false

/-- The `n` bytes whose hex spelling, first byte first, is the number `v`. -/
def hexBytes (n v : Nat) : List Byte := (List.range n).map fun k => BitVec.ofNat 8 (v / 256 ^ (n - 1 - k))

/-- The bytes of memory from an address on. -/
def bytesFrom (s : State) (a n : Nat) : List Byte := (addressesFrom a n).map s.mem.read

/-- V-ZERO. -/
theorem test_zero : nextWith (step (busyWith .zero someOps .raw))
    (fun t => t.statusWord == 0x2 && t.s0 == Lanes.zero) = true := by decide +kernel

theorem test_zero_x2 : nextWith (step { busyWith .zeroX2 someOps .raw with s0 := counting, s1 := counting })
    (fun t => t.statusWord == 0x2 && t.s0 == Lanes.zero && t.s1 == Lanes.zero) = true := by decide +kernel

/-- V-PERM-1. -/
theorem test_permute : nextWith (step (busyWith .permute someOps .empty))
    (fun t => t.statusWord == 0x302 && t.s0.lane 0 == 0xF1258F7940E1DDE7 && t.s1 == Lanes.zero) = true := by
  decide +kernel

/-- V-X2-1. -/
theorem test_permute_x2 : nextWith (step { busyWith .permuteX2 someOps .raw with s1 := counting })
    (fun t => t.statusWord == 0x302 && t.s0.lane 0 == 0xF1258F7940E1DDE7 && t.s1.lane 0 == 0x8374B05252ED8115 &&
      t.s1.lane 24 == 0xD153F43A297E4A33) = true := by decide +kernel

/-- P4, first command. -/
theorem test_absorb : nextWith (step (busyWith .absorb someOps .failed))
    (fun t => t.statusWord == 0x102 && t.s0.lane 0 == 0x000000001F636261 && t.s0.lane 16 == 0x8000000000000000) =
      true := by decide +kernel

/-- V-ABS-6. -/
theorem test_absorb_x2 : nextWith (step (busyWith .absorbX2 { someOps with rate := 168 } .empty))
    (fun t => t.statusWord == 0x102 && t.s0.lane 0 == 0x000000001F636261 && t.s1.lane 0 == 0x000000001F7A7978 &&
      t.s1.lane 20 == 0x8000000000000000) = true := by decide +kernel

/-- V-SQ-2. -/
theorem test_squeeze : nextWith
    (step { busyWith .squeeze { someOps with dstA := 0x6000 } .raw with s0 := keccakF Lanes.zero })
    (fun t => t.statusWord == 0x202 && bytesFrom t 0x6000 16 == hexBytes 16 0x3ccb6ef94d955c2d6db55770d02c336a &&
      bytesFrom t 0x6080 9 == hexBytes 9 0x404b99d833addd9700) = true := by decide +kernel

/-- V-SQ-3. -/
theorem test_squeeze_no_block : nextWith (step (busyWith .squeeze { someOps with nblocks := 0 } .absorbed))
    (fun t => t.statusWord == 0x102 && t.s0 == Lanes.zero && t.mem == someMem) = true := by decide +kernel

/-- V-X2-2. -/
theorem test_squeeze_x2 : nextWith
    (step { busyWith .squeezeX2 someOps .absorbed with s0 := absorbBytes 136 0x1F [], s1 := absorbBytes 136 0x1F [] })
    (fun t => t.statusWord == 0x202 &&
      bytesFrom t 0x2000 32 == hexBytes 32 0x46b9dd2b0ba88d13233b3feb743eeb243fcd52ea62b81b82b50c27646ed5762f &&
      bytesFrom t 0x3000 32 == hexBytes 32 0x46b9dd2b0ba88d13233b3feb743eeb243fcd52ea62b81b82b50c27646ed5762f) =
      true := by decide +kernel

/-- V-KAT, "abc". -/
theorem test_hash_shake128 : nextWith (step (busyWith .hashShake128 someOps .empty))
    (fun t => t.statusWord == 0x202 &&
      bytesFrom t 0x2000 32 == hexBytes 32 0x5881092dd818bf5cf8a3ddb793fbcba74097d5c526a6d35f97b83351940f2cc8) =
      true := by decide +kernel

/-- P3, with the first 32 bytes of its output. -/
theorem test_hash_shake128_x2 : nextWith (step (busyWith .hashShake128X2 { someOps with outlen := 16 } .empty))
    (fun t => bytesFrom t 0x2000 16 == hexBytes 16 0x5881092dd818bf5cf8a3ddb793fbcba7 &&
      bytesFrom t 0x3000 17 == hexBytes 17 0xe8d0ed90c3ffc17f50bacc9180a5db8300) = true := by decide +kernel

/-- V-KAT, "abc". -/
theorem test_hash_shake256 : nextWith (step (busyWith .hashShake256 someOps .empty))
    (fun t => bytesFrom t 0x2000 32 ==
      hexBytes 32 0x483366601360a8771c6863080cc4114d8db44530f8f1e1ee4f94ea37e78b5739) = true := by decide +kernel

/-- V-HASH-2, OUTLEN = 0. -/
theorem test_hash_shake256_no_output : nextWith
    (step (busyWith .hashShake256 { someOps with len := 0, outlen := 0 } .empty))
    (fun t => t.statusWord == 0x102 && t.s0.lane 0 == 0x1F && t.s0.lane 16 == 0x8000000000000000) = true := by
  decide +kernel

/-- V-SRC-4. -/
theorem test_hash_shake256_x2 : nextWith (step (busyWith .hashShake256X2 { someOps with len := 0 } .empty))
    (fun t => t.statusWord == 0x202 &&
      bytesFrom t 0x2000 32 == hexBytes 32 0x46b9dd2b0ba88d13233b3feb743eeb243fcd52ea62b81b82b50c27646ed5762f &&
      bytesFrom t 0x3000 32 == hexBytes 32 0x46b9dd2b0ba88d13233b3feb743eeb243fcd52ea62b81b82b50c27646ed5762f) =
      true := by decide +kernel

/-- V-HASH-2, in place: the digest of the message before any write. -/
theorem test_hash_sha3_256_in_place : nextWith
    (step (busyWith .hashSha3_256 { someOps with dstA := 0x1000, outlen := 5 } .empty))
    (fun t => bytesFrom t 0x1000 33 ==
      hexBytes 33 0x3a985da74fe225b2045c172d6bd390bd855f086e3e9d525b46bfe2451143153200) = true := by decide +kernel

/-- V-KAT, the empty message, on both streams. -/
theorem test_hash_sha3_256_x2 : nextWith (step (busyWith .hashSha3_256X2 { someOps with len := 0 } .empty))
    (fun t => bytesFrom t 0x2000 32 ==
        hexBytes 32 0xa7ffc6f8bf1ed76651c14756a061d662f580ff4de43b49fa82d80a4b80f8434a &&
      bytesFrom t 0x3000 32 == hexBytes 32 0xa7ffc6f8bf1ed76651c14756a061d662f580ff4de43b49fa82d80a4b80f8434a) =
      true := by decide +kernel

/-- V-KAT, "abc". -/
theorem test_hash_sha3_512 : nextWith (step (busyWith .hashSha3_512 someOps .empty))
    (fun t => bytesFrom t 0x2000 32 ==
        hexBytes 32 0xb751850b1a57168a5693cd924b6b096e08f621827444f70d884f5d0240d2712e &&
      bytesFrom t 0x2020 32 == hexBytes 32 0x10e116e9192af3c91a7ec57647e3934057340b4cf408d5a56592f8274eec53f0) =
      true := by decide +kernel

/-- V-X2-3, stream B: SHA3-512("a"); stream A the same message here. -/
theorem test_hash_sha3_512_x2 : nextWith
    (step (busyWith .hashSha3_512X2 { someOps with len := 1, srcB := 0x1000 } .empty))
    (fun t => bytesFrom t 0x2000 32 ==
        hexBytes 32 0x697f2d856172cb8309d6b8b97dac4de344b549d4dee61edfb4962d8698b7fa80 &&
      bytesFrom t 0x3020 32 == hexBytes 32 0x3f4f93ff24393586e28b5b957ac3d1d369420ce53332712f997bd336d09ab02a) =
      true := by decide +kernel

/-! ## Errors (V-ERR) and the host's side (V-REG) -/

/-- V-ERR-1, V-ERR-3, V-ERR-4 and V-ERR-5. -/
theorem test_err_checks :
    nextWith (step (accepted Params.standard 0x6 Operands.reset .empty)) (fun t => t.statusWord == 0x10006) = true ∧
    nextWith (step (accepted { Params.standard with hasX2 := false } 0x102 Operands.reset .empty))
      (fun t => t.statusWord == 0x20006) = true ∧
    nextWith (step (accepted Params.standard 0x4 Operands.reset .empty)) (fun t => t.statusWord == 0x30006) = true ∧
    nextWith (step (accepted Params.standard 0x4 { Operands.reset with rate := 136 } .empty))
      (fun t => t.statusWord == 0x40006) = true := by decide +kernel

/-- V-ERR-6 and V-ERR-7: a range past the top, and one that ends exactly there. -/
theorem test_err_range :
    nextWith (step (accepted Params.standard 0x3
      { Operands.reset with rate := 136, ds := 6, srcA := 0xFFFFFFFFFFFFFFF0, len := 0x11 } .empty))
      (fun t => t.statusWord == 0x50006 && t.errAddr == 0) = true ∧
    nextWith (step (accepted Params.standard 0x3
      { Operands.reset with rate := 136, ds := 6, srcA := 0xFFFFFFFFFFFFFFF0, len := 0x10 } .empty))
      (fun t => t.statusWord == 0x102) = true := by decide +kernel

/-- A platform that refuses reads at 0x1002 and writes at 0x2010. -/
def refusing : Params := { Params.standard with refusedReads := [⟨0x1002, 1⟩], refusedWrites := [⟨0x2010, 1⟩] }

/-- V-ERR-8; its one refused address is the one recorded, whatever the free pick (93 U2). -/
theorem test_err_bus_read : nextWith
    (step (accepted refusing 0x20005 { Operands.reset with srcA := 0x1000, len := 4, dstA := 0x2000 } .empty))
    (fun t => t.statusWord == 0x60406 && t.mem == someMem) = true := by
  simp only [step, State.take, accepted, State.engineTurn]
  decide +kernel

/-- V-REG: STATUS, irq and the flags around a command. -/
theorem test_reg_lock : (((busyWith .permute Operands.reset .empty).writeReg 72 .rate).statusWord = 0x9) ∧
    (((busyWith .permute Operands.reset .empty).writeReg 72 .rate).readReg .rate = 0) ∧
    (((busyWith .permute Operands.reset .empty).writeReg 72 .rate).readReg (.state 0 .a) = 0) := by decide +kernel

theorem test_reg_constants : State.reset.readReg .id = 0x000000014B454343 ∧ State.reset.readReg .caps = 0x201 ∧
    (State.resetWith { Params.standard with hasX2 := false, roundsPerCycle := .twentyFour }).readReg .caps = 0x1800 ∧
    (State.reset.writeReg 0x100000088 .rate).readReg .rate = 0x88 ∧
    (State.reset.writeReg 0x1FF .ds).readReg .ds = 0xFF ∧
    (State.reset.writeReg 0xFFFFFFFFFFFFFFFD .ctrl).readReg .ctrl = 0x1 := by decide +kernel

/-- Register offsets of R30 and R44. -/
theorem test_reg_offsets : Reg.ofOffset 0x020 = .cmd ∧ Reg.ofOffset 0x068 = .dstB ∧ Reg.ofOffset 0x070 = .errAddr ∧
    Reg.ofOffset 0x078 = .reserved ∧ Reg.ofOffset 0x108 = .state 0 .b ∧ Reg.ofOffset 0x280 = .state 24 .a ∧
    Reg.ofOffset 0x290 = .reserved ∧ Reg.ofOffset 0x3F8 = .reserved := by decide +kernel

/-- The soft reset of V-REG, while busy. -/
theorem test_reg_soft_reset :
    ((busyWith .permute someOps .raw).writeReg 0x3 .ctrl).statusWord = 0 ∧
    ((busyWith .permute someOps .raw).writeReg 0x3 .ctrl).ie = false ∧
    ((busyWith .permute someOps .raw).writeReg 0x3 .ctrl).cmd = 0 ∧
    ((busyWith .permute someOps .raw).writeReg 0x3 .ctrl).regs = Operands.reset := by decide +kernel

/-- The first steps of P2: the host's write to the STATE window goes through the window. -/
theorem test_program_setlane : nextWith
    (step { State.reset with moves := programMoves Params.standard [.setlane .a 3 0x1234, .run .zero] })
    (fun t => t.statusWord == 0x300 && t.s0.lane 3 == 0x1234 && t.moves.length == 2) = true := by decide +kernel

/-- `wait` (R101): a poll that finds the block busy gives the engine a turn and polls again; one that finds it idle ends. -/
theorem test_program_wait :
    nextWith (step { busyWith .permute someOps .raw with moves := programMoves Params.standard [.wait] })
      (fun t => t.busy && t.rdata == 0x301 && t.moves == [.engine, .awaitIdle]) = true ∧
    nextWith (step { State.reset with moves := programMoves Params.standard [.wait] })
      (fun t => t.rdata == 0 && t.moves == []) = true := by decide +kernel

/-- R278, with DMA_COHERENT = 0: a byte stored while a command runs may be read old by the next command; once it is cleaned
before the CMD write, it may not. -/
theorem test_clean_before_command :
    let s := accepted { Params.standard with dmaCoherent := false } 0x2 someOps .raw
    let t := (s.hostStore 0x1000 7).complete
    (t.accept 0x3).staleFor 0x1000 = [someMem.read 0x1000] ∧
    ((t.cleanSpan ⟨0x1000, 4⟩).accept 0x3).staleFor 0x1000 = [] ∧
    ((t.cleanSpan ⟨0x1000, 4⟩).accept 0x3).dmaByte .a 0x1000 = 7 := by decide +kernel

/-- The interface of the host: the word of a row runs as the first command after reset. -/
theorem test_fetch_word : nextWith (step (State.reset.withFetchWord 64 0x2))
    (fun t => t.statusWord == 0x302 && t.s0.lane 24 == 0xEAF1FF7B5CECA249) = true := by decide +kernel

/-- Both memories of these tests are canonical. -/
theorem test_reset_memory_canonical : State.reset.mem.wf = true ∧ someMem.wf = true := by decide

/-! ## Witnesses: concrete states and operands that meet the hypotheses of the statements -/

/-- Any range of the standard platform that stays in the space is clear. -/
theorem rangeClear_standard {k : AccessKind} {a n : Nat} (h : a + n ≤ 2 ^ 64) : RangeClear Params.standard k a n :=
  ⟨h, fun _ _ _ => by cases k <;> rfl, rfl⟩

theorem busyWith_noneWritten (i : Instr) (o : Operands) (ph : Phase) : (busyWith i o ph).NoneWritten := rfl

theorem busyWith_undisturbed (i : Instr) (o : Operands) (ph : Phase) : (busyWith i o ph).Undisturbed :=
  ⟨rfl, .inl rfl⟩

theorem accepted_inv (p : Params) (c : Word) (o : Operands) (ph : Phase) : (accepted p c o ph).Inv where
  memCanonical := (by decide : someMem.wf = true)
  onBusInSpace := by intro c h; cases h
  snapshot := by intro c ops h; cases h; exact ⟨rfl, rfl⟩
  busyNotDone := fun _ => rfl
  idleStart := fun _ => rfl
  resetIdle := by intro h; cases h
  errNone := fun _ => ⟨rfl, rfl⟩
  errSome := by intro h; cases h
  addrOnlyBus := fun _ => rfl

/-- A dual HASH on the standard platform. -/
def dualHash : State := busyWith .hashSha3_256X2 someOps .empty

theorem busClear_standard {i : Instr} {o : Operands} {ph : Phase}
    (h : (jobOf i o).check Params.standard ph o = none) : (jobOf i o).BusClear Params.standard o :=
  (check_and_bus_of_ranges (i := i) (s := busyWith i o ph) (fun _ => rfl) (check_none.1 h).2.1 (check_none.1 h).2.2.1
    fun e he =>
      ⟨.inr (rangeClear_standard (rangeBad_false (check_none.1 h).2.2.2 e he).1),
       .inr (rangeClear_standard (rangeBad_false (check_none.1 h).2.2.2 e he).2)⟩).2

theorem witness_decoding : decode 0x20005 = .command .hashSha3_256 ∧ encode .hashSha3_256 = 0x20005 ∧
    Instr.hashSha3_256.alg = some .sha3_256 := by decide

theorem witness_StepRunsDecodedCommand :
    (busyWith .permute someOps .raw).eng = .busy (encode .permute) someOps ∧
    (busyWith .permute someOps .raw).resetIn = false ∧ decode (encode .permute) = .command .permute ∧
    (busyWith .permute someOps .raw).moves = [] ∧
    ({ busyWith .permute someOps .raw with moves := [.engine, .busLand] } : State).moves = .engine :: [.busLand] := by
  decide

theorem witness_IllegalWordCompletesWithErrIllegal :
    (accepted Params.standard 0x6 someOps .raw).eng = .busy 0x6 someOps ∧
    (accepted Params.standard 0x6 someOps .raw).resetIn = false ∧
    (accepted Params.standard 0x6 someOps .raw).moves = [] ∧ (CommandFields.ofWord 0x6).legal = false := by decide

theorem witness_NothingRunsWhileIdle :
    State.reset.moves = [] ∧ State.reset.eng = .idle ∧
    ({ busyWith .zero someOps .raw with resetIn := true } : State).moves = [] ∧
    ({ busyWith .zero someOps .raw with resetIn := true } : State).resetIn = true := by decide

theorem witness_ResetLeavesEverythingZero :
    (0x3 : Word).getLsbD 1 = true ∧ (∃ t, (busyWith .permute someOps .raw).take .resetAssert = .next t) ∧
    (∃ t, (busyWith .permute someOps .raw).take .powerCycle = .next t) ∧
    ({ State.reset with resetIn := true } : State).resetIn = true ∧
    ∃ t, ({ State.reset with resetIn := true } : State).take .resetRelease = .next t :=
  ⟨by decide, ⟨_, rfl⟩, ⟨_, rfl⟩, rfl, ⟨_, rfl⟩⟩

theorem witness_StepKeepsInvariant : dualHash.Inv ∧ ∃ t, step dualHash = .next t :=
  ⟨accepted_inv _ _ _ _, ⟨_, rfl⟩⟩

theorem witness_TablesMatchTheirGenerators : 0 < 24 ∧ 23 < 24 := by decide

theorem witness_XorByteChangesOneByte : (0 : Nat) < 200 ∧ 199 < 200 := by decide

/-- The shortest and the longest message of a block, at its boundary bytes. -/
theorem witness_ShortMessageImage : rateLegal 136 = true ∧ ([] : List Byte).length < 136 ∧
    (List.replicate 135 (0xAA : Byte)).length < 136 ∧ rateLegal 8 = true ∧ rateLegal 200 = true ∧
    0 < 200 ∧ 199 < 200 := by decide +kernel

/-- A rest shorter than a block, and one of a block and a byte. -/
theorem witness_AbsorbGoesBlockByBlock : rateLegal 8 = true ∧ ([1, 2, 3, 4, 5, 6, 7, 8] : List Byte).length = 8 ∧
    ([9] : List Byte).length < 8 ∧ 8 < ([1, 2, 3, 4, 5, 6, 7, 8, 9] : List Byte).length := by decide

/-- A whole block for the first clause, one byte less for the second; the first and the last capacity lane. -/
theorem witness_CapacityUntouchedByInput : rateLegal 136 = true ∧ 136 / 8 ≤ 17 ∧ 17 < 25 ∧ 136 / 8 ≤ 24 ∧ 24 < 25 ∧
    (List.replicate 136 (0xAA : Byte)).length ≤ 136 ∧ (List.replicate 135 (0xAA : Byte)).length < 136 := by
  decide +kernel

theorem witness_SqueezePermutesBeforeEveryBlock : (0 : Nat) < 2 ∧ 1 < 2 ∧ 0 < 136 ∧ 135 < 136 := by decide

theorem witness_OneShotOutputLengthAndPermutations : 0 < 168 ∧ 0 < 169 ∧ 167 < 169 ∧ 168 < 169 := by decide

theorem witness_InterleaveAndDeinterleave :
    ([1, 2, 3, 4, 5, 6, 7, 8] : List Byte).length = ([8, 7, 6, 5, 4, 3, 2, 1] : List Byte).length ∧
    ([1, 2, 3, 4, 5, 6, 7, 8] : List Byte).length % 8 = 0 ∧ 7 < 8 ∧ 8 * 0 + 7 < 8 := by decide

/-- A block with the dual-lane datapath and one without it, for ZERO and PERMUTE; the counting lanes of R136's example. -/
theorem witness_ZeroAndPermute : (busyWith .zeroX2 someOps .raw).params.hasX2 = true ∧
    (accepted { Params.standard with hasX2 := false } 0x101 someOps .raw).params.hasX2 = false ∧
    (List.range 25).map counting.lane = (List.range 25).map (BitVec.ofNat 64) := by decide +kernel

theorem witness_AbsorbLeavesThePaddedState :
    rateLegal (busyWith .absorb someOps .empty).operands.rate.toNat = true ∧
    RangeClear (busyWith .absorb someOps .empty).params .read (busyWith .absorb someOps .empty).operands.srcA.toNat
      (busyWith .absorb someOps .empty).operands.len.toNat :=
  ⟨by decide, rangeClear_standard (by decide)⟩

theorem witness_AbsorbX2LeavesBothPaddedStates :
    (busyWith .absorbX2 someOps .empty).params.hasX2 = true ∧
    rateLegal (busyWith .absorbX2 someOps .empty).operands.rate.toNat = true ∧
    RangeClear (busyWith .absorbX2 someOps .empty).params .read
      (busyWith .absorbX2 someOps .empty).operands.srcA.toNat (busyWith .absorbX2 someOps .empty).operands.len.toNat ∧
    RangeClear (busyWith .absorbX2 someOps .empty).params .read
      (busyWith .absorbX2 someOps .empty).operands.srcB.toNat (busyWith .absorbX2 someOps .empty).operands.len.toNat :=
  ⟨rfl, by decide, rangeClear_standard (by decide), rangeClear_standard (by decide)⟩

/-- With one block and with none. -/
theorem witness_SqueezeWritesItsBlocks : ∀ n ∈ [(0 : Word), 1],
    let s := busyWith .squeeze { someOps with nblocks := n } .absorbed
    s.mem.wf = true ∧ s.NoneWritten ∧ rateLegal s.operands.rate.toNat = true ∧ s.phase ≠ .empty ∧ s.phase ≠ .failed ∧
    RangeClear s.params .write s.operands.dstA.toNat (s.operands.nblocks.toNat * s.operands.rate.toNat) := by
  intro n hn
  rcases List.mem_pair.1 hn with rfl | rfl <;>
    exact ⟨by decide, busyWith_noneWritten _ _ _, by decide, by decide, by decide, rangeClear_standard (by decide)⟩

theorem witness_SqueezeX2WritesBothStreams :
    let s := busyWith .squeezeX2 someOps .absorbed
    s.params.hasX2 = true ∧ s.mem.wf = true ∧ s.NoneWritten ∧ rateLegal s.operands.rate.toNat = true ∧
    s.phase ≠ .empty ∧ s.phase ≠ .failed ∧
    RangeClear s.params .write s.operands.dstA.toNat (s.operands.nblocks.toNat * s.operands.rate.toNat) ∧
    RangeClear s.params .write s.operands.dstB.toNat (s.operands.nblocks.toNat * s.operands.rate.toNat) ∧
    dstDisjoint s.operands (s.operands.nblocks.toNat * s.operands.rate.toNat) :=
  ⟨rfl, by decide, busyWith_noneWritten _ _ _, by decide, by decide, by decide, rangeClear_standard (by decide),
    rangeClear_standard (by decide), by decide⟩

theorem witness_HashWritesTheDigest : ∀ g : Alg,
    let s := busyWith (Instr.hash g false) someOps .empty
    s.mem.wf = true ∧ s.NoneWritten ∧ RangeClear s.params .read s.operands.srcA.toNat s.operands.len.toNat ∧
    RangeClear s.params .write s.operands.dstA.toNat (outputLength g s.operands) := by
  intro g
  exact ⟨(by decide : someMem.wf = true), busyWith_noneWritten _ _ _, rangeClear_standard (by cases g <;> decide),
    rangeClear_standard (by cases g <;> decide)⟩

theorem witness_HashX2WritesBothDigests : ∀ g : Alg,
    let s := busyWith (Instr.hash g true) someOps .empty
    s.params.hasX2 = true ∧ s.mem.wf = true ∧ s.NoneWritten ∧
    RangeClear s.params .read s.operands.srcA.toNat s.operands.len.toNat ∧
    RangeClear s.params .read s.operands.srcB.toNat s.operands.len.toNat ∧
    RangeClear s.params .write s.operands.dstA.toNat (outputLength g s.operands) ∧
    RangeClear s.params .write s.operands.dstB.toNat (outputLength g s.operands) ∧
    dstDisjoint s.operands (outputLength g s.operands) := by
  intro g
  exact ⟨rfl, (by decide : someMem.wf = true), busyWith_noneWritten _ _ _, rangeClear_standard (by cases g <;> decide),
    rangeClear_standard (by cases g <;> decide), rangeClear_standard (by cases g <;> decide),
    rangeClear_standard (by cases g <;> decide), by cases g <;> decide⟩

/-- One state for each outcome of the checks, in their order, the range check at its boundary. -/
theorem witness_ChecksInOrder :
    expectedError Params.standard .raw someOps 0x6 = some .illegal ∧
    expectedError { Params.standard with hasX2 := false } .empty { someOps with rate := 0 } 0x104 = some .noX2 ∧
    expectedError Params.standard .empty { someOps with rate := 0 } 0x4 = some .rate ∧
    expectedError Params.standard .empty someOps 0x4 = some .seq ∧
    expectedError Params.standard .raw { someOps with srcA := 0xFFFFFFFFFFFFFFF0, len := 0x11 } 0x3 = some .range ∧
    expectedError Params.standard .raw { someOps with srcA := 0xFFFFFFFFFFFFFFF0, len := 0x10 } 0x3 = none ∧
    (accepted Params.standard 0x3 someOps .raw).eng = .busy 0x3 someOps ∧
    (accepted Params.standard 0x3 someOps .raw).resetIn = false ∧
    (accepted Params.standard 0x3 someOps .raw).moves = [] := by decide +kernel

theorem witness_X2NeedsTheDatapath :
    Instr.permuteX2.x2 = true ∧
    (accepted { Params.standard with hasX2 := false } 0x102 someOps .raw).params.hasX2 = false ∧
    dualHash.params.hasX2 = true ∧ dualHash.errCode ≠ .noX2 ∧ ∃ t, exec .hashSha3_256X2 dualHash = .next t :=
  ⟨rfl, rfl, rfl, by decide, ⟨_, rfl⟩⟩

/-- A rate that is no multiple of 8, one below 8 and one above 200. -/
theorem witness_IllegalRateIsAnError :
    Instr.squeezeX2.op = .squeeze ∧ (busyWith .squeezeX2 { someOps with rate := 7 } .raw).params.hasX2 = true ∧
    (busyWith .squeezeX2 { someOps with rate := 7 } .raw).operands.rate.toNat % 8 ≠ 0 ∧
    (busyWith .absorb { someOps with rate := 0 } .raw).operands.rate.toNat < 8 ∧
    200 < (busyWith .absorb { someOps with rate := 208 } .raw).operands.rate.toNat := by decide

theorem witness_SqueezeNeedsAPrimedState :
    Instr.squeeze.op = .squeeze ∧ Instr.squeeze.x2 = false ∧
    rateLegal (busyWith .squeeze someOps .empty).operands.rate.toNat = true ∧
    (busyWith .squeeze someOps .empty).phase = .empty ∧ (busyWith .squeeze someOps .failed).phase = .failed := by decide

/-- A destination range one byte too long, and one that ends exactly at 2^64; the same for a source range. -/
theorem witness_RangePastTheTopIsAnError :
    let long := busyWith .hashShake128 { someOps with outlen := 0xFFFFFFFFFFFFFFFF, dstA := 2 } .empty
    let exact := busyWith .hashShake128 { someOps with outlen := 0xFFFFFFFFFFFFFFFF, dstA := 1 } .empty
    let longSrc := busyWith .absorb { someOps with srcA := 0xFFFFFFFFFFFFFFF0, len := 0x11 } .empty
    Instr.hashShake128.x2 = false ∧ rateLegal longSrc.operands.rate.toNat = true ∧
    2 ^ 64 < long.operands.dst .a + (jobOf .hashShake128 long.operands).dstLen ∧
    exact.operands.dst .a + (jobOf .hashShake128 exact.operands).dstLen ≤ 2 ^ 64 ∧
    exact.operands.src .a + (jobOf .hashShake128 exact.operands).srcLen ≤ 2 ^ 64 ∧
    2 ^ 64 < longSrc.operands.src .a + (jobOf .absorb longSrc.operands).srcLen := by decide +kernel

/-- V-ERR-8: a refused read. -/
theorem witness_RefusedReadStopsTheCommand :
    let s := accepted refusing (encode .hashSha3_256) someOps .empty
    (jobOf .hashSha3_256 s.operands).check s.params s.phase s.operands = none ∧
    (jobOf .hashSha3_256 s.operands).touchesDevice s.params s.operands = false ∧
    ((jobOf .hashSha3_256 s.operands).srcAddrs s.operands).all
      (fun a => !admits s.params a .read || responds s.params a .read) = true ∧
    0x1002 ∈ (jobOf .hashSha3_256 s.operands).srcAddrs s.operands ∧ admits s.params 0x1002 .read = false := by
  decide +kernel

/-- V-ERR-9: a refused write. -/
theorem witness_RefusedWriteStopsTheCommand :
    let s := accepted refusing (encode .hashSha3_256) { someOps with len := 0 } .empty
    s.mem.wf = true ∧ (jobOf .hashSha3_256 s.operands).check s.params s.phase s.operands = none ∧
    (jobOf .hashSha3_256 s.operands).touchesDevice s.params s.operands = false ∧
    ((jobOf .hashSha3_256 s.operands).srcAddrs s.operands).all (answers s.params .read) = true ∧
    ((jobOf .hashSha3_256 s.operands).dstAddrs s.operands).all
      (fun a => !admits s.params a .write || responds s.params a .write) = true ∧
    0x2010 ∈ (jobOf .hashSha3_256 s.operands).dstAddrs s.operands ∧ admits s.params 0x2010 .write = false := by
  decide +kernel

/-- A source byte whose read gets no response, and a destination byte whose write gets none. -/
theorem witness_SilentPlatformHangsTheEngine :
    ∀ p ∈ [{ Params.standard with silentReads := [⟨0x1002, 1⟩] }, { Params.standard with silentWrites := [⟨0x2010, 1⟩] }],
    let s := accepted p (encode .hashSha3_256) someOps .empty
    s.eng = .busy (encode .hashSha3_256) someOps ∧
    (jobOf .hashSha3_256 s.operands).check s.params s.phase s.operands = none ∧
    (jobOf .hashSha3_256 s.operands).touchesDevice s.params s.operands = false ∧
    ((jobOf .hashSha3_256 s.operands).srcAddrs s.operands).all (admits s.params · .read) = true ∧
    ((jobOf .hashSha3_256 s.operands).dstAddrs s.operands).all (admits s.params · .write) = true ∧
    (((jobOf .hashSha3_256 s.operands).srcAddrs s.operands).any (fun x => !responds s.params x .read) ||
      ((jobOf .hashSha3_256 s.operands).dstAddrs s.operands).any (fun x => !responds s.params x .write)) = true := by
  intro p hp
  rcases List.mem_pair.1 hp with rfl | rfl <;> decide +kernel

/-- A block that holds an error runs a command (FirstErrorIsKept, EveryCompletionSetsDone and the frames). -/
theorem witness_commands_answer :
    ({ dualHash with err := true, errCode := .seq } : State).err = true ∧ dualHash.busy = true ∧
    dualHash.mem.wf = true ∧ (∃ t, exec .hashSha3_256X2 { dualHash with err := true, errCode := .seq } = .next t) ∧
    (∃ t, exec .hashSha3_256X2 dualHash = .next t) ∧ (∃ t, exec .zero dualHash = .next t) ∧
    (∃ t, exec .squeeze (busyWith .squeeze someOps .raw) = .next t) ∧ Instr.zero.op = .zero ∧
    Instr.squeeze.op = .squeeze ∧ Instr.hashSha3_256X2.alg = some .sha3_256 ∧ Instr.zero.x2 = false :=
  ⟨rfl, rfl, by decide, ⟨_, rfl⟩, ⟨_, rfl⟩, ⟨_, rfl⟩, ⟨_, rfl⟩, rfl, rfl, rfl, rfl⟩

/-- Addresses just outside the two destination ranges of the dual HASH. -/
theorem witness_CommandsWriteInTheirRangesOnly :
    ¬inRange dualHash.operands.dstA.toNat (outputLength .sha3_256 dualHash.operands) 0x1FFF ∧
    ¬inRange dualHash.operands.dstA.toNat (outputLength .sha3_256 dualHash.operands) 0x2020 ∧
    ¬inRange dualHash.operands.dstB.toNat (outputLength .sha3_256 dualHash.operands) 0x2020 ∧
    ¬inRange (busyWith .squeeze someOps .raw).operands.dstA.toNat
      ((busyWith .squeeze someOps .raw).operands.nblocks.toNat *
        (busyWith .squeeze someOps .raw).operands.rate.toNat) 0x2088 := by decide

/-- Each kind of move that changes a lane: the engine, a STATE write, a soft reset, and the reset input. -/
theorem witness_OnlyTheseMovesChangeLanes :
    nextWith ((busyWith .permute someOps .raw).take .engine) (fun t => t.s0 != Lanes.zero) = true ∧
    nextWith (State.reset.take (.regWrite 0x100 8 7)) (fun t => t.phase != State.reset.phase) = true ∧
    nextWith ((accepted Params.standard 0x2 someOps .raw).take (.regWrite 0x10 8 2)) (fun t => t.phase != .raw) = true ∧
    nextWith (({ State.reset with s0 := counting } : State).take .resetAssert) (fun t => t.s0 != counting) = true := by
  decide +kernel

theorem witness_RunningCommandIsLeftAlone :
    let s := { busyWith .permute someOps .raw with moves := [.regWrite 0x28 8 72] }
    s.busy = true ∧ nextWith (step s) (fun t => t.busy) = true := by decide +kernel

/-- An idle block, a busy one, and one without stream B's registers. -/
theorem witness_register_writes :
    State.reset.busy = false ∧ (busyWith .permute someOps .raw).busy = true ∧
    laneExists { Params.standard with hasX2 := false } .b = false ∧ laneExists State.reset.params .b = true ∧
    (0x3 : Word).getLsbD 1 = true ∧ (0x1 : Word).getLsbD 1 = false ∧
    Reg.rate ∈ [Reg.cmd, .rate, .ds, .len, .outlen, .nblocks, .srcA, .srcB, .dstA, .dstB] ∧
    (∃ t, State.reset.take (.regRead 0x18 8) = .next t) ∧ (∃ t, State.reset.take .resetAssert = .next t) :=
  ⟨rfl, rfl, rfl, rfl, by decide, by decide, by decide, ⟨_, rfl⟩, ⟨_, rfl⟩⟩

/-- The edges of the reserved ranges of R30. -/
theorem witness_ReadOnlyAndReservedRegisters :
    (0x078 % 8 = 0 ∧ 0x078 ≤ 0x078 ∧ 0x078 < 0x100) ∧ (0x0F8 % 8 = 0 ∧ 0x0F8 < 0x100) ∧
    (0x290 % 8 = 0 ∧ 0x290 ≤ 0x290 ∧ 0x290 < 0x400) ∧ 0x3F8 % 8 = 0 ∧ 0x3F8 < 0x400 := by decide

theorem witness_IrqFollowsIeAndDone :
    (busyWith .zero someOps .raw).busy = true ∧
    nextWith (exec .zero (busyWith .zero someOps .raw)) (fun t => !t.busy) = true ∧
    State.reset.busy = false ∧ (0x2 : Word).getLsbD 1 = true ∧ (0x1 : Word).getLsbD 1 = false := by decide +kernel

/-- An access of the wrong width, one at an offset that is no multiple of 8, and one as the block answers. -/
theorem witness_HostAccessShape :
    windowOffset State.reset.params 0x28 = some 0x28 ∧ windowOffset State.reset.params 0x3FC = some 0x3FC ∧
    State.reset.resetIn = false ∧ State.reset.outOfContract = false ∧ ¬((4 : Nat) = 8 ∧ 0x28 % 8 = 0) ∧
    ¬((8 : Nat) = 8 ∧ 0x3FC % 8 = 0) ∧ ((8 : Nat) = 8 ∧ 0x28 % 8 = 0) := by decide +kernel

theorem witness_ResetAbandonsTheCommand :
    dualHash.Inv ∧ (0x2 : Word).getLsbD 1 = true ∧ (∃ t, dualHash.take .resetAssert = .next t) ∧
    (∃ t, dualHash.take .powerCycle = .next t) ∧ State.reset.Inv ∧ State.reset.busy = false :=
  ⟨accepted_inv _ _ _ _, by decide, ⟨_, rfl⟩, ⟨_, rfl⟩,
    ⟨by decide, by (intro c h; cases h), by (intro c o h; cases h), fun _ => rfl, by (intro h; cases h),
      by (intro h; cases h), fun _ => ⟨rfl, rfl⟩, by (intro h; cases h), fun _ => rfl⟩, rfl⟩

/-- While a HASH runs, the host stores to a source byte and loads a destination byte. -/
theorem witness_ReadsReturnHeldBytes :
    let s := busyWith .hashSha3_256 someOps .empty
    s.params.dmaCoherent = true ∧ s.mem.wf = true ∧ s.eng = .busy (encode .hashSha3_256) someOps ∧
    decode (encode .hashSha3_256) = .command .hashSha3_256 ∧
    StreamId.a ∈ (jobOf .hashSha3_256 someOps).streams ∧
    (∃ t, s.take (.memStore 0x1000 7) = .next t) ∧ ∃ t, s.take (.memLoad 0x2000) = .next t :=
  ⟨rfl, by decide, rfl, by decide, by decide, ⟨_, rfl⟩, ⟨_, rfl⟩⟩

/-- Destination ranges of 32 bytes at 0x2000 and 0x2010, nothing written yet: the bytes of one alone, the bytes of both, at their edges,
and one outside. -/
theorem witness_OverlappedByteIsOneOfTheTwo :
    let s := busyWith .hashSha3_256X2 { someOps with dstB := 0x2010 } .empty
    let n := (jobOf .hashSha3_256X2 s.operands).dstLen
    Instr.hashSha3_256X2.x2 = true ∧ s.mem.wf = true ∧ s.NoneWritten ∧
    (jobOf .hashSha3_256X2 s.operands).check s.params s.phase s.operands = none ∧
    (jobOf .hashSha3_256X2 s.operands).BusClear s.params s.operands ∧
    (inRange (s.operands.dst .a) n 0x200F ∧ ¬inRange (s.operands.dst .b) n 0x200F) ∧
    (inRange (s.operands.dst .b) n 0x2020 ∧ ¬inRange (s.operands.dst .a) n 0x2020) ∧
    (inRange (s.operands.dst .a) n 0x2010 ∧ inRange (s.operands.dst .b) n 0x2010) ∧
    (¬inRange (s.operands.dst .a) n 0x2030 ∧ ¬inRange (s.operands.dst .b) n 0x2030) :=
  ⟨rfl, by decide, rfl, by decide +kernel,
    busClear_standard (i := .hashSha3_256X2) (ph := .empty) (by decide +kernel),
    by decide +kernel, by decide +kernel, by decide +kernel, by decide +kernel⟩

/-- The host stores to the first destination byte of a running HASH, which then runs. -/
theorem witness_OverlappedByteIsOneOfTheTwo_hostStore :
    let s := busyWith .hashSha3_256X2 someOps .empty
    ∃ u, s.mem.wf = true ∧ s.take (.memStore 0x2000 7) = .next u ∧
      (jobOf .hashSha3_256X2 u.operands).check u.params u.phase u.operands = none ∧
      (jobOf .hashSha3_256X2 u.operands).BusClear u.params u.operands := by
  refine ⟨_, by decide, rfl, ?_⟩
  have h : ∀ u : State, u.operands = someOps → u.params = Params.standard → u.phase = .empty →
      (jobOf .hashSha3_256X2 u.operands).check u.params u.phase u.operands = none ∧
      (jobOf .hashSha3_256X2 u.operands).BusClear u.params u.operands := by
    intro u h1 h2 h3
    rw [h1, h2, h3]
    exact ⟨by decide +kernel, busClear_standard (i := .hashSha3_256X2) (ph := .empty) (by decide +kernel)⟩
  exact h _ (by simp [State.hostStore, State.operands]; rfl) (by simp [State.hostStore]; rfl) (by simp [State.hostStore]; rfl)

/-- From a RAW state, at 0x2000 and at 0x3000: two blocks and one, none and one, one and none, none and none. -/
theorem witness_SqueezeIsIncremental : ∀ n ∈ [2 + 1, 0 + 1, 1 + 0, 0 + 0],
    let s := { State.reset with regs := someOps, phase := .raw }
    Instr.squeezeX2.op = .squeeze ∧ s.mem.wf = true ∧ s.eng = .idle ∧ rateLegal s.regs.rate.toNat = true ∧
    s.phase ≠ .empty ∧ s.phase ≠ .failed ∧ 0x2000 < 2 ^ 64 ∧ 0x3000 < 2 ^ 64 ∧
    RangeClear s.params .write 0x2000 (n * s.regs.rate.toNat) ∧ s.params.hasX2 = true ∧
    RangeClear s.params .write 0x3000 (n * s.regs.rate.toNat) ∧ 0x2000 + n * s.regs.rate.toNat ≤ 0x3000 := by
  intro n hn
  have h : n ≤ 3 := by simp at hn; omega
  have hr : someOps.rate.toNat = 136 := by decide
  exact ⟨rfl, by decide, rfl, by decide, by decide, by decide, by decide, by decide,
    rangeClear_standard (by show _ + _ * someOps.rate.toNat ≤ _; rw [hr]; omega), rfl,
    rangeClear_standard (by show _ + _ * someOps.rate.toNat ≤ _; rw [hr]; omega),
    by show _ + _ * someOps.rate.toNat ≤ _; rw [hr]; omega⟩

/-- A whole block of SHAKE128 output, and none. -/
theorem witness_HashIsAbsorbThenSqueeze : ∀ n ∈ [(0 : Word), 168],
    let s := { State.reset with regs := { someOps with outlen := n } }
    s.mem.wf = true ∧ s.eng = .idle ∧ outputLength .shake128 s.regs % (algRow .shake128).rate = 0 ∧
    RangeClear s.params .read s.regs.srcA.toNat s.regs.len.toNat ∧
    RangeClear s.params .write s.regs.dstA.toNat (outputLength .shake128 s.regs) ∧ s.params.hasX2 = true ∧
    RangeClear s.params .read s.regs.srcB.toNat s.regs.len.toNat ∧
    RangeClear s.params .write s.regs.dstB.toNat (outputLength .shake128 s.regs) ∧
    dstDisjoint s.regs (outputLength .shake128 s.regs) := by
  intro n hn
  rcases List.mem_pair.1 hn with rfl | rfl <;>
    exact ⟨by decide, rfl, by decide, rangeClear_standard (by decide), rangeClear_standard (by decide), rfl,
      rangeClear_standard (by decide), rangeClear_standard (by decide), by decide⟩

theorem witness_X2IsTheScalarCommandTwice :
    Instr.hashSha3_256X2.x2 = true ∧ dualHash.mem.wf = true ∧ dualHash.Undisturbed ∧
    (jobOf .hashSha3_256X2 dualHash.operands).check dualHash.params dualHash.phase dualHash.operands = none ∧
    (jobOf .hashSha3_256X2 dualHash.operands).BusClear dualHash.params dualHash.operands ∧
    dstDisjoint dualHash.operands (jobOf .hashSha3_256X2 dualHash.operands).dstLen :=
  ⟨rfl, by decide, busyWith_undisturbed _ _ _, by decide +kernel,
    busClear_standard (i := .hashSha3_256X2) (ph := .empty) (by decide +kernel), by decide +kernel⟩

/-- Two blocks with the same message and operands, and different lanes, PHASE and flags. -/
theorem witness_ResultsDependOnOperandsAndMessage :
    let s' := { dualHash with s0 := counting, phase := .failed, ie := true }
    Instr.hashSha3_256X2.op = .hash ∧ dualHash.operands = s'.operands ∧ s'.mem.wf = true ∧ dualHash.Undisturbed ∧ s'.Undisturbed ∧
    (jobOf .hashSha3_256X2 dualHash.operands).check s'.params s'.phase dualHash.operands = none ∧
    (jobOf .hashSha3_256X2 dualHash.operands).BusClear s'.params dualHash.operands ∧
    dstDisjoint dualHash.operands (jobOf .hashSha3_256X2 dualHash.operands).dstLen ∧
    (∀ x ∈ (jobOf .hashSha3_256X2 dualHash.operands).srcAddrs dualHash.operands, dualHash.mem.read x = s'.mem.read x) :=
  ⟨rfl, rfl, by decide, busyWith_undisturbed _ _ _, ⟨rfl, .inl rfl⟩, by decide +kernel,
    busClear_standard (i := .hashSha3_256X2) (ph := .empty) (by decide +kernel), by decide +kernel, fun _ _ => rfl⟩

theorem witness_EveryAcceptedCommandEnds :
    (accepted Params.standard 0x6 someOps .raw).busy = true ∧ dualHash.busy = true ∧ dualHash.resetIn = false ∧
    dualHash.moves = [] ∧ dualHash.params.silentReads = [] ∧ dualHash.params.silentWrites = [] ∧
    dualHash.params.devices = [] := by decide

/-- A wait on a running command and one on an idle block. -/
theorem witness_EveryAcceptedCommandEnds_wait : ∀ s ∈ [dualHash, State.reset],
    ({ s with moves := [.awaitIdle] } : State).moves = [.awaitIdle] ∧ s.resetIn = false ∧ s.outOfContract = false := by
  intro s hs
  rcases List.mem_pair.1 hs with rfl | rfl <;> decide +kernel

end Sys2Proof.Tests
end

/-! PROOFS. The family 10_state.md: the capacity lanes under input, every way to reset, the invariant at reset, who may change a
lane or PHASE, and irq. -/

namespace Sys2Proof

/-! ## The capacity lanes (10_state.md R23) -/

/-- A byte string XORed in below lane i leaves lane i alone. -/
theorem lane_xorBytes_of_le (L : Lanes) {j i : Nat} (bs : List Byte) (h : j + bs.length ≤ 8 * i) (hi : i < 25) :
    (xorBytes L j bs).lane i = L.lane i := by
  induction bs generalizing L j with
  | nil => rfl
  | cons b bs ih =>
    rw [List.length_cons] at h
    rw [xorBytes_cons, ih _ (by omega), Lanes.lane_xorByte_ne L b (by omega) hi (by omega)]

/-- Padding touches bytes r and R - 1 alone, so it leaves every lane past the rate region as it was (41_sponge.md R152). -/
theorem lane_pad_of_le (L : Lanes) (ds : Byte) {r R i : Nat} (hr : r < R) (hR : R ≤ 8 * i) (hi : i < 25) :
    (pad L r R ds).lane i = L.lane i := by
  rw [pad, Lanes.lane_xorByte_ne _ _ (by omega) hi (by omega), Lanes.lane_xorByte_ne _ _ (by omega) hi (by omega)]

/-- Settles O17: the R bytes of the rate region end where lane R/8 begins. -/
theorem capacityUntouchedByInput : Obligations.CapacityUntouchedByInput := by
  intro L R ds msg i hR hRi hi
  have hle : R ≤ 8 * i := by
    simp only [rateLegal, Bool.and_eq_true, decide_eq_true_eq] at hR
    omega
  exact ⟨fun hm => lane_xorBytes_of_le L msg (by omega) hi, fun hm => lane_pad_of_le L ds hm hle hi⟩

end Sys2Proof

namespace Sys2Proof.Machine

/-! ## Register writes, register by register (43_register_access.md R214 to R218) -/

theorem State.writeReg_ctrl_srst (s : State) {v : Word} (h : v.getLsbD 1 = true) : s.writeReg v .ctrl = s.softReset :=
  if_pos h

theorem State.writeReg_ctrl_ie (s : State) {v : Word} (h : v.getLsbD 1 = false) :
    s.writeReg v .ctrl = { s with ie := v.getLsbD 0 } := if_neg (ne_true_of_eq_false h)

@[simp] theorem State.writeReg_status (s : State) (v : Word) : s.writeReg v .status = s.clearFlags v := rfl

theorem State.unlessBusy_of_idle {s : State} (h : s.busy = false) (t : State) : s.unlessBusy t = t := by
  simp [State.unlessBusy, h]

theorem State.writeReg_cmd_of_idle {s : State} (h : s.busy = false) (v : Word) : s.writeReg v .cmd = s.accept v :=
  State.unlessBusy_of_idle h _

/-! ## The moves of the agents -/

/-- A move that needs the running command within its contract, and answers, had the effect it names (20_memory.md R70). -/
theorem next_of_guarded {refuse : Bool} {reason : Refusal} {r : Result} {t : State}
    (h : (if refuse = true then .refused reason else r) = .next t) : r = .next t := by
  split at h
  · cases h
  · exact h

theorem take_resetAssert {s t : State} (h : s.take .resetAssert = .next t) : t = { s.resetBlock with resetIn := true } := by
  cases next_of_guarded h; rfl

theorem take_resetRelease {s t : State} (hr : s.resetIn = true) (h : s.take .resetRelease = .next t) :
    t = { s.resetBlock with resetIn := false } := by
  have h' := next_of_guarded h
  rw [if_pos hr] at h'
  cases h'; rfl

theorem take_powerCycle {s t : State} (h : s.take .powerCycle = .next t) : t = { s.resetBlock with resetIn := false } := by
  cases next_of_guarded h; rfl

/-! ## Reset and the invariant (10_state.md R46) -/

theorem State.statusWord_resetWith (p : Params) : (State.resetWith p).statusWord = 0 := by
  simp [State.statusWord, State.resetWith, State.busy, flagWord, Phase.code, ErrCode.code]

theorem State.resetWith_blockReset (p : Params) : (State.resetWith p).BlockReset where
  lanesA i _ := Lanes.lane_zero i
  lanesB i _ := Lanes.lane_zero i
  phaseEmpty := rfl
  engIdle := rfl
  nothingDone := rfl
  statusZero := State.statusWord_resetWith p
  errAddrZero := rfl
  ieClear := rfl
  cmdZero := rfl
  rateZero := rfl
  dsZero := rfl
  lenZero := rfl
  outlenZero := rfl
  nblocksZero := rfl
  srcAZero := rfl
  srcBZero := rfl
  dstAZero := rfl
  dstBZero := rfl
  irqLow := rfl

/-- The block's own elements are those of `State.resetWith`, whatever the platform and the host keep. -/
theorem State.resetBlock_blockReset (s : State) : s.resetBlock.BlockReset :=
  { State.resetWith_blockReset s.params with }

theorem State.softReset_blockReset (s : State) : s.softReset.BlockReset := { s.resetBlock_blockReset with }

/-- The reset input is no element of the block: what a reset leaves does not depend on its level. -/
theorem State.resetBlock_blockReset_of_input (s : State) (level : Bool) :
    State.BlockReset { s.resetBlock with resetIn := level } := { s.resetBlock_blockReset with }

/-- Settles O8: each way to reset leaves the elements of `State.resetWith`. -/
theorem resetLeavesEverythingZero : Obligations.ResetLeavesEverythingZero := by
  refine ⟨fun p => ⟨State.resetWith_blockReset p, rfl⟩, fun s v hv => ?_, fun s t h => ?_, fun s t hr h => ?_, fun s t h => ?_⟩
  · rw [State.writeReg_ctrl_srst s hv]
    exact ⟨s.softReset_blockReset, rfl⟩
  · obtain rfl := take_resetAssert h
    exact ⟨s.resetBlock_blockReset_of_input true, rfl, rfl⟩
  · obtain rfl := take_resetRelease hr h
    exact ⟨s.resetBlock_blockReset_of_input false, rfl, rfl⟩
  · obtain rfl := take_powerCycle h
    exact ⟨s.resetBlock_blockReset_of_input false, rfl, rfl⟩

/-- Settles O9: the memory is empty, the engine idle and no error recorded. -/
theorem invariantHoldsAtReset : Obligations.InvariantHoldsAtReset := fun _ =>
  { memCanonical := Memory.wf_nil
    onBusInSpace := fun _ h => nomatch h
    snapshot := fun _ _ h => nomatch h
    idleStart := fun _ => rfl
    busyNotDone := fun _ => rfl
    resetIdle := fun _ => rfl
    errNone := fun _ => ⟨rfl, rfl⟩
    errSome := fun h => nomatch h
    addrOnlyBus := fun _ => rfl }

/-! ## Who may change a lane or PHASE (10_state.md R24) -/

/-- Both streams' lanes and PHASE are as before. -/
def State.SameSponge (s t : State) : Prop := t.s0 = s.s0 ∧ t.s1 = s.s1 ∧ t.phase = s.phase

theorem State.SameSponge.refl {s : State} : s.SameSponge s := ⟨rfl, rfl, rfl⟩

/-- The busy lock adds no change of its own. -/
theorem sameSponge_unlessBusy {s t : State} (h : s.SameSponge t) : s.SameSponge (s.unlessBusy t) := by
  unfold State.unlessBusy
  split
  · exact ⟨rfl, rfl, rfl⟩
  · exact h

/-- A register write leaves lanes and PHASE alone, unless it goes to a STATE register or is a soft reset. -/
theorem writeReg_sponge_cases (s : State) (v : Word) (r : Reg) :
    s.SameSponge (s.writeReg v r) ∨ (∃ i e, r = .state i e) ∨ (r = .ctrl ∧ v.getLsbD 1 = true) := by
  cases r with
  | id | caps | errAddr | reserved => exact .inl .refl
  | status => exact .inl ⟨rfl, rfl, rfl⟩
  | ctrl =>
    cases hv : v.getLsbD 1 with
    | true => exact .inr (.inr ⟨rfl, rfl⟩)
    | false =>
      rw [State.writeReg_ctrl_ie s hv]
      exact .inl ⟨rfl, rfl, rfl⟩
  | cmd | rate | ds | len | outlen | nblocks | srcA | srcB | dstA | dstB =>
    exact .inl (sameSponge_unlessBusy ⟨rfl, rfl, rfl⟩)
  | state i e => exact .inr (.inl ⟨i, e, rfl⟩)

/-- The engine's turn changes nothing unless a command runs (43_register_access.md R210). -/
theorem engineTurn_of_idle {s : State} (h : s.busy = false) : s.engineTurn = .next s := by
  unfold State.engineTurn
  cases he : s.eng with
  | idle => simp
  | busy c ops => simp [State.busy, he] at h

theorem sameSponge_hostStore (s : State) (a : Nat) (b : Byte) : s.SameSponge (s.hostStore a b) := by
  simp [State.SameSponge, State.hostStore]

theorem sameSponge_hostLoad (s : State) (a : Nat) : s.SameSponge (s.hostLoad a) := by
  simp [State.SameSponge, State.hostLoad]

theorem sameSponge_cleanSpan (s : State) (sp : Span) : s.SameSponge (s.cleanSpan sp) := by
  simp [State.SameSponge, State.cleanSpan]

theorem sameSponge_landInFlight (s : State) : s.SameSponge s.landInFlight := by
  unfold State.landInFlight
  split
  · exact .refl
  · simp [State.SameSponge]

/-- What one move of any agent can do to the lanes and PHASE. -/
theorem take_sponge_cases {s t : State} {m : Move} (h : s.take m = .next t) :
    s.SameSponge t ∨
    (m = .engine ∧ s.busy = true) ∨
    (∃ addr size v off, m = .regWrite addr size v ∧ windowOffset s.params addr = some off ∧
      ((∃ i e, Reg.ofOffset off = .state i e) ∨ (Reg.ofOffset off = .ctrl ∧ v.getLsbD 1 = true))) ∨
    m = .resetAssert ∨ m = .resetRelease ∨ m = .powerCycle := by
  cases m with
  | engine =>
    cases hb : s.busy with
    | true => exact .inr (.inl ⟨rfl, rfl⟩)
    | false =>
      cases (engineTurn_of_idle hb).symm.trans h
      exact .inl .refl
  | regWrite addr size v =>
    obtain ⟨off, ho, -, -, -, rfl⟩ := access_next (next_of_guarded h)
    exact (writeReg_sponge_cases s v (Reg.ofOffset off)).imp id fun hr => .inr (.inl ⟨addr, size, v, off, rfl, ho, hr⟩)
  | regRead addr size =>
    obtain ⟨off, -, -, -, -, rfl⟩ := access_next (next_of_guarded h)
    exact .inl ⟨rfl, rfl, rfl⟩
  | awaitIdle =>
    cases next_of_guarded (next_of_guarded h)
    exact .inl ⟨rfl, rfl, rfl⟩
  | memStore addr b =>
    cases next_of_guarded h
    exact .inl (sameSponge_hostStore s _ b)
  | memLoad addr =>
    cases next_of_guarded h
    exact .inl (sameSponge_hostLoad s _)
  | cacheClean sp =>
    cases h
    exact .inl (sameSponge_cleanSpan s sp)
  | cacheInvalidate sp =>
    cases h
    exact .inl ⟨rfl, rfl, rfl⟩
  | busLand =>
    cases h
    exact .inl (sameSponge_landInFlight s)
  | resetAssert | resetRelease | powerCycle => simp

/-- Settles O42: every other move keeps lanes and PHASE. -/
theorem onlyTheseMovesChangeLanes : Obligations.OnlyTheseMovesChangeLanes := by
  intro s t m h hchanged
  refine (take_sponge_cases h).resolve_left ?_
  rintro ⟨h0, h1, hp⟩
  rcases hchanged with hc | hc | hc
  · exact hc h0
  · exact hc h1
  · exact hc hp

/-! ## irq (10_state.md R45; 43_register_access.md R229) -/

theorem irq_iff (s : State) : s.irq = true ↔ s.ie = true ∧ s.done = true := by simp [State.irq]

theorem irq_of_done {s : State} (h : s.done = true) : s.irq = s.ie := by simp [State.irq, h]

theorem irq_of_not_done {s : State} (h : s.done = false) : s.irq = false := by simp [State.irq, h]

@[simp] theorem fail_done (j : Job) (s : State) (e : ErrCode) (a : Nat) : (j.fail s e a).done = true := by simp [Job.fail]

@[simp] theorem fail_ie (j : Job) (s : State) (e : ErrCode) (a : Nat) : (j.fail s e a).ie = s.ie := by simp [Job.fail]

@[simp] theorem finish_done (j : Job) (s : State) : (j.finish s).done = true := rfl

@[simp] theorem finish_ie (j : Job) (s : State) : (j.finish s).ie = s.ie := by simp [Job.finish]

/-- A command completes, with or without an error: DONE set and IE as it was; or it waits (43_register_access.md R228, R230). -/
theorem exec_completes_or_waits {i : Instr} {s t : State} (h : exec i s = .next t) :
    (t.done = true ∧ t.ie = s.ie) ∨ t = s.hang := by
  rcases exec_next_cases h with ⟨e, -, rfl⟩ | ⟨-, ⟨a, -, -, rfl⟩ | rfl | ⟨-, ⟨a, -, -, rfl⟩ | rfl⟩⟩
  · exact .inl ⟨by simp, by simp⟩
  · exact .inl ⟨by simp, by simp⟩
  · exact .inr rfl
  · exact .inl ⟨by simp, by simp⟩
  · exact .inl ⟨by simp, by simp⟩

/-- Settles O51: a command that ended was not left waiting, and each other event sets IE or DONE as R229 says. -/
theorem irqFollowsIeAndDone : Obligations.IrqFollowsIeAndDone := by
  intro s v
  refine ⟨irq_iff s, fun i t hs h ht => ?_, fun hv => ?_, fun hb => ?_, fun hv => ?_, fun hv => ?_, fun t h => ?_⟩
  · rcases exec_completes_or_waits h with ⟨hd, hie⟩ | rfl
    · rw [irq_of_done hd, hie]
    · have hwaits : s.hang.busy = s.busy := rfl
      rw [hwaits, hs] at ht
      cases ht
  · exact irq_of_not_done (by simp [hv])
  · rw [State.writeReg_cmd_of_idle hb]
    exact irq_of_not_done rfl
  · rw [State.writeReg_ctrl_ie s hv]
    rfl
  · rw [State.writeReg_ctrl_srst s hv]
    exact s.softReset_blockReset.irqLow
  · obtain rfl := take_resetAssert h
    exact (s.resetBlock_blockReset_of_input true).irqLow

end Sys2Proof.Machine

/-! PROOFS. The family 20_memory.md: the byte view of a state, window accesses, the bytes a command may change, and what reads
return and bytes end up holding when host and engine race or two streams overlap. -/

namespace Sys2Proof

/-- Settles O14: the byte view is its definition, and XOR shows in the byte it names alone. -/
theorem xorByteChangesOneByte : Obligations.XorByteChangesOneByte :=
  fun L v _ _ hj hk => ⟨rfl, L.byte_xorByte v hj hk⟩

end Sys2Proof

namespace Sys2Proof.Machine

/-! ## Accesses to the register window (20_memory.md R61, R62) -/

section Access
variable {s : State} {addr : Word} {off : Nat}

theorem access_misshapen (hw : windowOffset s.params addr = some off) (hr : s.resetIn = false) {size : Nat}
    (hs : ¬(size = 8 ∧ off % 8 = 0)) (act : Reg → State) : s.access addr size act = .fault .hostAccessShape := by
  simp only [State.access, hw, hr, Bool.false_eq_true, if_false, if_neg hs]

theorem access_wellShaped (hw : windowOffset s.params addr = some off) (hr : s.resetIn = false) {size : Nat}
    (hs : size = 8 ∧ off % 8 = 0) (act : Reg → State) : s.access addr size act = .next (act (Reg.ofOffset off)) := by
  simp only [State.access, hw, hr, Bool.false_eq_true, if_false, if_pos hs]

end Access

theorem take_regWrite_of_inContract {s : State} (h : s.outOfContract = false) (addr : Word) (size : Nat) (v : Word) :
    s.take (.regWrite addr size v) = s.access addr size (s.writeReg v) := if_neg (ne_true_of_eq_false h)

theorem take_regRead_of_inContract {s : State} (h : s.outOfContract = false) (addr : Word) (size : Nat) :
    s.take (.regRead addr size) = s.access addr size fun r => { s with rdata := s.readReg r } :=
  if_neg (ne_true_of_eq_false h)

/-- Settles O52: within the contract and outside reset, the shape of the access decides. -/
theorem hostAccessShape : Obligations.HostAccessShape := by
  intro s addr v size off hw hr hc
  rw [take_regWrite_of_inContract hc, take_regRead_of_inContract hc]
  exact ⟨fun hs => ⟨access_misshapen hw hr hs _, access_misshapen hw hr hs _⟩,
    fun hs => ⟨access_wellShaped hw hr hs _, access_wellShaped hw hr hs _⟩⟩

/-! ## The bytes a command may change (20_memory.md R68) -/

@[simp] theorem fail_mem (j : Job) (s : State) (e : ErrCode) (a : Nat) : (j.fail s e a).mem = s.mem := by simp [Job.fail]

@[simp] theorem finish_mem (j : Job) (s : State) : (j.finish s).mem = (s.landWrites .whole (j.pending s)).mem := rfl

/-- A command that passed its checks has its outstanding writes inside the DMA space. -/
theorem pending_lt {i : Instr} {s : State} (hc : (jobOf i s.operands).check s.params s.phase s.operands = none) :
    ∀ w ∈ (jobOf i s.operands).pending s, w.addr < Memory.size :=
  fun w hw => writes_lt hc w (mem_pending.1 hw).1

/-- The outstanding writes of a command, however far they get, change no byte outside its destination ranges. -/
theorem landWrites_pending_read_other {i : Instr} {s : State} (hm : s.mem.wf = true)
    (hc : (jobOf i s.operands).check s.params s.phase s.operands = none) (how : Landing) {x : Nat}
    (hx : (jobOf i s.operands).inDst s.operands x = false) :
    (s.landWrites how ((jobOf i s.operands).pending s)).mem.read x = s.mem.read x := by
  refine landWrites_read_other hm (pending_lt hc) fun w hw hwx => ?_
  have hin := writes_inDst (mem_pending.1 hw).1
  rw [hwx, hx] at hin
  cases hin

/-- Whatever becomes of a command, a byte outside its destination ranges keeps its value. -/
theorem exec_read_other {i : Instr} {s t : State} (hm : s.mem.wf = true) (h : exec i s = .next t) {x : Nat}
    (hx : (jobOf i s.operands).inDst s.operands x = false) : t.mem.read x = s.mem.read x := by
  rcases exec_next_cases h with ⟨e, -, rfl⟩ | ⟨hc, ⟨a, -, -, rfl⟩ | rfl | ⟨-, ⟨a, -, -, rfl⟩ | rfl⟩⟩
  · rw [State.completeError_mem]
  · rw [fail_mem]
  · rw [State.hang_mem]
  · rw [fail_mem]
    exact landWrites_pending_read_other hm hc .cut hx
  · rw [finish_mem]
    exact landWrites_pending_read_other hm hc .whole hx

/-- An address is outside the destination ranges when it is outside stream A's and, for the x2 form, stream B's. -/
theorem inDst_eq_false {i : Instr} {o : Operands} {x : Nat} (ha : ¬inRange (o.dst .a) (jobOf i o).dstLen x)
    (hb : i.x2 = true → ¬inRange (o.dst .b) (jobOf i o).dstLen x) : (jobOf i o).inDst o x = false := by
  rw [Bool.eq_false_iff, Ne, ← mem_dstAddrs_iff_inDst, mem_dstAddrs]
  rintro ⟨e, he, hx⟩
  rcases mem_streams.1 he with rfl | ⟨h2, rfl⟩
  · exact ha hx
  · exact hb (jobOf_x2 i o ▸ h2) hx

theorem jobOf_dstLen_eq_zero {i : Instr} (h : i.op = .zero ∨ i.op = .permute ∨ i.op = .absorb) (o : Operands) :
    (jobOf i o).dstLen = 0 := by
  cases i with
  | zero | zeroX2 | permute | permuteX2 | absorb | absorbX2 => rfl
  | _ => simp [Instr.op] at h

theorem jobOf_dstLen_of_squeeze {i : Instr} (h : i.op = .squeeze) (o : Operands) :
    (jobOf i o).dstLen = o.nblocks.toNat * o.rate.toNat := by
  cases i with
  | squeeze | squeezeX2 => rfl
  | _ => cases h

theorem jobOf_dstLen_of_alg {i : Instr} {g : Alg} (h : i.alg = some g) (o : Operands) :
    (jobOf i o).dstLen = outputLength g o := by
  cases i with
  | zero | zeroX2 | permute | permuteX2 | absorb | absorbX2 | squeeze | squeezeX2 => cases h
  | _ => cases h; rfl

/-- Settles O41: a command changes bytes of its destination ranges alone, and these have the length its operation gives. -/
theorem commandsWriteInTheirRangesOnly : Obligations.CommandsWriteInTheirRangesOnly := by
  intro i s t hm h
  refine ⟨fun hop x => ?_, fun hop x ha hb => ?_, fun g hg x ha hb => ?_⟩
  · have hempty : ∀ e, ¬inRange (s.operands.dst e) (jobOf i s.operands).dstLen x := by
      rw [jobOf_dstLen_eq_zero hop]
      omega
    exact exec_read_other hm h (inDst_eq_false (hempty .a) fun _ => hempty .b)
  · rw [← jobOf_dstLen_of_squeeze hop] at ha hb
    exact exec_read_other hm h (inDst_eq_false ha hb)
  · rw [← jobOf_dstLen_of_alg hg] at ha hb
    exact exec_read_other hm h (inDst_eq_false ha hb)

/-! ## What a DMA read returns (20_memory.md R66, R74, R81) -/

theorem take_memStore {s t : State} {addr : Word} {b : Byte} (h : s.take (.memStore addr b) = .next t) :
    t = s.hostStore addr.toNat b := by
  cases next_of_guarded h; rfl

theorem take_memLoad {s t : State} {addr : Word} (h : s.take (.memLoad addr) = .next t) : t = s.hostLoad addr.toNat := by
  cases next_of_guarded h; rfl

theorem readAlready_eq_some {s : State} {e : StreamId} {a : Nat} {b : Byte} (h : s.readAlready e a = some b) :
    ∃ r ∈ s.prog.reads, r.stream = e ∧ r.addr = a ∧ r.byte = b := by
  obtain ⟨r, hf, rfl⟩ := Option.map_eq_some_iff.1 h
  have hp := List.find?_some hf
  simp only [Bool.and_eq_true, beq_iff_eq] at hp
  exact ⟨r, List.mem_of_find?_eq_some hf, hp.1, hp.2, rfl⟩

/-- The replaced bytes seen at an address are among those kept for it, and there are none with coherence. -/
theorem mem_replaced {coherent : Bool} {kept : List Host.Cell} {a : Nat} {b : Byte}
    (h : b ∈ if coherent then [] else (kept.filter fun c => c.1 == a).map fun c => c.2) :
    coherent = false ∧ (a, b) ∈ kept := by
  cases coherent with
  | true => cases h
  | false => simpa using h

theorem mem_staleFor {s : State} {a : Nat} {b : Byte} (h : b ∈ s.staleFor a) :
    s.params.dmaCoherent = false ∧ (a, b) ∈ s.engineStale := mem_replaced h

theorem mem_hostSees {s : State} {a : Nat} {b : Byte} (h : b ∈ s.hostSees a) :
    s.params.dmaCoherent = false ∧ (a, b) ∈ s.hostStale := mem_replaced h

/-- A DMA read returns the byte there, one already read, or one replaced. -/
theorem dmaByte_cases (s : State) (e : StreamId) (a : Nat) :
    s.dmaByte e a = s.mem.read a ∨
    (∃ r ∈ s.prog.reads, r.stream = e ∧ r.addr = a ∧ r.byte = s.dmaByte e a) ∨
    (s.params.dmaCoherent = false ∧ (a, s.dmaByte e a) ∈ s.engineStale) := by
  unfold State.dmaByte
  cases hr : s.readAlready e a with
  | some b => exact .inr (.inl (readAlready_eq_some hr))
  | none => exact (pickByte_cases _ _ _).imp id fun h => .inr (mem_staleFor h)

/-- With coherence a DMA read returns what was read already, else the byte in memory. -/
theorem dmaByte_of_coherent {s : State} (hc : s.params.dmaCoherent = true) (e : StreamId) (a : Nat) :
    s.dmaByte e a = (s.readAlready e a).getD (s.mem.read a) := by
  cases hr : s.readAlready e a with
  | some b => simp [State.dmaByte, hr]
  | none => exact dmaByte_of_unread hr (.inl hc)

/-- Each byte recorded when every source byte is read is the byte read there. -/
theorem readAll_byte {j : Job} {s : State} {r : ReadByte} (h : r ∈ j.readAll s) : r.byte = s.dmaByte r.stream r.addr := by
  simp only [Job.readAll, List.mem_flatMap, List.mem_map] at h
  obtain ⟨_, -, _, -, rfl⟩ := h
  rfl

/-- What is recorded as read when the command may have written to an address is what it read before that. -/
theorem dmaByte_prog_mayWrite (s : State) (a : Nat) (e : StreamId) (x : Nat) :
    ({ s with prog := (s.mayWrite a).prog } : State).dmaByte e x = s.dmaByte e x := by
  rcases mayWrite_cases s a with h | ⟨j, -, h⟩
  · rw [h]
  · exact dmaByte_of_record (fun r hr => readAll_byte hr) (by rw [h]) (.inr ⟨rfl, rfl, rfl⟩)

/-- With coherence, after a command may have written to an address a byte not read by then is still the one in memory
before. -/
theorem dmaByte_eq_mayWrite_record {s : State} (hc : s.params.dmaCoherent = true) (a : Nat) (e : StreamId) (x : Nat) :
    s.dmaByte e x = ((s.mayWrite a).readAlready e x).getD (s.mem.read x) := by
  rw [← dmaByte_prog_mayWrite s a]
  exact dmaByte_of_coherent (s := { s with prog := (s.mayWrite a).prog }) hc e x

theorem mayWrite_read_ne {s : State} (hm : s.mem.wf = true) {a x : Nat} (hx : x ≠ a) :
    (s.mayWrite a).mem.read x = s.mem.read x :=
  (mayWrite_read hm a x).resolve_right fun h => hx h.1

/-! ## A host store and a host load while a command runs (20_memory.md R75, R81) -/

/-- The memory after a host store reads the stored byte at its address. -/
theorem hostStore_read_self {s : State} (hm : s.mem.wf = true) (a : Nat) (b : Byte) :
    (s.hostStore a b).mem.read a = b := by
  rw [State.hostStore, State.hostPut_mem, Memory.read_write (mayWrite_wf (by simpa using hm) a), if_pos rfl]

theorem hostStore_read_ne {s : State} (hm : s.mem.wf = true) {a x : Nat} (hx : x ≠ a) (b : Byte) :
    (s.hostStore a b).mem.read x = s.mem.read x := by
  have hm' : (s.mayRead [a]).mem.wf = true := by simpa using hm
  rw [State.hostStore, State.hostPut_mem, Memory.read_write (mayWrite_wf hm' a), if_neg hx, mayWrite_read_ne hm' hx,
    State.mayRead_mem]

theorem hostStore_wf {s : State} (hm : s.mem.wf = true) {a : Nat} (ha : a < Memory.size) (b : Byte) :
    (s.hostStore a b).mem.wf = true :=
  Memory.wf_write b (mayWrite_wf (by simpa using hm) a) ha

/-- With coherence, a host store changes what the engine reads at its own address alone, and there to the stored byte. -/
theorem dmaByte_hostStore {s : State} (hm : s.mem.wf = true) (hc : s.params.dmaCoherent = true) (a : Nat) (b : Byte)
    (e : StreamId) (x : Nat) :
    (s.hostStore a b).dmaByte e x = s.dmaByte e x ∨ (x = a ∧ (s.hostStore a b).dmaByte e x = b) := by
  have hafter : (s.hostStore a b).dmaByte e x =
      (((s.mayRead [a]).mayWrite a).readAlready e x).getD ((s.hostStore a b).mem.read x) :=
    dmaByte_of_coherent (by simpa [State.hostStore] using hc) e x
  have hbefore : s.dmaByte e x = (((s.mayRead [a]).mayWrite a).readAlready e x).getD (s.mem.read x) := by
    rw [← dmaByte_mayRead s [a], dmaByte_eq_mayWrite_record (by simpa using hc) a, State.mayRead_mem]
  rw [hafter, hbefore]
  cases ((s.mayRead [a]).mayWrite a).readAlready e x with
  | some r => exact .inl rfl
  | none =>
    by_cases hx : x = a
    · subst hx
      exact .inr ⟨rfl, hostStore_read_self hm x b⟩
    · exact .inl (hostStore_read_ne hm hx b)

/-- A host load returns the byte in memory after it, or without coherence one that was replaced. -/
theorem hostGet_mdata_cases (s : State) (a : Nat) :
    (s.hostGet a).mdata = s.mem.read a ∨ (s.params.dmaCoherent = false ∧ (a, (s.hostGet a).mdata) ∈ s.hostStale) :=
  (pickByte_cases _ _ _).imp id mem_hostSees

/-- With coherence the host's look at a byte changes nothing of what a command computes. -/
theorem result_hostGet {s : State} (hc : s.params.dmaCoherent = true) (a : Nat) (j : Job) (e : StreamId) :
    j.result (s.hostGet a) e = j.result s e := by
  have hb : (s.hostGet a).dmaByte e = s.dmaByte e := funext fun x => by
    rw [dmaByte_of_coherent hc, dmaByte_of_coherent (s := s.hostGet a) hc]
    rfl
  have hl : (s.hostGet a).lanes e = s.lanes e := by cases e <;> rfl
  have ho : (s.hostGet a).operands = s.operands := rfl
  simp only [Job.result, State.dmaBytes, hb, hl, ho]

theorem runningJob_of_busy {s : State} {c : Word} {ops : Operands} {i : Instr} (he : s.eng = .busy c ops)
    (hd : decode c = .command i) : s.runningJob = some (jobOf i ops) := by
  simp [State.runningJob, he, hd]

/-- Settles O54: the reads by where a returned byte comes from, the store and the load by what the command may have done
before them. -/
theorem readsReturnHeldBytes : Obligations.ReadsReturnHeldBytes := by
  refine ⟨dmaByte_cases, fun s c e a hc => ?_, fun s t addr b hm hc h e x => ?_, fun s t addr hm h => ?_⟩
  · exact dmaByte_of_unread (readAlready_start rfl e a) (.inl hc)
  · obtain rfl := take_memStore h
    exact dmaByte_hostStore hm hc addr.toNat b e x
  · obtain rfl := take_memLoad h
    refine ⟨?_, ?_, fun x hx => mayWrite_read_ne hm hx, fun hc c ops i e he hd hs => ?_⟩
    · rw [← State.mayWrite_params s addr.toNat]
      exact hostGet_mdata_cases _ _
    · exact (mayWrite_read hm _ _).imp id (·.2)
    · rw [State.hostLoad, result_hostGet (by simpa using hc), result_mayWrite hm _ (runningJob_of_busy he hd) hs]

/-! ## What each byte holds when a command finishes (20_memory.md R68, R77) -/

/-- A stream of a command has still to write to an address. -/
def Job.stillWrites (j : Job) (s : State) (e : StreamId) (x : Nat) : Prop :=
  inRange (s.operands.dst e) j.dstLen x ∧ s.written e x = false

/-- The byte a command writes to an address for a stream. -/
def Job.outByte (j : Job) (s : State) (e : StreamId) (x : Nat) : Byte := (j.result s e).2.getD (x - s.operands.dst e) 0

/-- The writes a command has still to make for a stream, `contested` where stream A has one to make as well. -/
def Job.pendingOf (j : Job) (s : State) (e : StreamId) (contested : Nat → Bool) : List DmaWrite :=
  (writesFrom e contested (s.operands.dst e) (j.result s e).2).filter fun w => !s.written e w.addr

/-- Where stream B's write is contested. -/
def Job.contestedByA (j : Job) (s : State) (x : Nat) : Bool := j.inDstA s.operands x && !s.written .a x

theorem contestedByA_iff {j : Job} {s : State} {x : Nat} : j.contestedByA s x = true ↔ j.stillWrites s .a x := by
  simp [Job.contestedByA, Job.stillWrites, Job.inDstA]

/-- The state after a finishing command's writes for stream A, which none contests. -/
def Job.afterA (j : Job) (s : State) : State := s.landWrites .whole (j.pendingOf s .a fun _ => false)

/-- A scalar command finishes with stream A's writes. -/
theorem finish_mem_scalar {j : Job} (hx : j.x2 = false) (s : State) : (j.finish s).mem = (j.afterA s).mem := by
  rw [finish_mem, pending_eq, hx]
  exact congrArg (fun ws => (s.landWrites .whole ws).mem) (List.append_nil _)

/-- An x2 command finishes with stream A's writes, then stream B's. -/
theorem finish_mem_x2 {j : Job} (hx : j.x2 = true) (s : State) :
    (j.finish s).mem = ((j.afterA s).landWrites .whole (j.pendingOf s .b (j.contestedByA s))).mem := by
  rw [finish_mem, pending_eq, hx, if_pos rfl, landWrites_append]
  rfl

section Finish
variable {i : Instr} {s u : State} {e : StreamId}

theorem dst_add_length_result_le (hc : (jobOf i s.operands).check s.params s.phase s.operands = none)
    (he : e ∈ (jobOf i s.operands).streams) :
    s.operands.dst e + ((jobOf i s.operands).result s e).2.length ≤ 2 ^ 64 := by
  obtain ⟨-, -, -, hrange⟩ := check_none.1 hc
  rw [length_result]
  exact (rangeBad_false hrange e he).2

/-- What a stream's outstanding writes leave at an address, on top of any memory: nothing new where it has none to make,
its byte where it has and the byte is not contested, and one of the two where it is. -/
theorem landWrites_pendingOf_read (hc : (jobOf i s.operands).check s.params s.phase s.operands = none)
    (he : e ∈ (jobOf i s.operands).streams) (hu : u.mem.wf = true) (f : Nat → Bool) (x : Nat) :
    let after := (u.landWrites .whole ((jobOf i s.operands).pendingOf s e f)).mem.read x
    (¬(jobOf i s.operands).stillWrites s e x → after = u.mem.read x) ∧
    ((jobOf i s.operands).stillWrites s e x → f x = false → after = (jobOf i s.operands).outByte s e x) ∧
    ((jobOf i s.operands).stillWrites s e x → after = (jobOf i s.operands).outByte s e x ∨ after = u.mem.read x) := by
  have h := landWrites_whole_read (e := e) (f := f) (done := s.written e) hu (dst_add_length_result_le hc he) x
  rw [length_result] at h
  obtain ⟨hkeep, hbyte, hone⟩ := h
  exact ⟨hkeep, fun hw => hbyte hw.1 hw.2, fun hw => hone hw.1 hw.2⟩

theorem afterA_read_of_not_stillWrites (hm : s.mem.wf = true)
    (hc : (jobOf i s.operands).check s.params s.phase s.operands = none) {x : Nat}
    (hA : ¬(jobOf i s.operands).stillWrites s .a x) : ((jobOf i s.operands).afterA s).mem.read x = s.mem.read x :=
  (landWrites_pendingOf_read hc (mem_streams.2 (.inl rfl)) hm _ x).1 hA

theorem afterA_read_of_stillWrites (hm : s.mem.wf = true)
    (hc : (jobOf i s.operands).check s.params s.phase s.operands = none) {x : Nat}
    (hA : (jobOf i s.operands).stillWrites s .a x) :
    ((jobOf i s.operands).afterA s).mem.read x = (jobOf i s.operands).outByte s .a x :=
  (landWrites_pendingOf_read hc (mem_streams.2 (.inl rfl)) hm _ x).2.1 hA rfl

theorem afterA_wf (hm : s.mem.wf = true) (hc : (jobOf i s.operands).check s.params s.phase s.operands = none) :
    ((jobOf i s.operands).afterA s).mem.wf = true := by
  refine landWrites_wf hm fun w hw => pending_lt hc w ?_
  rw [pending_eq]
  exact List.mem_append_left _ hw

/-- Which byte each address holds when a command finishes: stream A's or stream B's where that stream alone has still to
write, one of the two where both have, and what was there where neither has. -/
theorem finish_read (hm : s.mem.wf = true) (hc : (jobOf i s.operands).check s.params s.phase s.operands = none) (x : Nat) :
    let writesA := (jobOf i s.operands).stillWrites s .a x
    let writesB := i.x2 = true ∧ (jobOf i s.operands).stillWrites s .b x
    let after := ((jobOf i s.operands).finish s).mem.read x
    (writesA → ¬writesB → after = (jobOf i s.operands).outByte s .a x) ∧
    (writesB → ¬writesA → after = (jobOf i s.operands).outByte s .b x) ∧
    (writesA → writesB → after = (jobOf i s.operands).outByte s .a x ∨ after = (jobOf i s.operands).outByte s .b x) ∧
    (¬writesA → ¬writesB → after = s.mem.read x) := by
  intro writesA writesB after
  cases hx : i.x2 with
  | false =>
    have hB : ¬writesB := fun h => Bool.false_ne_true (hx ▸ h.1)
    have hafter : after = ((jobOf i s.operands).afterA s).mem.read x :=
      congrArg (Memory.read · x) (finish_mem_scalar (by rw [jobOf_x2, hx]) s)
    rw [hafter]
    exact ⟨fun hA _ => afterA_read_of_stillWrites hm hc hA, fun h => absurd h hB, fun _ h => absurd h hB,
      fun hA _ => afterA_read_of_not_stillWrites hm hc hA⟩
  | true =>
    have hx2 : (jobOf i s.operands).x2 = true := by rw [jobOf_x2, hx]
    have hafter : after = _ := congrArg (Memory.read · x) (finish_mem_x2 hx2 s)
    obtain ⟨hkeepB, hbyteB, honeB⟩ := landWrites_pendingOf_read hc (mem_streams.2 (.inr ⟨hx2, rfl⟩)) (afterA_wf hm hc)
      ((jobOf i s.operands).contestedByA s) x
    rw [hafter]
    refine ⟨fun hA hB => ?_, fun hB hA => ?_, fun hA hB => ?_, fun hA hB => ?_⟩
    · exact (hkeepB fun h => hB ⟨hx, h⟩).trans (afterA_read_of_stillWrites hm hc hA)
    · exact hbyteB hB.2 (Bool.eq_false_iff.2 fun h => hA (contestedByA_iff.1 h))
    · rw [← afterA_read_of_stillWrites hm hc hA]
      exact (honeB hB.2).symm
    · exact (hkeepB fun h => hB ⟨hx, h⟩).trans (afterA_read_of_not_stillWrites hm hc hA)

/-- Every byte when a command finishes is the one before, or one the command writes there. -/
theorem finish_read_cases (hm : s.mem.wf = true) (hc : (jobOf i s.operands).check s.params s.phase s.operands = none)
    (x : Nat) :
    ((jobOf i s.operands).finish s).mem.read x = s.mem.read x ∨
      ∃ w ∈ (jobOf i s.operands).writes s, w.addr = x ∧ w.byte = ((jobOf i s.operands).finish s).mem.read x := by
  rw [finish_mem]
  refine (landWrites_read hm (pending_lt hc) x).imp id ?_
  rintro ⟨w, hw, hx, -, hb⟩
  exact ⟨w, (mem_pending.1 hw).1, hx, hb.symm⟩

end Finish

theorem exec_finish {i : Instr} {s : State} (hc : (jobOf i s.operands).check s.params s.phase s.operands = none)
    (hb : (jobOf i s.operands).BusClear s.params s.operands) : exec i s = .next ((jobOf i s.operands).finish s) := by
  rw [exec_eq_runJob, runJob_finish hc hb]

/-- Settles O55: a clear command finishes with its outstanding writes landed, on top of the host's byte where the host stored
before. -/
theorem overlappedByteIsOneOfTheTwo : Obligations.OverlappedByteIsOneOfTheTwo := by
  refine ⟨fun i s hm hc hb => ⟨_, exec_finish hc hb, finish_read hm hc⟩, fun i s u addr b hm h hc hb => ?_⟩
  refine ⟨_, exec_finish hc hb, ?_⟩
  obtain rfl := take_memStore h
  have hcases := finish_read_cases (hostStore_wf hm addr.isLt b) hc addr.toNat
  rwa [hostStore_read_self hm] at hcases

end Sys2Proof.Machine

/-! PROOFS. The family 30_encoding.md: a word and its fields, which words are legal, decoding as the inverse of encoding, and what
no command changes. -/

namespace Sys2Proof

/-! ## A word is its fields (30_encoding.md R91) -/

theorem ofBool_getLsbD_eq_extract (c : Word) (k : Nat) : BitVec.ofBool (c.getLsbD k) = c.extractLsb' k 1 := by
  ext j hj
  obtain rfl : j = 0 := by omega
  simp

/-- Five adjacent slices, put side by side, are the word. -/
theorem CommandFields.toWord_ofWord (c : Word) : (CommandFields.ofWord c).toWord = c := by
  rw [CommandFields.toWord, CommandFields.ofWord, ofBool_getLsbD_eq_extract]
  iterate 4 rw [BitVec.extractLsb'_append_extractLsb'_eq_extractLsb' (by decide)]
  exact BitVec.extractLsb'_eq_self

/-- Each slice of a concatenation of fields lies in one field and is that field. -/
theorem CommandFields.ofWord_toWord (f : CommandFields) : CommandFields.ofWord f.toWord = f := by
  simp (disch := decide) only [CommandFields.ofWord, CommandFields.toWord, BitVec.extractLsb'_append_eq_of_le,
    BitVec.extractLsb'_append_eq_of_add_le, BitVec.getLsbD_append]
  simp [BitVec.extractLsb'_eq_self]

/-! ## The fields of the sixteen commands (30_encoding.md R93 to R95) -/

theorem CommandFields.ofWord_encode (i : Instr) : CommandFields.ofWord (encode i) = i.fields :=
  CommandFields.ofWord_toWord i.fields

theorem Laws.RoundTrip.statement : ∀ i : Instr, Laws.RoundTrip.Statement i
  | .zero => Laws.RoundTrip.zero
  | .zeroX2 => Laws.RoundTrip.zeroX2
  | .permute => Laws.RoundTrip.permute
  | .permuteX2 => Laws.RoundTrip.permuteX2
  | .absorb => Laws.RoundTrip.absorb
  | .absorbX2 => Laws.RoundTrip.absorbX2
  | .squeeze => Laws.RoundTrip.squeeze
  | .squeezeX2 => Laws.RoundTrip.squeezeX2
  | .hashShake128 => Laws.RoundTrip.hashShake128
  | .hashShake128X2 => Laws.RoundTrip.hashShake128X2
  | .hashShake256 => Laws.RoundTrip.hashShake256
  | .hashShake256X2 => Laws.RoundTrip.hashShake256X2
  | .hashSha3_256 => Laws.RoundTrip.hashSha3_256
  | .hashSha3_256X2 => Laws.RoundTrip.hashSha3_256X2
  | .hashSha3_512 => Laws.RoundTrip.hashSha3_512
  | .hashSha3_512X2 => Laws.RoundTrip.hashSha3_512X2

theorem Instr.wellFormed (i : Instr) : i.WellFormed := (Laws.RoundTrip.statement i).1

theorem decode_encode (i : Instr) : decode (encode i) = .command i := (Laws.RoundTrip.statement i).2.1

theorem CommandFields.legal_iff {f : CommandFields} :
    f.legal = true ↔ f.resB = 0 ∧ f.resA = 0 ∧ f.op ∈ [0x01#8, 0x02#8, 0x03#8, 0x04#8, 0x05#8] ∧
      (f.op = 0x05 ∨ f.alg = 0) := by
  simp [CommandFields.legal, CommandFields.resBZero, CommandFields.resAZero, CommandFields.opKnown,
    CommandFields.algAllowed, and_assoc, or_assoc]

@[simp] theorem Alg.code_ofCode : ∀ c : BitVec 2, (Alg.ofCode c).code = c := by decide

/-- The word of a HASH carries its algorithm in ALG (30_encoding.md R94). -/
theorem Instr.fields_hash (g : Alg) (x2 : Bool) : (Instr.hash g x2).fields = ⟨0x05#8, x2, 0, g.code, 0⟩ := by
  cases g <;> cases x2 <;> rfl

/-- Legal fields are those of a command: OP selects it, X2 its form, and ALG the algorithm of a HASH. -/
theorem CommandFields.exists_instr_of_legal {f : CommandFields} (h : f.legal = true) : ∃ i : Instr, i.fields = f := by
  obtain ⟨op, x2, resA, alg, resB⟩ := f
  obtain ⟨rfl, rfl, hop, halg⟩ := CommandFields.legal_iff.1 h
  have hzero (hne : op ≠ 0x05) : alg = 0 := halg.resolve_left hne
  simp only [List.mem_cons, List.not_mem_nil, or_false] at hop
  rcases hop with rfl | rfl | rfl | rfl | rfl
  · cases hzero (by decide); exact ⟨if x2 then .zeroX2 else .zero, by cases x2 <;> rfl⟩
  · cases hzero (by decide); exact ⟨if x2 then .permuteX2 else .permute, by cases x2 <;> rfl⟩
  · cases hzero (by decide); exact ⟨if x2 then .absorbX2 else .absorb, by cases x2 <;> rfl⟩
  · cases hzero (by decide); exact ⟨if x2 then .squeezeX2 else .squeeze, by cases x2 <;> rfl⟩
  · exact ⟨.hash (Alg.ofCode alg) x2, by rw [Instr.fields_hash, Alg.code_ofCode]⟩

/-- The legal words are the words of the commands. -/
theorem legal_iff_exists_encode {c : Word} : (CommandFields.ofWord c).legal = true ↔ ∃ i, encode i = c := by
  constructor
  · intro h
    obtain ⟨i, hi⟩ := CommandFields.exists_instr_of_legal h
    exact ⟨i, by rw [encode, hi, CommandFields.toWord_ofWord]⟩
  · rintro ⟨i, rfl⟩
    rw [CommandFields.ofWord_encode]
    exact i.wellFormed

/-! ## Decoding (30_encoding.md R95, R98) -/

theorem CommandFields.decode_of_not_legal {f : CommandFields} (h : f.legal = false) : ∃ e, f.decode = .illegal e := by
  unfold CommandFields.decode
  split_ifs with hB hA hop halg
  · exact ⟨_, rfl⟩
  · exact ⟨_, rfl⟩
  · exact ⟨_, rfl⟩
  · exact ⟨_, rfl⟩
  · simp_all [CommandFields.legal]

/-- A word is that of a command and decodes to it, or it is not legal and decodes to illegal. -/
theorem decode_cases (c : Word) :
    (∃ i, encode i = c ∧ decode c = .command i) ∨
    ((CommandFields.ofWord c).legal = false ∧ ∃ e, decode c = .illegal e) := by
  cases h : (CommandFields.ofWord c).legal with
  | true =>
    obtain ⟨i, rfl⟩ := legal_iff_exists_encode.1 h
    exact .inl ⟨i, rfl, decode_encode i⟩
  | false => exact .inr ⟨rfl, CommandFields.decode_of_not_legal h⟩

/-- Settles O1: a word that decodes to a command is the word of a command, and decoding that one gives it back. -/
theorem wordDecodesIffItIsTheCommandsWord : Obligations.WordDecodesIffItIsTheCommandsWord := by
  refine fun c i => ⟨fun h => ?_, fun h => h ▸ decode_encode i⟩
  obtain ⟨k, rfl, hk⟩ | ⟨-, e, he⟩ := decode_cases c
  · cases hk.symm.trans h
    rfl
  · cases he.symm.trans h

/-- Settles O2: legality is R95's formula on the fields, and decoding tells the words of two commands apart. -/
theorem legalWordsAreTheSixteen : Obligations.LegalWordsAreTheSixteen := by
  refine ⟨fun c => ⟨CommandFields.legal_iff, legal_iff_exists_encode⟩, fun i => ?_, fun i k h => ?_⟩
  · cases i <;> decide
  · cases (decode_encode i).symm.trans ((congrArg decode h).trans (decode_encode k))
    rfl

/-- Settles O3: a legal word has the OP, X2 and ALG fields of the command it decodes to. -/
theorem decodingIsTotal : Obligations.DecodingIsTotal := by
  intro c
  obtain ⟨i, rfl, hi⟩ | ⟨hl, he⟩ := decode_cases c
  · have hf := CommandFields.ofWord_encode i
    refine .inl ⟨⟨i, hi, congrArg CommandFields.op hf, congrArg CommandFields.x2 hf, fun g hg => ?_⟩,
      legal_iff_exists_encode.2 ⟨i, rfl⟩⟩
    have halg : (encode i).extractLsb' 16 2 = i.fields.alg := congrArg CommandFields.alg hf
    simp [halg, Instr.fields, hg]
  · exact .inr ⟨he, hl⟩

/-- Settles O4: each of the nine words is that of the command in its row. -/
theorem opcodeTableWordsDecode : Obligations.OpcodeTableWordsDecode :=
  ⟨decode_encode .zero, decode_encode .zeroX2, decode_encode .permute, decode_encode .absorbX2, decode_encode .squeeze,
    decode_encode .hashShake128, decode_encode .hashShake256X2, decode_encode .hashSha3_256, decode_encode .hashSha3_512X2⟩

end Sys2Proof

namespace Sys2Proof.Machine

/-! ## What no command changes (30_encoding.md R92; 10_state.md R24, R28) -/

/-- What a command leaves as it was, whatever becomes of it; stream B where it names stream A alone. -/
structure CommandFrame (x2 : Bool) (s t : State) : Prop where
  regs : t.regs = s.regs
  cmd : t.cmd = s.cmd
  ie : t.ie = s.ie
  ovr : t.ovr = s.ovr
  params : t.params = s.params
  moves : t.moves = s.moves
  rdata : t.rdata = s.rdata
  mdata : t.mdata = s.mdata
  resetIn : t.resetIn = s.resetIn
  staleFromBefore : ∀ c ∈ t.engineStale, c ∈ s.engineStale
  staleCoherent : s.params.dmaCoherent = true → t.engineStale = s.engineStale
  inFlight : t.inFlight = s.inFlight
  streamB : x2 = false → t.s1 = s.s1

theorem commandFrame_completeError (x2 : Bool) (s : State) (e : ErrCode) (a : Word) :
    CommandFrame x2 s (s.completeError e a) := by
  constructor <;> simp

theorem commandFrame_hang (x2 : Bool) (s : State) : CommandFrame x2 s s.hang := by
  constructor <;> simp

theorem commandFrame_fail (j : Job) (s : State) (e : ErrCode) (a : Nat) : CommandFrame j.x2 s (j.fail s e a) := by
  constructor <;> simp +contextual [Job.fail]

/-- Of what the writes change, only the engine's replaced bytes are in the frame: some go without coherence, none with it. -/
theorem commandFrame_landWrites (x2 : Bool) (how : Landing) (s : State) (ws : List DmaWrite) :
    CommandFrame x2 s (s.landWrites how ws) := by
  constructor
  case staleFromBefore => exact fun _ => mem_engineStale_landWrites
  case staleCoherent => exact fun hc => (landWrites_stale_of_coherent hc).2
  all_goals simp

theorem CommandFrame.trans {x2 : Bool} {s t u : State} (h : CommandFrame x2 s t) (h' : CommandFrame x2 t u) :
    CommandFrame x2 s u where
  regs := h'.regs.trans h.regs
  cmd := h'.cmd.trans h.cmd
  ie := h'.ie.trans h.ie
  ovr := h'.ovr.trans h.ovr
  params := h'.params.trans h.params
  moves := h'.moves.trans h.moves
  rdata := h'.rdata.trans h.rdata
  mdata := h'.mdata.trans h.mdata
  resetIn := h'.resetIn.trans h.resetIn
  staleFromBefore c hc := h.staleFromBefore c (h'.staleFromBefore c hc)
  staleCoherent hc := (h'.staleCoherent (h.params ▸ hc)).trans (h.staleCoherent hc)
  inFlight := h'.inFlight.trans h.inFlight
  streamB hx := (h'.streamB hx).trans (h.streamB hx)

/-- Finishing adds to the writes a change of lanes and PHASE, and completion. -/
theorem commandFrame_finish (j : Job) (s : State) : CommandFrame j.x2 s (j.finish s) :=
  { commandFrame_landWrites j.x2 .whole s (j.pending s) with streamB := fun hx => if_neg (ne_true_of_eq_false hx) }

/-- Every way a command can end, or wait, keeps the frame. -/
theorem exec_commandFrame {i : Instr} {s t : State} (h : exec i s = .next t) : CommandFrame i.x2 s t := by
  rw [← jobOf_x2 i s.operands]
  obtain ⟨e, -, rfl⟩ | ⟨-, ⟨a, -, -, rfl⟩ | rfl | ⟨-, ⟨a, -, -, rfl⟩ | rfl⟩⟩ := exec_next_cases h
  · exact commandFrame_completeError _ s e 0
  · exact commandFrame_fail _ s .busRead a
  · exact commandFrame_hang _ s
  · exact (commandFrame_landWrites _ .cut s _).trans (commandFrame_fail _ _ .busWrite a)
  · exact commandFrame_finish _ s

/-- Settles O40: the frame, clause by clause. -/
theorem commandsChangeNoRegister : Obligations.CommandsChangeNoRegister := by
  intro i s t h
  have f := exec_commandFrame h
  exact ⟨f.regs, f.cmd, f.ie, f.ovr, f.params, f.moves, f.rdata, f.mdata, f.resetIn, f.staleFromBefore, f.staleCoherent,
    f.inFlight, f.streamB⟩

end Sys2Proof.Machine

/-! PROOFS. The family 40_permutation.md: the steps of a round lane by lane, the tables against their generators, the fused pass,
PERMUTE, and an x2 command as its scalar form on each stream. -/

namespace Sys2Proof

/-! ## The steps of a round (40_permutation.md R122 to R127) -/

theorem theta_at (A : Lanes) (x y : Fin 5) :
    (theta A).at x y = A.at x y ^^^
      ((A.at (x - 1) 0 ^^^ A.at (x - 1) 1 ^^^ A.at (x - 1) 2 ^^^ A.at (x - 1) 3 ^^^ A.at (x - 1) 4) ^^^
        rol64 (A.at (x + 1) 0 ^^^ A.at (x + 1) 1 ^^^ A.at (x + 1) 2 ^^^ A.at (x + 1) 3 ^^^ A.at (x + 1) 4) 1) := by
  simp only [theta, Lanes.at_ofFn, Five.get_ofFn]

@[simp] theorem rho_at (A : Lanes) (x y : Fin 5) : (rho A).at x y = rol64 (A.at x y) (rhoOffset x y) := Lanes.at_ofFn _ x y

@[simp] theorem pi_at (A : Lanes) (x y : Fin 5) : (pi A).at x y = A.at (x + 3 * y) x := Lanes.at_ofFn _ x y

theorem chi_at (A : Lanes) (x y : Fin 5) :
    (chi A).at x y = A.at x y ^^^ (~~~A.at (x + 1) y &&& A.at (x + 2) y) := Lanes.at_ofFn _ x y

theorem iota_at (A : Lanes) (ir : Nat) (x y : Fin 5) :
    (iota A ir).at x y = if x = 0 ∧ y = 0 then A.at 0 0 ^^^ roundConstant ir else A.at x y := by
  rw [iota, Lanes.at_ofFn]
  split_ifs with h
  · rw [h.1, h.2]
  · rfl

/-- The column that pi reads for (y, 2x + 3y) is x, since y + 3 (2x + 3y) = 6x + 10y. -/
theorem pi_source_column : ∀ x y : Fin 5, y + 3 * (2 * x + 3 * y) = x := by decide

/-- Pi by where a lane moves (40_permutation.md R125). -/
theorem pi_at_moved (A : Lanes) (x y : Fin 5) : (pi A).at y (2 * x + 3 * y) = A.at x y := by
  rw [pi_at, pi_source_column]

/-- Pi by lane index: the source of each lane (40_permutation.md R125). -/
def piSources : List Nat := [0, 6, 12, 18, 24, 3, 9, 10, 16, 22, 1, 7, 13, 19, 20, 4, 5, 11, 17, 23, 2, 8, 14, 15, 21]

theorem piSources_coordinates : ∀ i < 25,
    laneX (piSources.getD i 0) = laneX i + 3 * laneY i ∧ laneY (piSources.getD i 0) = laneX i := by decide

theorem pi_lane (A : Lanes) {i : Nat} (hi : i < 25) : (pi A).lane i = A.lane (piSources.getD i 0) := by
  obtain ⟨hx, hy⟩ := piSources_coordinates i hi
  rw [Lanes.lane, Lanes.lane, pi_at, hx, hy]

/-- Settles O11: each step is defined by its value at every lane. -/
theorem roundStepsLaneByLane : Obligations.RoundStepsLaneByLane := fun A x y =>
  ⟨theta_at A x y, rho_at A x y, pi_at A x y, pi_at_moved A x y, fun _ => pi_lane A, chi_at A x y, fun ir => iota_at A ir x y⟩

/-! ## The tables and their generators (40_permutation.md R124, R129) -/

theorem roundConstant_eq_generated : ∀ ir < 24, roundConstant ir = generatedRoundConstant ir := by decide +kernel

theorem rhoOffset_rhoWalk : ∀ t < 24, rhoOffset (rhoWalk t).1 (rhoWalk t).2 = rhoWalkOffset t := by decide +kernel

/-- Settles O12: each table is finite, and its generator evaluates to it entry by entry. -/
theorem tablesMatchTheirGenerators : Obligations.TablesMatchTheirGenerators :=
  ⟨roundConstant_eq_generated, rfl, rhoOffset_rhoWalk⟩

/-! ## Rho and pi in one pass (40_permutation.md R132) -/

/-- The lane that lane i moves to. -/
def rhoPiDest (i : Nat) : Nat := (laneY i).val + 5 * (2 * laneX i + 3 * laneY i).val

theorem rhoPiDest_lt (i : Nat) : rhoPiDest i < 25 := by unfold rhoPiDest; omega

/-- Every lane is the destination of one. -/
theorem exists_rhoPiDest_eq : ∀ d < 25, ∃ i < 25, rhoPiDest i = d := by decide

theorem pi_rho_lane_rhoPiDest (A : Lanes) (i : Nat) :
    (pi (rho A)).lane (rhoPiDest i) = rol64 (A.lane i) (rhoOffset (laneX i) (laneY i)) := by
  rw [rhoPiDest, Lanes.lane_eq_at, pi_at_moved, rho_at, Lanes.lane]

/-- A step of the pass puts the lane of `pi (rho A)` in its place and leaves the other lanes alone. -/
theorem lane_rhoPiStep (A B : Lanes) (i : Nat) {d : Nat} (hd : d < 25) :
    (rhoPiStep A B i).lane d = if d = rhoPiDest i then (pi (rho A)).lane d else B.lane d := by
  have hstep : rhoPiStep A B i = B.setLane (rhoPiDest i) ((pi (rho A)).lane (rhoPiDest i)) := by
    rw [pi_rho_lane_rhoPiDest]; rfl
  rw [hstep, Lanes.lane_setLane _ _ (rhoPiDest_lt i) hd]
  split_ifs with h
  · rw [h]
  · rfl

/-- After n steps the lanes that the first n move to are those of `pi (rho A)`. -/
theorem lane_foldl_rhoPiStep (A : Lanes) {n k : Nat} (hk : k < n) :
    ((List.range n).foldl (rhoPiStep A) Lanes.zero).lane (rhoPiDest k) = (pi (rho A)).lane (rhoPiDest k) := by
  induction n with
  | zero => omega
  | succ n ih =>
    rw [List.range_succ, List.foldl_concat, lane_rhoPiStep _ _ _ (rhoPiDest_lt k)]
    split_ifs with h
    · rfl
    · have hne : k ≠ n := fun hkn => h (congrArg rhoPiDest hkn)
      exact ih (by omega)

theorem rhoPi_eq_pi_rho (A : Lanes) : rhoPi A = pi (rho A) := by
  refine Lanes.ext_lane fun d hd => ?_
  obtain ⟨i, hi, rfl⟩ := exists_rhoPiDest_eq d hd
  exact lane_foldl_rhoPiStep A hi

/-- The (source, destination, rotation) triples of R132. -/
def rhoPiTriples : List (Nat × Nat × Nat) :=
  [(0, 0, 0), (1, 10, 1), (2, 20, 62), (3, 5, 28), (4, 15, 27), (5, 16, 36), (6, 1, 44), (7, 11, 6), (8, 21, 55),
    (9, 6, 20), (10, 7, 3), (11, 17, 10), (12, 2, 43), (13, 12, 25), (14, 22, 39), (15, 23, 41), (16, 8, 45),
    (17, 18, 15), (18, 3, 21), (19, 13, 8), (20, 14, 18), (21, 24, 2), (22, 9, 61), (23, 19, 56), (24, 4, 14)]

theorem mem_rhoPiTriples : ∀ m ∈ rhoPiTriples,
    m.2.1 = rhoPiDest m.1 ∧ m.2.2 = rhoOffset (laneX m.1) (laneY m.1) := by decide

/-- Settles O13: the pass fills every lane with that of `pi (rho A)`, and each triple is a lane, its destination and its offset. -/
theorem fusedPassIsRhoThenPi : Obligations.FusedPassIsRhoThenPi := by
  refine fun A => ⟨rhoPi_eq_pi_rho A, fun m hm => ?_⟩
  obtain ⟨hdest, hrot⟩ := mem_rhoPiTriples m hm
  rw [rhoPi_eq_pi_rho, hdest, hrot, pi_rho_lane_rhoPiDest]

/-! ## The examples of the permutation (40_permutation.md R135, R136) -/

/-- The state whose lane i holds i. -/
def countingLanes : Lanes := Lanes.ofFn fun x y => BitVec.ofNat 64 (x.val + 5 * y.val)

theorem lane_countingLanes {i : Nat} (hi : i < 25) : countingLanes.lane i = BitVec.ofNat 64 i := by
  rw [Lanes.lane, countingLanes, Lanes.at_ofFn, laneX_val, laneY_val hi, Nat.mod_add_div]

theorem keccakF_zero_lanes :
    (keccakF Lanes.zero).lane 0 = 0xF1258F7940E1DDE7 ∧ (keccakF Lanes.zero).lane 24 = 0xEAF1FF7B5CECA249 := by
  decide +kernel

theorem keccakF_countingLanes_lanes :
    (keccakF countingLanes).lane 0 = 0x8374B05252ED8115 ∧ (keccakF countingLanes).lane 24 = 0xD153F43A297E4A33 := by
  decide +kernel

end Sys2Proof

namespace Sys2Proof.Machine

/-! ## Commands without output, and x2 commands without the datapath -/

/-- A command whose destination ranges are empty has no write to make. -/
theorem pending_of_dstLen_zero {i : Instr} {s : State} (h : (jobOf i s.operands).dstLen = 0) :
    (jobOf i s.operands).pending s = [] := by
  refine List.eq_nil_iff_forall_not_mem.2 fun w hw => ?_
  obtain ⟨e, -, hlo, hhi⟩ := mem_dstAddrs.1 (mem_dstAddrs_iff_inDst.2 (writes_inDst (mem_pending.1 hw).1))
  omega

/-- A finished command without output leaves everything but lanes, PHASE and the completion as it was. -/
theorem finish_of_dstLen_zero {i : Instr} {s : State} (h : (jobOf i s.operands).dstLen = 0) :
    (jobOf i s.operands).finish s = { s with
      s0 := ((jobOf i s.operands).result s .a).1
      s1 := if i.x2 then ((jobOf i s.operands).result s .b).1 else s.s1
      phase := (jobOf i s.operands).phase s.phase
      eng := .idle, prog := .start, done := true, tick := s.tick + 1 } := by
  rw [finish_eq, Job.finish, pending_of_dstLen_zero h]
  rfl

/-- A command without DMA accesses meets no error but those of checks 2 to 4. -/
theorem exec_of_no_access {i : Instr} {s : State} (hx : i.x2 = true → s.params.hasX2 = true)
    (hr : (jobOf i s.operands).rateBad = false) (hp : (jobOf i s.operands).seqBad s.phase = false)
    (hsrc : (jobOf i s.operands).srcLen = 0) (hdst : (jobOf i s.operands).dstLen = 0) :
    exec i s = .next { s with
      s0 := ((jobOf i s.operands).result s .a).1
      s1 := if i.x2 then ((jobOf i s.operands).result s .b).1 else s.s1
      phase := (jobOf i s.operands).phase s.phase
      eng := .idle, prog := .start, done := true, tick := s.tick + 1 } := by
  obtain ⟨hc, hb⟩ := check_and_bus_of_ranges hx hr hp fun e _ => ⟨.inl hsrc, .inl hdst⟩
  rw [exec_finish hc hb, finish_of_dstLen_zero hdst]

/-- An error without an address is recorded as `State.failedCheck` says (60_exceptions.md R243, R252). -/
theorem completeError_eq_failedCheck (s : State) (e : ErrCode) : s.completeError e 0 = s.failedCheck e := by
  apply State.ext <;> simp [State.failedCheck]

/-- Without the dual-lane datapath check 2 stops every x2 command, before every other check (60_exceptions.md R245). -/
theorem exec_x2_without_datapath {i : Instr} {s : State} (hx : i.x2 = true) (h : s.params.hasX2 = false) :
    exec i s = .next (s.failedCheck .noX2) := by
  have hc : (jobOf i s.operands).check s.params s.phase s.operands = some .noX2 := by simp [Job.check, hx, h]
  rw [exec_eq_runJob, runJob_check hc, completeError_eq_failedCheck]

/-! ## PERMUTE (40_permutation.md R135, R136) -/

theorem exec_permute (s : State) :
    exec .permute s = .next { s with
      s0 := keccakF s.s0, phase := .raw, eng := .idle, prog := .start, done := true, tick := s.tick + 1 } :=
  exec_of_no_access (i := .permute) nofun rfl rfl rfl rfl

theorem exec_permuteX2 {s : State} (h : s.params.hasX2 = true) :
    exec .permuteX2 s = .next { s with
      s0 := keccakF s.s0, s1 := keccakF s.s1, phase := .raw, eng := .idle, prog := .start
      done := true, tick := s.tick + 1 } :=
  exec_of_no_access (i := .permuteX2) (fun _ => h) rfl rfl rfl rfl

/-- Settles O22: PERMUTE makes no DMA access and checks no phase; the examples are two evaluations of the permutation. -/
theorem permutePermutesTheNamedStreams : Obligations.PermutePermutesTheNamedStreams := by
  refine ⟨fun s => ⟨exec_permute s, exec_permuteX2, exec_x2_without_datapath rfl⟩, keccakF_zero_lanes.1, keccakF_zero_lanes.2,
    fun L hL => ?_⟩
  obtain rfl : L = countingLanes := Lanes.ext_lane fun i hi => (hL i hi).trans (lane_countingLanes hi).symm
  exact keccakF_countingLanes_lanes

/-! ## An x2 command stream by stream (40_permutation.md R134; 41_sponge.md R167) -/

/-- The state a scalar form runs on to do for stream e alone what the command `i` does for it: stream A as it stands, stream B
with its lanes, source and destination in stream A's place. -/
def State.alone (s : State) (i : Instr) : StreamId → State
  | .a => s
  | .b => { s with
      s0 := s.s1
      eng := .busy (encode i.scalar) { s.operands with srcA := s.operands.srcB, dstA := s.operands.dstB } }

section Alone
variable (s : State) (i : Instr) (e : StreamId)

@[simp] theorem State.alone_params : (s.alone i e).params = s.params := by cases e <;> rfl
@[simp] theorem State.alone_phase : (s.alone i e).phase = s.phase := by cases e <;> rfl
@[simp] theorem State.alone_mem : (s.alone i e).mem = s.mem := by cases e <;> rfl
@[simp] theorem State.alone_prog : (s.alone i e).prog = s.prog := by cases e <;> rfl
@[simp] theorem State.alone_engineStale : (s.alone i e).engineStale = s.engineStale := by cases e <;> rfl
@[simp] theorem State.alone_lanes : (s.alone i e).lanes .a = s.lanes e := by cases e <;> rfl
@[simp] theorem State.alone_src : (s.alone i e).operands.src .a = s.operands.src e := by cases e <;> rfl
@[simp] theorem State.alone_dst : (s.alone i e).operands.dst .a = s.operands.dst e := by cases e <;> rfl

/-- The scalar form's job is that of the command, on stream A alone. -/
@[simp] theorem jobOf_scalar_alone :
    jobOf i.scalar (s.alone i e).operands = { jobOf i s.operands with x2 := false } := by
  cases e <;> cases i <;> rfl

@[simp] theorem Instr.x2_scalar : i.scalar.x2 = false := by cases i <;> rfl

theorem State.alone_undisturbed {s : State} (h : s.Undisturbed) : (s.alone i e).Undisturbed where
  nothingDone := by simpa using h.nothingDone
  readsMemory := by simpa using h.readsMemory

/-- An undisturbed command reads for stream e what the scalar form reads, so both compute the same lanes and output. -/
theorem result_alone {s : State} (h : s.Undisturbed) :
    (jobOf i.scalar (s.alone i e).operands).result (s.alone i e) .a = (jobOf i s.operands).result s e := by
  simp only [jobOf_scalar_alone, Job.result, dmaBytes_of_undisturbed h,
    dmaBytes_of_undisturbed (State.alone_undisturbed i e h), State.alone_lanes, State.alone_src, State.alone_mem]

/-- Stream A of the scalar form is stream e of the command, so it passes the same checks on the same clear ranges. -/
theorem check_and_bus_alone {s : State} (he : e ∈ (jobOf i s.operands).streams)
    (hc : (jobOf i s.operands).check s.params s.phase s.operands = none)
    (hb : (jobOf i s.operands).BusClear s.params s.operands) :
    (jobOf i.scalar (s.alone i e).operands).check (s.alone i e).params (s.alone i e).phase (s.alone i e).operands = none ∧
      (jobOf i.scalar (s.alone i e).operands).BusClear (s.alone i e).params (s.alone i e).operands := by
  obtain ⟨-, hrate, hseq, hrange⟩ := check_none.1 hc
  obtain ⟨hsrc, hdst⟩ := rangeBad_false hrange e he
  have hdev := Bool.or_eq_false_iff.1 (Bool.eq_false_iff.2 (List.any_eq_false.1 hb.noDevice e he))
  refine check_and_bus_of_ranges (by simp) (by rwa [jobOf_scalar_alone])
    (by rwa [jobOf_scalar_alone, State.alone_phase]) fun d hd => ?_
  obtain rfl : d = .a := by simpa [mem_streams] using hd
  simp only [jobOf_scalar_alone, State.alone_params, State.alone_src, State.alone_dst]
  exact ⟨.inr ⟨hsrc, hb.readsAnswer e he, hdev.1⟩, .inr ⟨hdst, hb.writesAnswer e he, hdev.2⟩⟩

end Alone

section Twice
variable {i : Instr} {s : State}

/-- A command no byte of which is written yet has all its writes to make. -/
theorem stillWrites_iff_of_noneWritten {j : Job} (h : s.NoneWritten) {e : StreamId} {x : Nat} :
    j.stillWrites s e x ↔ inRange (s.operands.dst e) j.dstLen x := by
  simp [Job.stillWrites, written_of_noneWritten h]

/-- What the scalar form run for stream e alone leaves: PHASE, that stream's lanes, and its output in its destination range. -/
theorem exec_scalar_alone (hm : s.mem.wf = true) (hu : s.Undisturbed)
    (hc : (jobOf i s.operands).check s.params s.phase s.operands = none)
    (hb : (jobOf i s.operands).BusClear s.params s.operands) {e : StreamId} (he : e ∈ (jobOf i s.operands).streams) :
    ∃ u, exec i.scalar (s.alone i e) = .next u ∧ u.s0 = ((jobOf i s.operands).result s e).1 ∧
      u.phase = (jobOf i s.operands).phase s.phase ∧
      ∀ x, inRange (s.operands.dst e) (jobOf i s.operands).dstLen x → u.mem.read x = (jobOf i s.operands).outByte s e x := by
  obtain ⟨hc', hb'⟩ := check_and_bus_alone i e he hc hb
  have hres := result_alone i e hu
  refine ⟨_, exec_finish hc' hb', congrArg Prod.fst hres, ?_, fun x hx => ?_⟩
  · show (jobOf i.scalar (s.alone i e).operands).phase (s.alone i e).phase = _
    rw [jobOf_scalar_alone, State.alone_phase]
  · have hnone : (s.alone i e).NoneWritten := by rw [State.NoneWritten, State.alone_prog, hu.nothingDone]; rfl
    have hA : (jobOf i.scalar (s.alone i e).operands).stillWrites (s.alone i e) .a x := by
      rw [stillWrites_iff_of_noneWritten hnone]
      simpa using hx
    rw [(finish_read (by simpa using hm) hc' x).1 hA (by simp), Job.outByte, hres, State.alone_dst, Job.outByte]

/-- What an x2 command with disjoint destination ranges leaves: PHASE, both streams' lanes, and each stream's output in its
destination range. -/
theorem exec_x2_disjoint (hx : i.x2 = true) (hm : s.mem.wf = true) (hnone : s.NoneWritten)
    (hc : (jobOf i s.operands).check s.params s.phase s.operands = none)
    (hb : (jobOf i s.operands).BusClear s.params s.operands) (hd : dstDisjoint s.operands (jobOf i s.operands).dstLen) :
    ∃ t, exec i s = .next t ∧ t.s0 = ((jobOf i s.operands).result s .a).1 ∧ t.s1 = ((jobOf i s.operands).result s .b).1 ∧
      t.phase = (jobOf i s.operands).phase s.phase ∧
      ∀ e x, inRange (s.operands.dst e) (jobOf i s.operands).dstLen x → t.mem.read x = (jobOf i s.operands).outByte s e x := by
  refine ⟨_, exec_finish hc hb, rfl, if_pos ((jobOf_x2 i _).trans hx), rfl, fun e x hin => ?_⟩
  obtain ⟨hA, hB, -, -⟩ := finish_read hm hc x
  simp only [stillWrites_iff_of_noneWritten hnone] at hA hB
  cases e with
  | a => exact hA hin fun ⟨_, h⟩ => by omega
  | b => exact hB ⟨hx, hin⟩ fun h => by omega

end Twice

/-- Settles O58: the x2 form and the two scalar runs leave the same lanes, PHASE and output of each stream. -/
theorem x2IsTheScalarCommandTwice : Obligations.X2IsTheScalarCommandTwice := by
  intro i s hx hm hu hc hb hd
  have hboth : ∀ e, e ∈ (jobOf i s.operands).streams := fun e => mem_streams.2 (by cases e <;> simp [hx])
  have hnone : s.NoneWritten := congrArg Progress.written hu.nothingDone
  obtain ⟨t, ht, ht0, ht1, htp, htm⟩ := exec_x2_disjoint hx hm hnone hc hb hd
  obtain ⟨u, hu', hu0, hup, hum⟩ := exec_scalar_alone hm hu hc hb (hboth .a)
  obtain ⟨v, hv, hv0, hvp, hvm⟩ := exec_scalar_alone hm hu hc hb (hboth .b)
  exact ⟨t, u, v, ht, hu', hv, ht0.trans hu0.symm, ht1.trans hv0.symm, htp.trans hup.symm, htp.trans hvp.symm,
    fun x h => (htm .a x h).trans (hum x h).symm, fun x h => (htm .b x h).trans (hvm x h).symm⟩

end Sys2Proof.Machine

/-! PROOFS. The family 41_sponge.md: absorbing block by block, squeezing, interleaving, what ZERO, ABSORB and SQUEEZE leave, and
what their results depend on. -/

namespace Sys2Proof

theorem rateLegal_iff {R : Nat} : rateLegal R = true ↔ R % 8 = 0 ∧ 8 ≤ R ∧ R ≤ 200 := by
  simp [rateLegal, and_assoc]

/-! ## Absorbing (41_sponge.md R152, R153) -/

/-- A message shorter than the rate has no whole block: it is XORed into the zero state and padded. -/
theorem absorbBytes_of_lt {R : Nat} {msg : List Byte} (h : msg.length < R) (ds : Byte) :
    absorbBytes R ds msg = pad (xorBytes Lanes.zero 0 msg) msg.length R ds := by
  simp [absorbBytes, Nat.div_eq_of_lt h, absorbBlocks]

/-- Settles O15: the message shows in the zero state, and padding adds the separator after it and 0x80 in the last byte. -/
theorem shortMessageImage : Obligations.ShortMessageImage := by
  intro R ds msg j hR hm hj
  obtain ⟨-, -, hle⟩ := rateLegal_iff.1 hR
  rw [absorbBytes_of_lt hm, byte_pad _ ds hm hle hj, byte_xorBytes _ msg (by omega) hj, Lanes.byte_zero]
  congr 1
  rcases Nat.lt_trichotomy j msg.length with h | rfl | h
  · simp [h, h.ne]
  · simp
  · simp [h.not_gt, h.ne']

/-- The first block of R bytes is XORed in and permuted over, and the rest absorbed from there. -/
theorem absorbBlocks_append {R : Nat} {block : List Byte} (hb : block.length = R) (rest : List Byte) (n : Nat) (L : Lanes) :
    absorbBlocks R (n + 1) L (block ++ rest) = absorbBlocks R n (keccakF (xorBytes L 0 block)) rest := by
  rw [absorbBlocks, List.take_left' hb, List.drop_left' hb]

/-- Settles O16: a leading block counts as one whole block of the message and leaves its tail as it was. -/
theorem absorbGoesBlockByBlock : Obligations.AbsorbGoesBlockByBlock := by
  intro R ds block rest hR hb
  refine ⟨absorbBlocks_append hb rest, fun _ => rfl, ?_⟩
  have hpos : 0 < R := by have := rateLegal_iff.1 hR; omega
  have hfull : (block ++ rest).length / R = rest.length / R + 1 := by
    rw [List.length_append, hb, Nat.add_div_left _ hpos]
  have htail : (block ++ rest).drop ((rest.length / R + 1) * R) = rest.drop (rest.length / R * R) := by
    rw [Nat.succ_mul, Nat.add_comm, ← List.drop_drop, List.drop_left' hb]
  simp only [absorbBytes, hfull, htail, absorbBlocks_append hb]

/-! ## Squeezing (41_sponge.md R154) -/

/-- Settles O18: one permutation before each block. -/
theorem squeezePermutesBeforeEveryBlock : Obligations.SqueezePermutesBeforeEveryBlock := fun R N L =>
  ⟨squeezeBlocks_lanes R N L, length_squeezeBlocks R N L, fun _ hb _ hj => squeezeBlocks_getD R N L hb hj⟩

/-! ## Interleaving (41_sponge.md R155, R156; 10_state.md R44) -/

@[simp] theorem length_interleave (a b : List Byte) : (interleave a b).length = 2 * a.length := by simp [interleave]

theorem getD_interleave {a b : List Byte} {n : Nat} (h : n < 2 * a.length) :
    (interleave a b).getD n 0 = (if n / 8 % 2 = 0 then a else b).getD (8 * (n / 16) + n % 8) 0 := by
  simp [interleave, h]

/-- Byte j of piece k of the first string. -/
theorem getD_interleave_first {a b : List Byte} {k j : Nat} (hj : j < 8) (h : 16 * k + j < 2 * a.length) :
    (interleave a b).getD (16 * k + j) 0 = a.getD (8 * k + j) 0 := by
  rw [getD_interleave h, if_pos (by omega)]
  congr 1
  omega

/-- Byte j of piece k of the second string. -/
theorem getD_interleave_second {a b : List Byte} {k j : Nat} (hj : j < 8) (h : 16 * k + 8 + j < 2 * a.length) :
    (interleave a b).getD (16 * k + 8 + j) 0 = b.getD (8 * k + j) 0 := by
  rw [getD_interleave h, if_neg (by omega)]
  congr 1
  omega

/-- De-interleaving gives a string whose bytes are where the image has that stream's pieces (41_sponge.md R156). -/
theorem deinterleave_eq {image c : List Byte} {e : Fin 2} (hlen : image.length = 2 * c.length)
    (h : ∀ m < c.length, image.getD (16 * (m / 8) + 8 * e.val + m % 8) 0 = c.getD m 0) : deinterleave image e = c := by
  refine List.ext_getElem (by simp [deinterleave, hlen]) fun m _ hm => ?_
  simp only [deinterleave, List.getElem_map, List.getElem_range]
  rw [h m hm, List.getD_eq_getElem _ _ hm]

/-- In a state's byte view, the even pieces of the dual-lane words are stream A's bytes and the odd ones stream B's. -/
theorem windowByte_eq (A B : Lanes) (n : Nat) :
    windowByte A B n = (if n / 8 % 2 = 0 then A else B).byte (8 * (n / 16) + n % 8) := by
  have hlane : (8 * (n / 16) + n % 8) / 8 = n / 16 := by omega
  have hbyte : (8 * (n / 16) + n % 8) % 8 = n % 8 := by omega
  rw [Lanes.byte, hlane, hbyte, windowByte, dualWord]
  split_ifs with h
  · have hlow : n % 16 = n % 8 := by omega
    rw [hlow, BitVec.extractLsb'_append_eq_of_add_le (by omega)]
  · have hhigh : 8 * (n % 16) - 64 = 8 * (n % 8) := by omega
    rw [BitVec.extractLsb'_append_eq_of_le (by omega), hhigh]

/-- Settles O20: each byte of an image by the piece it is in. -/
theorem interleaveAndDeinterleave : Obligations.InterleaveAndDeinterleave := by
  refine ⟨fun a b hab h8 => ⟨fun k j hj hk => ⟨?_, ?_⟩, ?_, ?_⟩, fun A B => ?_⟩
  · exact getD_interleave_first hj (by omega)
  · exact getD_interleave_second hj (by omega)
  · refine deinterleave_eq (length_interleave a b) fun m hm => ?_
    have hpiece : 8 * (m / 8) + m % 8 = m := by omega
    exact (getD_interleave_first (Nat.mod_lt m (by decide)) (by omega)).trans (by rw [hpiece])
  · refine deinterleave_eq (by rw [length_interleave, hab]) fun m hm => ?_
    have hpiece : 8 * (m / 8) + m % 8 = m := by omega
    exact (getD_interleave_second (Nat.mod_lt m (by decide)) (by omega)).trans (by rw [hpiece])
  · have hbyte : ∀ n < 400, windowByte A B n =
        (if n / 8 % 2 = 0 then A.bytes 200 else B.bytes 200).getD (8 * (n / 16) + n % 8) 0 := fun n hn => by
      rw [windowByte_eq]
      split_ifs <;> rw [Lanes.getD_bytes _ (by omega)]
    rw [interleave, Lanes.length_bytes]
    exact List.map_congr_left fun n hn => hbyte n (List.mem_range.1 hn)

/-! ## The streams of a command (00_scope.md R10) -/

/-- The streams a command names. -/
def Instr.streams (i : Instr) : List StreamId := if i.x2 then [.a, .b] else [.a]

@[simp] theorem Instr.a_mem_streams (i : Instr) : .a ∈ i.streams := by
  unfold Instr.streams
  split <;> simp

@[simp] theorem Instr.b_mem_streams {i : Instr} : .b ∈ i.streams ↔ i.x2 = true := by
  unfold Instr.streams
  split_ifs with h <;> simp [h]

end Sys2Proof

namespace Sys2Proof.Machine

@[simp] theorem jobOf_streams (i : Instr) (o : Operands) : (jobOf i o).streams = i.streams := by
  rw [Job.streams, jobOf_x2, Instr.streams]

/-! ## ZERO (41_sponge.md R158, R159) -/

theorem exec_zero (s : State) :
    exec .zero s = .next { s with
      s0 := Lanes.zero, phase := .empty, eng := .idle, prog := .start, done := true, tick := s.tick + 1 } :=
  exec_of_no_access (i := .zero) nofun rfl rfl rfl rfl

theorem exec_zeroX2 {s : State} (h : s.params.hasX2 = true) :
    exec .zeroX2 s = .next { s with
      s0 := Lanes.zero, s1 := Lanes.zero, phase := .empty, eng := .idle, prog := .start
      done := true, tick := s.tick + 1 } :=
  exec_of_no_access (i := .zeroX2) (fun _ => h) rfl rfl rfl rfl

/-- Settles O21: ZERO makes no DMA access and checks neither RATE nor PHASE. -/
theorem zeroClearsTheNamedStreams : Obligations.ZeroClearsTheNamedStreams :=
  fun s => ⟨exec_zero s, exec_zeroX2, exec_x2_without_datapath rfl, fun i _ => Lanes.lane_zero i⟩

/-! ## ABSORB (41_sponge.md R160, R161) -/

/-- An ABSORB with the datapath it needs, a legal RATE and clear source ranges finishes, and writes no byte. -/
theorem exec_absorb_clear {i : Instr} {s : State} (hop : i.op = .absorb) (hx : i.x2 = true → s.params.hasX2 = true)
    (hR : rateLegal s.operands.rate.toNat = true)
    (hsrc : ∀ e ∈ i.streams, RangeClear s.params .read (s.operands.src e) s.operands.len.toNat) :
    exec i s = .next { s with
      s0 := ((jobOf i s.operands).result s .a).1
      s1 := if i.x2 then ((jobOf i s.operands).result s .b).1 else s.s1
      phase := .absorbed, eng := .idle, prog := .start, done := true, tick := s.tick + 1 } := by
  have hjob : jobOf i s.operands = absorbJob i.x2 s.operands := by
    cases i with
    | absorb | absorbX2 => rfl
    | _ => cases hop
  have hdst : (jobOf i s.operands).dstLen = 0 := by rw [hjob]; rfl
  obtain ⟨hc, hb⟩ := check_and_bus_of_ranges hx (by simp [hjob, absorbJob, Job.rateBad, hR]) (by rw [hjob]; rfl)
    fun e he => ⟨.inr (by rw [jobOf_streams] at he; rw [hjob]; exact hsrc e he), .inl hdst⟩
  rw [exec_finish hc hb, finish_of_dstLen_zero hdst, hjob]
  rfl

/-- Settles O23: stream A's result is AbsorbBytes of the bytes read at SRC_A. -/
theorem absorbLeavesThePaddedState : Obligations.AbsorbLeavesThePaddedState := by
  intro s hR hA
  refine exec_absorb_clear (i := .absorb) rfl nofun hR fun e he => ?_
  obtain rfl := List.mem_singleton.1 he
  exact hA

/-- Settles O24: each stream's result is AbsorbBytes of the bytes read at its own source. -/
theorem absorbX2LeavesBothPaddedStates : Obligations.AbsorbX2LeavesBothPaddedStates := by
  intro s hx hR hA hB
  refine exec_absorb_clear (i := .absorbX2) rfl (fun _ => hx) hR fun e _ => ?_
  cases e with
  | a => exact hA
  | b => exact hB

/-! ## What a finished command leaves in the streams it names and in its destination ranges -/

section Finish
variable {i : Instr} {s : State} {e : StreamId}

theorem finish_lanes (he : e ∈ i.streams) : ((jobOf i s.operands).finish s).lanes e = ((jobOf i s.operands).result s e).1 := by
  cases e with
  | a => rfl
  | b => exact if_pos ((jobOf_x2 i _).trans (Instr.b_mem_streams.1 he))

theorem finish_lanes_unnamed (he : e ∉ i.streams) : ((jobOf i s.operands).finish s).lanes e = s.lanes e := by
  cases e with
  | a => exact absurd i.a_mem_streams he
  | b =>
    have hx : ¬i.x2 = true := fun h => he (Instr.b_mem_streams.2 h)
    exact (if_neg (by rwa [jobOf_x2])).trans (by simp [State.lanes])

/-- Where no two streams overlap and nothing is written yet, each stream's output is in its own range. -/
theorem finish_read_inRange (hm : s.mem.wf = true) (hnone : s.NoneWritten)
    (hc : (jobOf i s.operands).check s.params s.phase s.operands = none)
    (hd : i.x2 = true → dstDisjoint s.operands (jobOf i s.operands).dstLen) (he : e ∈ i.streams) {x : Nat}
    (hx : inRange (s.operands.dst e) (jobOf i s.operands).dstLen x) :
    ((jobOf i s.operands).finish s).mem.read x = (jobOf i s.operands).outByte s e x := by
  obtain ⟨hA, hB, -, -⟩ := finish_read hm hc x
  simp only [stillWrites_iff_of_noneWritten hnone] at hA hB
  cases e with
  | a => exact hA hx fun ⟨h2, hb⟩ => by have := hd h2; omega
  | b =>
    have h2 : i.x2 = true := Instr.b_mem_streams.1 he
    exact hB ⟨h2, hx⟩ fun ha => by have := hd h2; omega

theorem finish_read_other (hm : s.mem.wf = true) (hc : (jobOf i s.operands).check s.params s.phase s.operands = none)
    {x : Nat} (hx : ∀ e ∈ i.streams, ¬inRange (s.operands.dst e) (jobOf i s.operands).dstLen x) :
    ((jobOf i s.operands).finish s).mem.read x = s.mem.read x :=
  landWrites_pending_read_other hm hc .whole <|
    inDst_eq_false (hx .a i.a_mem_streams) fun h => hx .b (Instr.b_mem_streams.2 h)

theorem finish_wf (hm : s.mem.wf = true) (hc : (jobOf i s.operands).check s.params s.phase s.operands = none) :
    ((jobOf i s.operands).finish s).mem.wf = true := landWrites_wf hm (pending_lt hc)

/-- With coherence a finished command leaves no older byte to be seen (20_memory.md R81). -/
theorem finish_stale_of_coherent (h : s.params.dmaCoherent = true) :
    ((jobOf i s.operands).finish s).hostStale = s.hostStale ∧
      ((jobOf i s.operands).finish s).engineStale = s.engineStale := landWrites_stale_of_coherent h

end Finish

/-! ## SQUEEZE (41_sponge.md R162, R163) -/

/-- No two of some streams have an address in common in their ranges of `n` bytes. -/
def Apart (streams : List StreamId) (dst : StreamId → Nat) (n : Nat) : Prop :=
  ∀ e ∈ streams, ∀ f ∈ streams, e ≠ f → dst e + n ≤ dst f ∨ dst f + n ≤ dst e

theorem apart_iff {i : Instr} {dst : StreamId → Nat} {n : Nat} :
    Apart i.streams dst n ↔ (i.x2 = true → dst .a + n ≤ dst .b ∨ dst .b + n ≤ dst .a) := by
  constructor
  · exact fun h hx => h .a i.a_mem_streams .b (Instr.b_mem_streams.2 hx) nofun
  · intro h e he f hf hne
    cases e with
    | a =>
      cases f with
      | a => exact absurd rfl hne
      | b => exact h (Instr.b_mem_streams.1 hf)
    | b =>
      cases f with
      | a => exact (h (Instr.b_mem_streams.1 he)).symm
      | b => exact absurd rfl hne

/-- Squeezing `n` blocks of `R` bytes of some streams to `dst` leads from `s` to `t`, as far as lanes, PHASE and memory go
(41_sponge.md R154, R164). -/
structure Squeezed (streams : List StreamId) (R n : Nat) (dst : StreamId → Nat) (s t : State) : Prop where
  lanes : ∀ e ∈ streams, t.lanes e = (squeezeBlocks R n (s.lanes e)).1
  otherLanes : ∀ e ∉ streams, t.lanes e = s.lanes e
  phase : t.phase = if n = 0 then s.phase else .squeezing
  canonical : t.mem.wf = true
  blocks : ∀ e ∈ streams, ∀ x, inRange (dst e) (n * R) x →
    t.mem.read x = (squeezeBlocks R n (s.lanes e)).2.getD (x - dst e) 0
  otherBytes : ∀ x, (∀ e ∈ streams, ¬inRange (dst e) (n * R) x) → t.mem.read x = s.mem.read x

/-- What squeezing leaves is determined by where it starts. -/
theorem Squeezed.unique {streams : List StreamId} {R n : Nat} {dst : StreamId → Nat} {s t u : State}
    (ht : Squeezed streams R n dst s t) (hu : Squeezed streams R n dst s u) :
    (∀ e, t.lanes e = u.lanes e) ∧ t.phase = u.phase ∧ t.mem = u.mem := by
  refine ⟨fun e => ?_, ht.phase.trans hu.phase.symm, Memory.eq_of_read ht.canonical hu.canonical fun x => ?_⟩
  · by_cases he : e ∈ streams
    · rw [ht.lanes e he, hu.lanes e he]
    · rw [ht.otherLanes e he, hu.otherLanes e he]
  · by_cases hx : ∃ e ∈ streams, inRange (dst e) (n * R) x
    · obtain ⟨e, he, hin⟩ := hx
      rw [ht.blocks e he x hin, hu.blocks e he x hin]
    · have hout : ∀ e ∈ streams, ¬inRange (dst e) (n * R) x := fun e he hin => hx ⟨e, he, hin⟩
      rw [ht.otherBytes x hout, hu.otherBytes x hout]

/-- Squeezing goes on where it stopped, behind the bytes already written (41_sponge.md R166). -/
theorem Squeezed.append {streams : List StreamId} {R a b : Nat} {dst : StreamId → Nat} {s u v : State}
    (hd : Apart streams dst ((a + b) * R)) (h : Squeezed streams R a dst s u)
    (h' : Squeezed streams R b (fun e => dst e + a * R) u v) : Squeezed streams R (a + b) dst s v where
  lanes e he := by rw [h'.lanes e he, h.lanes e he, squeezeBlocks_add]
  otherLanes e he := by rw [h'.otherLanes e he, h.otherLanes e he]
  phase := by
    rw [h'.phase, h.phase]
    rcases Nat.eq_zero_or_pos b with rfl | hb
    · simp
    · rw [if_neg hb.ne', if_neg (by omega)]
  canonical := h'.canonical
  blocks e he x hx := by
    rw [Nat.add_mul] at hd hx
    rw [squeezeBlocks_add]
    by_cases hfirst : x < dst e + a * R
    · have hout : ∀ f ∈ streams, ¬inRange (dst f + a * R) (b * R) x := by
        intro f hf hin
        by_cases hef : e = f
        · subst hef; omega
        · have := hd e he f hf hef; omega
      rw [h'.otherBytes x hout, h.blocks e he x ⟨hx.1, hfirst⟩, List.getD_append _ _ _ _ (by simp; omega)]
    · rw [h'.blocks e he x (by omega), h.lanes e he, List.getD_append_right _ _ _ _ (by simp; omega),
        length_squeezeBlocks, Nat.sub_sub]
  otherBytes x hx := by
    rw [Nat.add_mul] at hx
    rw [h'.otherBytes x fun e he hin => hx e he (by omega), h.otherBytes x fun e he hin => hx e he (by omega)]

theorem jobOf_of_squeeze {i : Instr} (h : i.op = .squeeze) (o : Operands) : jobOf i o = squeezeJob i.x2 o := by
  cases i with
  | squeeze | squeezeX2 => rfl
  | _ => cases h

section Squeeze
variable {i : Instr} {s : State} {dst : StreamId → Nat}

/-- A SQUEEZE with the datapath it needs, a legal RATE, a phase to squeeze from and clear destination ranges meets no error;
an empty range needs nothing. -/
theorem squeeze_check_and_bus (hop : i.op = .squeeze) (hx : i.x2 = true → s.params.hasX2 = true)
    (hR : rateLegal s.operands.rate.toNat = true) (he : s.phase ≠ .empty) (hf : s.phase ≠ .failed)
    (hclear : ∀ e ∈ i.streams, (jobOf i s.operands).dstLen = 0 ∨
      RangeClear s.params .write (s.operands.dst e) (jobOf i s.operands).dstLen) :
    (jobOf i s.operands).check s.params s.phase s.operands = none ∧
      (jobOf i s.operands).BusClear s.params s.operands := by
  have hjob := jobOf_of_squeeze hop s.operands
  refine check_and_bus_of_ranges hx (by simp [hjob, squeezeJob, Job.rateBad, hR])
    (by simp [hjob, squeezeJob, Job.seqBad, he, hf]) fun e he => ⟨.inl (by rw [hjob]; rfl), hclear e ?_⟩
  rwa [jobOf_streams] at he

/-- A finished SQUEEZE has squeezed its NBLOCKS blocks to the addresses in DST; where it squeezes none, to any. -/
theorem squeezed_finish (hop : i.op = .squeeze) (hm : s.mem.wf = true) (hnone : s.NoneWritten)
    (hc : (jobOf i s.operands).check s.params s.phase s.operands = none)
    (hd : Apart i.streams s.operands.dst (jobOf i s.operands).dstLen)
    (hdst : ∀ e ∈ i.streams, (jobOf i s.operands).dstLen = 0 ∨ s.operands.dst e = dst e) :
    Squeezed i.streams s.operands.rate.toNat s.operands.nblocks.toNat dst s ((jobOf i s.operands).finish s) := by
  have hjob := jobOf_of_squeeze hop s.operands
  have hlen := jobOf_dstLen_of_squeeze hop s.operands
  constructor
  case lanes => exact fun e he => (finish_lanes he).trans (by rw [hjob]; rfl)
  case otherLanes => exact fun e he => finish_lanes_unnamed he
  case phase => rw [hjob]; rfl
  case canonical => exact finish_wf hm hc
  case blocks =>
    intro e he x hin
    rw [← hlen] at hin
    have hde : s.operands.dst e = dst e := (hdst e he).resolve_left (by omega)
    rw [← hde] at hin ⊢
    rw [finish_read_inRange hm hnone hc (apart_iff.1 hd) he hin, hjob]
    rfl
  case otherBytes =>
    refine fun x hout => finish_read_other hm hc fun e he hin => hout e he ?_
    rwa [← hlen, ← (hdst e he).resolve_left (by omega)]

end Squeeze

/-- The bytes of a stream's blocks, read one by one. -/
theorem Squeezed.read_add {streams : List StreamId} {R n : Nat} {dst : StreamId → Nat} {s t : State}
    (h : Squeezed streams R n dst s t) {e : StreamId} (he : e ∈ streams) {k : Nat}
    (hk : k < (squeezeBlocks R n (s.lanes e)).2.length) :
    t.mem.read (dst e + k) = (squeezeBlocks R n (s.lanes e)).2.getD k 0 := by
  rw [length_squeezeBlocks] at hk
  rw [h.blocks e he _ (by omega), Nat.add_sub_cancel_left]

/-- A finished SQUEEZE, as the record of what it changes. -/
theorem finish_squeeze_eq {i : Instr} (hop : i.op = .squeeze) (s : State) :
    (jobOf i s.operands).finish s = { s with
      s0 := (squeezeBlocks s.operands.rate.toNat s.operands.nblocks.toNat s.s0).1
      s1 := if i.x2 then (squeezeBlocks s.operands.rate.toNat s.operands.nblocks.toNat s.s1).1 else s.s1
      phase := if s.operands.nblocks = 0 then s.phase else .squeezing
      eng := .idle, prog := .start, done := true, tick := s.tick + 1
      mem := ((jobOf i s.operands).finish s).mem
      hostStale := ((jobOf i s.operands).finish s).hostStale
      engineStale := ((jobOf i s.operands).finish s).engineStale } := by
  have hphase : (jobOf i s.operands).phase s.phase = if s.operands.nblocks = 0 then s.phase else .squeezing := by
    simp [jobOf_of_squeeze hop, squeezeJob, ← BitVec.toNat_inj]
  rw [← hphase]
  have hres : ∀ e, (jobOf i s.operands).result s e =
      squeezeBlocks s.operands.rate.toNat s.operands.nblocks.toNat (s.lanes e) := fun e => by
    rw [jobOf_of_squeeze hop]; rfl
  exact (finish_eq i s).trans (by rw [hres, hres]; rfl)

/-- Settles O25: a clear SQUEEZE finishes, with its blocks at DST_A. -/
theorem squeezeWritesItsBlocks : Obligations.SqueezeWritesItsBlocks := by
  intro s hm hnone hR he hf hA
  obtain ⟨hc, hb⟩ := squeeze_check_and_bus (i := .squeeze) rfl nofun hR he hf fun e h => by
    obtain rfl := List.mem_singleton.1 h
    exact .inr hA
  have hsq : Squeezed _ _ _ _ s _ := squeezed_finish (i := .squeeze) rfl hm hnone hc (apart_iff.2 nofun) fun _ _ => .inr rfl
  refine ⟨_, exec_finish hc hb, finish_squeeze_eq rfl s,
    ⟨fun k hk => hsq.read_add (e := .a) Instr.squeeze.a_mem_streams hk, fun x hx => ?_⟩, finish_stale_of_coherent⟩
  rw [length_squeezeBlocks] at hx
  refine hsq.otherBytes x fun e h => ?_
  obtain rfl := List.mem_singleton.1 h
  exact hx

/-- Settles O26: a clear SQUEEZE.X2 finishes, with each stream's blocks at its own DST. -/
theorem squeezeX2WritesBothStreams : Obligations.SqueezeX2WritesBothStreams := by
  intro s hx hm hnone hR he hf hA hB hd
  have hclear (e) : RangeClear s.params .write (s.operands.dst e) _ := match e with
    | .a => hA
    | .b => hB
  obtain ⟨hc, hb⟩ := squeeze_check_and_bus (i := .squeezeX2) rfl (fun _ => hx) hR he hf fun e _ => .inr (hclear e)
  have hsq : Squeezed _ _ _ _ s _ :=
    squeezed_finish (i := .squeezeX2) rfl hm hnone hc (apart_iff.2 fun _ => hd) fun _ _ => .inr rfl
  refine ⟨_, exec_finish hc hb, finish_squeeze_eq rfl s,
    ⟨fun k hk => hsq.read_add (e := .a) Instr.squeezeX2.a_mem_streams hk,
      fun k hk => hsq.read_add (e := .b) (Instr.b_mem_streams.2 rfl) hk, fun x ha hb => ?_⟩, finish_stale_of_coherent⟩
  rw [length_squeezeBlocks] at ha hb
  refine hsq.otherBytes x fun e _ => ?_
  cases e with
  | a => exact ha
  | b => exact hb

/-! ## SQUEEZE in two goes (41_sponge.md R166) -/

/-- The registers set for a SQUEEZE of `n` blocks to `dst`. -/
def State.setSqueeze (s : State) (n : Nat) (dst : StreamId → Nat) : State :=
  { s with regs := { s.regs with
      nblocks := BitVec.ofNat 64 n, dstA := BitVec.ofNat 64 (dst .a), dstB := BitVec.ofNat 64 (dst .b) } }

theorem dst_setSqueeze (s : State) (n : Nat) (dst : StreamId → Nat) (e : StreamId) :
    (s.setSqueeze n dst).regs.dst e = dst e % 2 ^ 64 := by
  cases e <;> exact BitVec.toNat_ofNat _ _

/-- A SQUEEZE issued on ranges that are clear and apart answers, and squeezes. A range that is empty may begin at 2^64, which
DST does not hold. -/
theorem issue_squeeze {i : Instr} {s : State} {R n : Nat} {dst : StreamId → Nat} (hop : i.op = .squeeze)
    (hx : i.x2 = true → s.params.hasX2 = true) (hm : s.mem.wf = true) (hR : s.regs.rate.toNat = R)
    (hlegal : rateLegal R = true) (he : s.phase ≠ .empty) (hf : s.phase ≠ .failed)
    (hclear : ∀ e ∈ i.streams, RangeClear s.params .write (dst e) (n * R)) (hd : Apart i.streams dst (n * R)) :
    ∃ t, (s.setSqueeze n dst).issue i = .next t ∧ Squeezed i.streams R n dst s t ∧
      t.params = s.params ∧ t.regs.rate.toNat = R := by
  subst hR
  let u := (s.setSqueeze n dst).accept (encode i)
  have hspace (e) (h : e ∈ i.streams) : dst e + n * s.regs.rate.toNat ≤ 2 ^ 64 := (hclear e h).inSpace
  have hN : u.operands.nblocks.toNat = n := by
    have hmul := Nat.mul_le_mul_left n (rateLegal_iff.1 hlegal).2.1
    have := hspace .a i.a_mem_streams
    exact Nat.mod_eq_of_lt (by omega)
  have hlen : (jobOf i u.operands).dstLen = n * s.regs.rate.toNat := by rw [jobOf_dstLen_of_squeeze hop, hN]; rfl
  have hdst (e) (h : e ∈ i.streams) : (jobOf i u.operands).dstLen = 0 ∨ u.operands.dst e = dst e := by
    have := hspace e h
    have hmod : u.operands.dst e = dst e % 2 ^ 64 := dst_setSqueeze s n dst e
    rw [hlen, hmod]
    omega
  have hapart : Apart i.streams u.operands.dst (jobOf i u.operands).dstLen := fun e h f h' hne => by
    have := hd e h f h' hne
    rw [← hlen] at this
    have := hdst e h
    have := hdst f h'
    omega
  obtain ⟨hc, hb⟩ := squeeze_check_and_bus (s := u) hop hx hlegal he hf fun e h =>
    (hdst e h).imp id fun h' => by rw [h', hlen]; exact hclear e h
  have hsq := squeezed_finish (s := u) hop hm rfl hc hapart hdst
  have hframe := commandFrame_finish (jobOf i u.operands) u
  rw [hN] at hsq
  exact ⟨_, exec_finish hc hb, { hsq with }, hframe.params, congrArg (·.rate.toNat) hframe.regs⟩

theorem RangeClear.mono {p : Params} {k : AccessKind} {a n b m : Nat} (h : RangeClear p k a n) (hlo : a ≤ b)
    (hhi : b + m ≤ a + n) : RangeClear p k b m where
  inSpace := hhi.trans h.inSpace
  answered x h1 h2 := h.answered x (hlo.trans h1) (by omega)
  noDevice := by
    rw [Bool.eq_false_iff, Ne, coversDevice_iff]
    rintro ⟨x, h1, h2, hx⟩
    exact ne_true_of_eq_false h.noDevice (coversDevice_iff.2 ⟨x, by omega, by omega, hx⟩)

/-- A SQUEEZE of `a` blocks and one of `b` blocks behind them leave what a SQUEEZE of `a + b` blocks leaves: together they
squeeze the same blocks, and what squeezing leaves is determined. -/
theorem issue_squeeze_add {i : Instr} {s : State} {R a b : Nat} {dst : StreamId → Nat} (hop : i.op = .squeeze)
    (hx : i.x2 = true → s.params.hasX2 = true) (hm : s.mem.wf = true) (hR : s.regs.rate.toNat = R)
    (hlegal : rateLegal R = true) (he : s.phase ≠ .empty) (hf : s.phase ≠ .failed)
    (hclear : ∀ e ∈ i.streams, RangeClear s.params .write (dst e) ((a + b) * R)) (hd : Apart i.streams dst ((a + b) * R)) :
    ∃ t u v, (s.setSqueeze (a + b) dst).issue i = .next t ∧ (s.setSqueeze a dst).issue i = .next u ∧
      (u.setSqueeze b fun e => dst e + a * R).issue i = .next v ∧
      (∀ e, v.lanes e = t.lanes e) ∧ v.phase = t.phase ∧ v.mem = t.mem := by
  have hsum : (a + b) * R = a * R + b * R := Nat.add_mul a b R
  obtain ⟨t, ht, hst, -⟩ := issue_squeeze hop hx hm hR hlegal he hf hclear hd
  have hdA : Apart i.streams dst (a * R) := fun e h f h' hne => by have := hd e h f h' hne; omega
  obtain ⟨u, hu, hsu, hup, huR⟩ := issue_squeeze hop hx hm hR hlegal he hf
    (fun e h => (hclear e h).mono le_rfl (by omega)) hdA
  have hdB : Apart i.streams (fun e => dst e + a * R) (b * R) := fun e h f h' hne => by
    have := hd e h f h' hne
    dsimp only
    omega
  have huPhase {p : Phase} (hp : s.phase ≠ p) (hsq : p ≠ .squeezing) : u.phase ≠ p := by
    rw [hsu.phase]
    split_ifs
    · exact hp
    · exact hsq.symm
  obtain ⟨v, hv, huv, -⟩ := issue_squeeze hop (by rwa [hup]) hsu.canonical huR hlegal (huPhase he nofun) (huPhase hf nofun)
    (fun e h => by rw [hup]; exact (hclear e h).mono (by omega) (by omega)) hdB
  exact ⟨t, u, v, ht, hu, hv, (hsu.append hd huv).unique hst⟩

/-- The destinations of the two streams. -/
def dstPair (d d' : Nat) : StreamId → Nat
  | .a => d
  | .b => d'

/-- Settles O56: the ranges of SQUEEZE, and for SQUEEZE.X2 those of both streams, are clear and apart. -/
theorem squeezeIsIncremental : Obligations.SqueezeIsIncremental := by
  intro i s a b d d' hop hm _ hR he hf _ _ hA hB
  have hclear (e) (h : e ∈ i.streams) : RangeClear s.params .write (dstPair d d' e) ((a + b) * s.regs.rate.toNat) := by
    cases e with
    | a => exact hA
    | b => exact (hB (Instr.b_mem_streams.1 h)).2.1
  obtain ⟨t, u, v, ht, hu, hv, hlanes, hphase, hmem⟩ := issue_squeeze_add hop (fun h => (hB h).1) hm rfl hR he hf hclear
    (apart_iff.2 fun h => (hB h).2.2)
  exact ⟨t, u, v, ht, hu, hv, hlanes .a, hlanes .b, hphase, hmem⟩

/-! ## What the results depend on (41_sponge.md R168) -/

theorem State.Undisturbed.noneWritten {s : State} (h : s.Undisturbed) : s.NoneWritten :=
  congrArg Progress.written h.nothingDone

/-- ABSORB and HASH start from the zero state, whatever the lanes (41_sponge.md R153; 42_hash.md R191). -/
theorem work_lanes_irrelevant {i : Instr} (h : i.op = .absorb ∨ i.op = .hash) (o : Operands) (L L' : Lanes) (msg : List Byte) :
    (jobOf i o).work L msg = (jobOf i o).work L' msg := by
  cases i with
  | zero | zeroX2 | permute | permuteX2 | squeeze | squeezeX2 => simp [Instr.op] at h
  | _ => rfl

/-- Two undisturbed runs with the same operands and the same source bytes compute the same for a stream, if the lanes are the
same too or do not matter. -/
theorem result_congr {i : Instr} {s s' : State} {e : StreamId} (ho : s.operands = s'.operands) (hu : s.Undisturbed)
    (hu' : s'.Undisturbed) (he : e ∈ i.streams)
    (hsrc : ∀ x ∈ (jobOf i s.operands).srcAddrs s.operands, s.mem.read x = s'.mem.read x)
    (hl : (i.op = .absorb ∨ i.op = .hash) ∨ s.lanes e = s'.lanes e) :
    (jobOf i s.operands).result s e = (jobOf i s.operands).result s' e := by
  have hmsg : s.dmaBytes e (s.operands.src e) (jobOf i s.operands).srcLen =
      s'.dmaBytes e (s.operands.src e) (jobOf i s.operands).srcLen := by
    rw [dmaBytes_of_undisturbed hu, dmaBytes_of_undisturbed hu']
    exact List.map_congr_left fun x hx =>
      hsrc x (mem_srcAddrs.2 ⟨e, by rwa [jobOf_streams], mem_addressesFrom.1 hx⟩)
  rw [Job.result, Job.result, ← ho, hmsg]
  rcases hl with hop | hl
  · exact work_lanes_irrelevant hop _ _ _ _
  · rw [hl]

/-- Settles O59: both runs finish, and each stream's lanes and output are its result. -/
theorem resultsDependOnOperandsAndMessage : Obligations.ResultsDependOnOperandsAndMessage := by
  intro i s s' hop ho hm hm' hu hu' hc hc' hb hb' hd hsrc hsq
  have hres (e) (he : e ∈ i.streams) : (jobOf i s.operands).result s e = (jobOf i s.operands).result s' e := by
    refine result_congr ho hu hu' he hsrc ?_
    rcases hop with h | h | h
    · exact .inl (.inl h)
    · obtain ⟨hA, hB⟩ := hsq h
      cases e with
      | a => exact .inr hA
      | b => exact .inr (hB (Instr.b_mem_streams.1 he))
    · exact .inl (.inr h)
  have hlanes (e) (he : e ∈ i.streams) :
      ((jobOf i s.operands).finish s).lanes e = ((jobOf i s'.operands).finish s').lanes e := by
    rw [finish_lanes he, finish_lanes he, hres e he, ho]
  refine ⟨_, _, exec_finish hc hb, exec_finish (ho ▸ hc') (ho ▸ hb'), hlanes .a i.a_mem_streams,
    fun hx => hlanes .b (Instr.b_mem_streams.2 hx), fun x hx => ?_⟩
  obtain ⟨e, he, hin⟩ := mem_dstAddrs.1 (mem_dstAddrs_iff_inDst.2 hx)
  rw [jobOf_streams] at he
  rw [finish_read_inRange hm hu.noneWritten hc hd he hin, Job.outByte, hres e he]
  rw [ho] at hc' hd hin ⊢
  rw [finish_read_inRange hm' hu'.noneWritten hc' hd he hin, Job.outByte]

end Sys2Proof.Machine

/-! PROOFS. The family 42_hash.md: the algorithm table, the one-shot output, what HASH leaves, and HASH as ABSORB and SQUEEZE. -/

namespace Sys2Proof

/-! ## The one-shot output (42_hash.md R191) -/

/-- The bytes of a partial block are the first of the whole block. -/
theorem Lanes.take_bytes (L : Lanes) {m n : Nat} (h : m ≤ n) : (L.bytes n).take m = L.bytes m := by
  rw [Lanes.bytes, ← List.map_take, List.take_range, Nat.min_eq_left h, Lanes.bytes]

theorem squeezeBytes_of_mod_eq_zero {R outlen : Nat} (h : outlen % R = 0) (L : Lanes) :
    squeezeBytes R outlen L = squeezeBlocks R (outlen / R) L := if_pos h

/-- An output of whole blocks is the blocks squeezed from the absorbed message. -/
theorem oneShot_of_whole_blocks {R : Nat} (hR : 0 < R) (ds : Byte) (n : Nat) (msg : List Byte) :
    oneShot R ds (n * R) msg = squeezeBlocks R n (absorbBytes R ds msg) := by
  rw [oneShot, squeezeBytes_of_mod_eq_zero (Nat.mul_mod_left n R), Nat.mul_div_cancel n hR]

/-- How many blocks hold `n` bytes: the whole ones, and one more where they do not divide evenly. -/
theorem ceilDiv_eq {R : Nat} (hR : 0 < R) (n : Nat) :
    (n + R - 1) / R = if n % R = 0 then n / R else n / R + 1 := by
  have hdm := Nat.div_add_mod' n R
  have hlt := Nat.mod_lt n hR
  split_ifs with h
  · exact Nat.div_eq_of_lt_le (by omega) (by rw [Nat.add_one_mul]; omega)
  · exact Nat.div_eq_of_lt_le (by rw [Nat.add_one_mul]; omega) (by rw [Nat.add_one_mul, Nat.add_one_mul]; omega)

/-- Squeezing bytes is squeezing the blocks that hold them, and dropping what is past the last byte. -/
theorem squeezeBytes_eq_take {R : Nat} (hR : 0 < R) (outlen : Nat) (L : Lanes) :
    squeezeBytes R outlen L =
      ((squeezeBlocks R ((outlen + R - 1) / R) L).1, (squeezeBlocks R ((outlen + R - 1) / R) L).2.take outlen) := by
  have hdm := Nat.div_add_mod' outlen R
  rw [ceilDiv_eq hR]
  by_cases h : outlen % R = 0
  · rw [squeezeBytes_of_mod_eq_zero h, if_pos h, List.take_of_length_le (by rw [length_squeezeBlocks]; omega)]
  · rw [squeezeBytes, if_neg h, if_neg h, squeezeBlocks_add, List.take_append, length_squeezeBlocks,
      List.take_of_length_le (by rw [length_squeezeBlocks]; omega), show outlen - outlen / R * R = outlen % R by omega]
    simp [squeezeBlocks, Lanes.take_bytes _ (Nat.mod_lt outlen hR).le]

/-- Settles O19: the output is the beginning of ceil(outlen / R) blocks. -/
theorem oneShotOutputLengthAndPermutations : Obligations.OneShotOutputLengthAndPermutations := by
  intro R ds outlen msg hR
  refine ⟨length_oneShot R ds outlen msg, ?_, fun k hk => ?_⟩
  · rw [oneShot, squeezeBytes_eq_take hR, squeezeBlocks_lanes]
  · have hblock : k / R < (outlen + R - 1) / R := by
      rw [← Nat.add_one_le_iff, ← Nat.add_div_right k hR]
      exact Nat.div_le_div_right (by omega)
    rw [← squeezeBlocks_getD R _ _ hblock (Nat.mod_lt k hR), Nat.div_add_mod' k R, oneShot, squeezeBytes_eq_take hR]
    simp [List.getD_eq_getElem?_getD, hk]

/-! ## The forms of a HASH (42_hash.md R190, R192) -/

/-- Settles O29: each row of the table, and the length a row fixes or leaves to OUTLEN. -/
theorem algorithmTable : Obligations.AlgorithmTable := fun _ =>
  ⟨rfl, rfl, rfl, rfl, rfl, rfl, rfl, rfl, rfl, rfl, rfl⟩

@[simp] theorem Instr.x2_hash (g : Alg) (x2 : Bool) : (Instr.hash g x2).x2 = x2 := by
  cases g <;> cases x2 <;> rfl

theorem algRow_rate_legal (g : Alg) : rateLegal (algRow g).rate = true := by cases g <;> rfl

theorem algRow_rate_pos (g : Alg) : 0 < (algRow g).rate := by cases g <;> decide

/-- The scalar and the dual form of ABSORB. -/
def Instr.absorbForm (x2 : Bool) : Instr := if x2 then .absorbX2 else .absorb

/-- The scalar and the dual form of SQUEEZE. -/
def Instr.squeezeForm (x2 : Bool) : Instr := if x2 then .squeezeX2 else .squeeze

theorem Instr.op_absorbForm (x2 : Bool) : (Instr.absorbForm x2).op = .absorb := by cases x2 <;> rfl

theorem Instr.op_squeezeForm (x2 : Bool) : (Instr.squeezeForm x2).op = .squeeze := by cases x2 <;> rfl

@[simp] theorem Instr.x2_absorbForm (x2 : Bool) : (Instr.absorbForm x2).x2 = x2 := by cases x2 <;> rfl

@[simp] theorem Instr.x2_squeezeForm (x2 : Bool) : (Instr.squeezeForm x2).x2 = x2 := by cases x2 <;> rfl

theorem Instr.streams_congr {i k : Instr} (h : i.x2 = k.x2) : i.streams = k.streams := by
  rw [Instr.streams, Instr.streams, h]

end Sys2Proof

namespace Sys2Proof.Machine

@[simp] theorem jobOf_hash (g : Alg) (x2 : Bool) (o : Operands) : jobOf (Instr.hash g x2) o = hashJob g x2 o := by
  cases g <;> cases x2 <;> rfl

/-! ## The bytes a finished command wrote -/

section Wrote
variable {i : Instr} {s : State}

/-- The output of a stream, read byte by byte from its destination range. -/
theorem finish_read_output (hm : s.mem.wf = true) (hnone : s.NoneWritten)
    (hc : (jobOf i s.operands).check s.params s.phase s.operands = none)
    (hd : i.x2 = true → dstDisjoint s.operands (jobOf i s.operands).dstLen) {e : StreamId} (he : e ∈ i.streams) {k : Nat}
    (hk : k < ((jobOf i s.operands).result s e).2.length) :
    ((jobOf i s.operands).finish s).mem.read (s.operands.dst e + k) = ((jobOf i s.operands).result s e).2.getD k 0 := by
  rw [length_result] at hk
  rw [finish_read_inRange hm hnone hc hd he (by omega), Job.outByte, Nat.add_sub_cancel_left]

/-- A finished scalar command wrote its output at DST_A, and nothing else. -/
theorem finish_wrote (hx : i.x2 = false) (hm : s.mem.wf = true) (hnone : s.NoneWritten)
    (hc : (jobOf i s.operands).check s.params s.phase s.operands = none) :
    Memory.Wrote s.mem ((jobOf i s.operands).finish s).mem (s.operands.dst .a) ((jobOf i s.operands).result s .a).2 := by
  refine ⟨fun k => finish_read_output hm hnone hc (by simp [hx]) i.a_mem_streams, fun x hout => ?_⟩
  rw [length_result] at hout
  refine finish_read_other hm hc fun e he => ?_
  cases e with
  | a => exact hout
  | b => rw [Instr.b_mem_streams, hx] at he; cases he

/-- A finished x2 command whose ranges do not overlap wrote each stream's output at its DST, and nothing else. -/
theorem finish_wroteBoth (hx : i.x2 = true) (hm : s.mem.wf = true) (hnone : s.NoneWritten)
    (hc : (jobOf i s.operands).check s.params s.phase s.operands = none)
    (hd : dstDisjoint s.operands (jobOf i s.operands).dstLen) :
    Memory.WroteBoth s.mem ((jobOf i s.operands).finish s).mem
      (s.operands.dst .a) ((jobOf i s.operands).result s .a).2
      (s.operands.dst .b) ((jobOf i s.operands).result s .b).2 := by
  have houtput (e) (he : e ∈ i.streams) (k) := finish_read_output (k := k) hm hnone hc (fun _ => hd) he
  refine ⟨houtput .a i.a_mem_streams, houtput .b (Instr.b_mem_streams.2 hx), fun x hA hB => ?_⟩
  rw [length_result] at hA hB
  refine finish_read_other hm hc fun e _ => ?_
  cases e with
  | a => exact hA
  | b => exact hB

end Wrote

/-! ## HASH (42_hash.md R193 to R200) -/

/-- A HASH with the datapath it needs and clear ranges meets no error: it uses neither RATE nor PHASE (42_hash.md R202). -/
theorem hash_check_and_bus {g : Alg} {x2 : Bool} {s : State} (hx : x2 = true → s.params.hasX2 = true)
    (hsrc : ∀ e ∈ (Instr.hash g x2).streams, RangeClear s.params .read (s.operands.src e) s.operands.len.toNat)
    (hdst : ∀ e ∈ (Instr.hash g x2).streams,
      RangeClear s.params .write (s.operands.dst e) (outputLength g s.operands)) :
    (jobOf (Instr.hash g x2) s.operands).check s.params s.phase s.operands = none ∧
      (jobOf (Instr.hash g x2) s.operands).BusClear s.params s.operands := by
  refine check_and_bus_of_ranges (by simpa using hx) (by simp [hashJob, Job.rateBad]) (by simp [hashJob, Job.seqBad])
    fun e he => ?_
  rw [jobOf_streams] at he
  rw [jobOf_hash]
  exact ⟨.inr (hsrc e he), .inr (hdst e he)⟩

/-- What a HASH computes for a stream. -/
def hashResult (g : Alg) (s : State) (e : StreamId) : Lanes × List Byte :=
  oneShot (algRow g).rate (algRow g).ds (outputLength g s.operands)
    (s.dmaBytes e (s.operands.src e) s.operands.len.toNat)

theorem result_hash (g : Alg) (x2 : Bool) (s : State) (e : StreamId) :
    (jobOf (Instr.hash g x2) s.operands).result s e = hashResult g s e := by
  rw [jobOf_hash]
  rfl

/-- A finished HASH, as the record of what it changes. -/
theorem finish_hash_eq (g : Alg) (x2 : Bool) (s : State) :
    (jobOf (Instr.hash g x2) s.operands).finish s = { s with
      s0 := (hashResult g s .a).1
      s1 := if x2 then (hashResult g s .b).1 else s.s1
      phase := if outputLength g s.operands = 0 then .absorbed else .squeezing
      eng := .idle, prog := .start, done := true, tick := s.tick + 1
      mem := ((jobOf (Instr.hash g x2) s.operands).finish s).mem
      hostStale := ((jobOf (Instr.hash g x2) s.operands).finish s).hostStale
      engineStale := ((jobOf (Instr.hash g x2) s.operands).finish s).engineStale } := by
  have hphase : (jobOf (Instr.hash g x2) s.operands).phase s.phase =
      if outputLength g s.operands = 0 then .absorbed else .squeezing := by rw [jobOf_hash]; rfl
  have h := finish_eq (Instr.hash g x2) s
  rwa [result_hash, result_hash, hphase, Instr.x2_hash] at h

/-- Settles O27: a clear HASH finishes, with its digest at DST_A. -/
theorem hashWritesTheDigest : Obligations.HashWritesTheDigest := by
  intro g s hm hnone hsrc hdst
  have hA (e) (h : e ∈ (Instr.hash g false).streams) : e = .a := by
    cases e with
    | a => rfl
    | b => simp at h
  obtain ⟨hc, hb⟩ := hash_check_and_bus (g := g) (x2 := false) (s := s) nofun (fun e h => hA e h ▸ hsrc)
    fun e h => hA e h ▸ hdst
  have hwrote := finish_wrote (Instr.x2_hash g false) hm hnone hc
  rw [result_hash] at hwrote
  exact ⟨_, exec_finish hc hb, finish_hash_eq g false s, hwrote, finish_stale_of_coherent⟩

/-- Settles O28: a clear HASH.X2 finishes, with each stream's digest at its own DST. -/
theorem hashX2WritesBothDigests : Obligations.HashX2WritesBothDigests := by
  intro g s hx hm hnone hsrcA hsrcB hdstA hdstB hd
  have hsrc (e) : RangeClear s.params .read (s.operands.src e) _ := match e with
    | .a => hsrcA
    | .b => hsrcB
  have hdst (e) : RangeClear s.params .write (s.operands.dst e) _ := match e with
    | .a => hdstA
    | .b => hdstB
  obtain ⟨hc, hb⟩ := hash_check_and_bus (g := g) (x2 := true) (fun _ => hx) (fun e _ => hsrc e) fun e _ => hdst e
  have hwrote := finish_wroteBoth (Instr.x2_hash g true) hm hnone hc (by rwa [jobOf_hash])
  rw [result_hash, result_hash] at hwrote
  exact ⟨_, exec_finish hc hb, finish_hash_eq g true s, hwrote, finish_stale_of_coherent⟩

/-! ## HASH as ABSORB and SQUEEZE (42_hash.md R203) -/

/-- Absorbing leads from `s` to `u`, as far as lanes, PHASE and memory go: the named streams hold the padded state of their
messages (41_sponge.md R153, R164). -/
structure Absorbed (streams : List StreamId) (R : Nat) (ds : Byte) (msg : StreamId → List Byte) (s u : State) : Prop where
  lanes : ∀ e ∈ streams, u.lanes e = absorbBytes R ds (msg e)
  otherLanes : ∀ e ∉ streams, u.lanes e = s.lanes e
  phase : u.phase = .absorbed
  mem : u.mem = s.mem

/-- The registers set for an ABSORB at a rate and with a separator. -/
def State.setAbsorb (s : State) (R : Nat) (ds : Byte) : State :=
  { s with regs := { s.regs with rate := BitVec.ofNat 8 R, ds := ds } }

theorem jobOf_of_absorb {i : Instr} (h : i.op = .absorb) (o : Operands) : jobOf i o = absorbJob i.x2 o := by
  cases i with
  | absorb | absorbX2 => rfl
  | _ => cases h

/-- RATE holds a legal rate. -/
theorem toNat_rate_of_legal {R : Nat} (h : rateLegal R = true) : (BitVec.ofNat 8 R).toNat = R := by
  have := rateLegal_iff.1 h
  exact Nat.mod_eq_of_lt (by omega)

@[simp] theorem dst_setAbsorb (s : State) (R : Nat) (ds : Byte) : (s.setAbsorb R ds).regs.dst = s.regs.dst := by
  funext e
  cases e <;> rfl

/-- What a command just accepted reads at an address: the byte in memory, or a replaced one the engine may still see. -/
theorem dmaByte_accept (s : State) (c : Word) (e : StreamId) (a : Nat) :
    (s.accept c).dmaByte e a = pickByte (s.mem.read a) (s.staleFor a) (Config.freePick s.tick .dmaRead e a) := rfl

/-- So what it reads depends neither on its word nor on RATE and DS. -/
theorem dmaBytes_accept_setAbsorb (s : State) (R : Nat) (ds : Byte) (c c' : Word) (e : StreamId) (a n : Nat) :
    ((s.setAbsorb R ds).accept c).dmaBytes e a n = (s.accept c').dmaBytes e a n :=
  List.map_congr_left fun x _ => (dmaByte_accept _ c e x).trans (dmaByte_accept s c' e x).symm

/-- An ABSORB issued on clear sources answers, and absorbs at the rate and separator set what any command accepted in its place
would read. -/
theorem issue_absorb {i : Instr} {s : State} {R : Nat} (hop : i.op = .absorb) (hx : i.x2 = true → s.params.hasX2 = true)
    (hlegal : rateLegal R = true) (ds : Byte) (c : Word)
    (hsrc : ∀ e ∈ i.streams, RangeClear s.params .read (s.regs.src e) s.regs.len.toNat) :
    ∃ u, (s.setAbsorb R ds).issue i = .next u ∧
      Absorbed i.streams R ds (fun e => (s.accept c).dmaBytes e (s.regs.src e) s.regs.len.toNat) s u ∧
      u.params = s.params ∧ u.regs = (s.setAbsorb R ds).regs := by
  let w := (s.setAbsorb R ds).accept (encode i)
  have hR : w.operands.rate.toNat = R := toNat_rate_of_legal hlegal
  have hexec := exec_absorb_clear (s := w) hop hx (by rwa [hR]) fun e he => by cases e <;> exact hsrc _ he
  have hlanes (e) : ((jobOf i w.operands).result w e).1 =
      absorbBytes R ds ((s.accept c).dmaBytes e (s.regs.src e) s.regs.len.toNat) := by
    have hsrcs : w.operands.src e = s.regs.src e := by cases e <;> rfl
    rw [← dmaBytes_accept_setAbsorb s R ds (encode i), ← hsrcs, ← hR, jobOf_of_absorb hop]
    rfl
  refine ⟨_, hexec, ⟨fun e he => ?_, fun e he => ?_, rfl, rfl⟩, rfl, rfl⟩
  · cases e with
    | a => exact hlanes .a
    | b => exact (if_pos (Instr.b_mem_streams.1 he)).trans (hlanes .b)
  · cases e with
    | a => exact absurd i.a_mem_streams he
    | b => exact if_neg fun h => he (Instr.b_mem_streams.2 h)

/-- A finished HASH of whole blocks has squeezed its absorbed messages. -/
theorem squeezed_finish_hash {g : Alg} {x2 : Bool} {s u : State} {n : Nat} (hm : s.mem.wf = true) (hnone : s.NoneWritten)
    (hc : (jobOf (Instr.hash g x2) s.operands).check s.params s.phase s.operands = none)
    (hd : x2 = true → dstDisjoint s.operands (outputLength g s.operands))
    (hn : outputLength g s.operands = n * (algRow g).rate)
    (hu : Absorbed (Instr.hash g x2).streams (algRow g).rate (algRow g).ds
      (fun e => s.dmaBytes e (s.operands.src e) s.operands.len.toNat) s u) :
    Squeezed (Instr.hash g x2).streams (algRow g).rate n s.operands.dst u
      ((jobOf (Instr.hash g x2) s.operands).finish s) := by
  have hlen : (jobOf (Instr.hash g x2) s.operands).dstLen = n * (algRow g).rate := by rw [jobOf_hash, ← hn]; rfl
  have hres (e) (he : e ∈ (Instr.hash g x2).streams) : (jobOf (Instr.hash g x2) s.operands).result s e =
      squeezeBlocks (algRow g).rate n (u.lanes e) := by
    rw [hu.lanes e he, result_hash, hashResult, hn, oneShot_of_whole_blocks (algRow_rate_pos g)]
  constructor
  case lanes => exact fun e he => (finish_lanes he).trans (by rw [hres e he])
  case otherLanes => exact fun e he => (finish_lanes_unnamed he).trans (hu.otherLanes e he).symm
  case phase =>
    have hzero : outputLength g s.operands = 0 ↔ n = 0 := by simp [hn, (algRow_rate_pos g).ne']
    rw [finish_hash_eq, hu.phase]
    simp only [hzero]
  case canonical => exact finish_wf hm hc
  case blocks =>
    intro e he x hin
    rw [← hlen] at hin
    rw [finish_read_inRange hm hnone hc (by rwa [Instr.x2_hash, hlen, ← hn]) he hin, Job.outByte, hres e he]
  case otherBytes =>
    intro x hout
    rw [← hlen] at hout
    rw [finish_read_other hm hc hout, hu.mem]

/-- A SQUEEZE to the addresses DST holds needs NBLOCKS set, and nothing else. -/
theorem setSqueeze_dst (s : State) (n : Nat) :
    s.setSqueeze n s.regs.dst = { s with regs := { s.regs with nblocks := BitVec.ofNat 64 n } } := by
  simp [State.setSqueeze, Operands.dst]

/-- HASH of `n` whole blocks on clear ranges that are apart leaves what ABSORB at its rate and separator and then SQUEEZE of `n`
blocks leave: both squeeze the same blocks from the same absorbed state, and what squeezing leaves is determined. -/
theorem issue_hash_eq_absorb_squeeze {g : Alg} {x2 : Bool} {s : State} {n : Nat} (hm : s.mem.wf = true)
    (hn : outputLength g s.regs = n * (algRow g).rate) (hx : x2 = true → s.params.hasX2 = true)
    (hsrc : ∀ e ∈ (Instr.hash g x2).streams, RangeClear s.params .read (s.regs.src e) s.regs.len.toNat)
    (hdst : ∀ e ∈ (Instr.hash g x2).streams, RangeClear s.params .write (s.regs.dst e) (outputLength g s.regs))
    (hd : x2 = true → dstDisjoint s.regs (outputLength g s.regs)) :
    ∃ t u v, s.issue (Instr.hash g x2) = .next t ∧
      (s.setAbsorb (algRow g).rate (algRow g).ds).issue (.absorbForm x2) = .next u ∧
      ({ u with regs := { u.regs with nblocks := BitVec.ofNat 64 n } } : State).issue (.squeezeForm x2) = .next v ∧
      (∀ e, v.lanes e = t.lanes e) ∧ v.phase = t.phase ∧ v.mem = t.mem ∧ t.regs = s.regs ∧
      v.regs = { s.regs with
        rate := BitVec.ofNat 8 (algRow g).rate, ds := (algRow g).ds, nblocks := BitVec.ofNat 64 n } := by
  have hlegal := algRow_rate_legal g
  have habsorb : (Instr.absorbForm x2).streams = (Instr.hash g x2).streams := Instr.streams_congr (by simp)
  have hsqueeze : (Instr.squeezeForm x2).streams = (Instr.hash g x2).streams := Instr.streams_congr (by simp)
  obtain ⟨hc, hb⟩ := hash_check_and_bus (s := s.accept (encode (Instr.hash g x2))) hx hsrc hdst
  have ht := exec_finish hc hb
  obtain ⟨u, hu, habs, hparams, huregs⟩ := issue_absorb (Instr.op_absorbForm x2) (by simpa using hx) hlegal (algRow g).ds
    (encode (Instr.hash g x2)) (habsorb ▸ hsrc)
  rw [habsorb] at habs
  have hrate : u.regs.rate.toNat = (algRow g).rate := by rw [huregs]; exact toNat_rate_of_legal hlegal
  have hudst : u.regs.dst = s.regs.dst := by rw [huregs, dst_setAbsorb]
  obtain ⟨v, hv, hvsq, -⟩ := issue_squeeze (n := n) (dst := u.regs.dst) (Instr.op_squeezeForm x2)
    (by simpa [hparams] using hx) (habs.mem ▸ hm) hrate hlegal (by simp [habs.phase]) (by simp [habs.phase])
    (by rwa [hsqueeze, hparams, hudst, ← hn]) (apart_iff.2 (by rwa [Instr.x2_squeezeForm, hudst, ← hn]))
  rw [hsqueeze, hudst] at hvsq
  rw [setSqueeze_dst] at hv
  obtain ⟨hlanes, hphase, hmem⟩ := hvsq.unique (squeezed_finish_hash (s := s.accept _) hm rfl hc hd hn { habs with })
  refine ⟨_, u, v, ht, hu, hv, hlanes, hphase, hmem, (exec_commandFrame ht).regs, ?_⟩
  rw [(exec_commandFrame hv).regs, State.accept_regs, huregs]
  rfl

/-- Settles O57: the ranges the HASH names are clear and apart. -/
theorem hashIsAbsorbThenSqueeze : Obligations.HashIsAbsorbThenSqueeze := by
  intro g x2 s hm _ hmod hsrcA hdstA hB
  have hn := (Nat.div_mul_cancel (Nat.dvd_of_mod_eq_zero hmod)).symm
  have hsrc (e) (he : e ∈ (Instr.hash g x2).streams) : RangeClear s.params .read (s.regs.src e) s.regs.len.toNat := by
    cases e with
    | a => exact hsrcA
    | b => exact (hB (by simpa using he)).2.1
  have hdst (e) (he : e ∈ (Instr.hash g x2).streams) :
      RangeClear s.params .write (s.regs.dst e) (outputLength g s.regs) := by
    cases e with
    | a => exact hdstA
    | b => exact (hB (by simpa using he)).2.2.1
  obtain ⟨t, u, v, ht, hu, hv, hlanes, hphase, hmem, htregs, hvregs⟩ :=
    issue_hash_eq_absorb_squeeze hm hn (fun h => (hB h).1) hsrc hdst fun h => (hB h).2.2.2
  exact ⟨t, u, v, ht, hu, hv, hlanes .a, hlanes .b, hphase, hmem, htregs, by rw [htregs, hvregs]⟩

end Sys2Proof.Machine

/-! PROOFS. The family 43_register_access.md: what each move can do to the block, the invariant along every step, how a command
ends or waits, and the registers one by one. -/

namespace Sys2Proof.Machine

/-! ## The busy lock and the STATE registers (43_register_access.md R218, R225, R226) -/

theorem State.unlessBusy_of_busy {s : State} (h : s.busy = true) (t : State) : s.unlessBusy t = { s with ovr := true } :=
  if_pos h

theorem State.writeReg_state_of_exists {s : State} {e : StreamId} (h : laneExists s.params e = true) (v : Word) (i : Fin 25) :
    s.writeReg v (.state i e) = s.unlessBusy { s.setLane e i v with phase := .raw } := if_pos h

theorem State.writeReg_state_of_absent {s : State} {e : StreamId} (h : laneExists s.params e = false) (v : Word) (i : Fin 25) :
    s.writeReg v (.state i e) = s := if_neg (ne_true_of_eq_false h)

/-! ## Moves that leave the block alone (43_register_access.md R210) -/

theorem busy_eq_false_iff {s : State} : s.busy = false ↔ s.eng = .idle := by
  unfold State.busy
  cases s.eng <;> simp

/-- What a host or platform move that is neither a register write nor a reset keeps: every element of the block, with the
progress of a running command excepted, and what the invariant says of the DMA space and of a write left on the bus. -/
structure State.KeepsBlock (s t : State) : Prop where
  s0 : t.s0 = s.s0
  s1 : t.s1 = s.s1
  phase : t.phase = s.phase
  eng : t.eng = s.eng
  done : t.done = s.done
  err : t.err = s.err
  ovr : t.ovr = s.ovr
  errCode : t.errCode = s.errCode
  errAddr : t.errAddr = s.errAddr
  ie : t.ie = s.ie
  cmd : t.cmd = s.cmd
  regs : t.regs = s.regs
  resetIn : t.resetIn = s.resetIn
  progIdle : s.eng = .idle → t.prog = s.prog
  onBus : ∀ c, t.inFlight = some c → s.inFlight = some c
  memCanonical : s.mem.wf = true → (∀ c, s.inFlight = some c → c.1 < Memory.size) → t.mem.wf = true

theorem State.KeepsBlock.refl {s : State} : s.KeepsBlock s :=
  ⟨rfl, rfl, rfl, rfl, rfl, rfl, rfl, rfl, rfl, rfl, rfl, rfl, rfl, fun _ => rfl, fun _ => id, fun h _ => h⟩

/-- The engine's writes stay in the DMA space. -/
theorem keepsBlock_landWrites (how : Landing) (s : State) {ws : List DmaWrite} (hw : ∀ w ∈ ws, w.addr < Memory.size) :
    s.KeepsBlock (s.landWrites how ws) := by
  constructor
  case memCanonical => exact fun hm _ => landWrites_wf hm hw
  all_goals simp

theorem keepsBlock_hostStore (s : State) {a : Nat} (ha : a < Memory.size) (b : Byte) : s.KeepsBlock (s.hostStore a b) := by
  constructor
  case memCanonical => exact fun hm _ => hostStore_wf hm ha b
  case progIdle => exact fun h => by simp [State.hostStore, h]
  all_goals simp [State.hostStore]

theorem keepsBlock_hostLoad (s : State) (a : Nat) : s.KeepsBlock (s.hostLoad a) := by
  constructor
  case memCanonical => exact fun hm _ => mayWrite_wf hm a
  case progIdle => exact fun h => by simp [State.hostLoad, h]
  all_goals simp [State.hostLoad]

theorem keepsBlock_cleanSpan (s : State) (sp : Span) : s.KeepsBlock (s.cleanSpan sp) := by
  constructor
  case progIdle => exact fun h => by simp [State.cleanSpan, h]
  all_goals simp +contextual [State.cleanSpan]

theorem keepsBlock_landInFlight (s : State) : s.KeepsBlock s.landInFlight := by
  unfold State.landInFlight
  cases hf : s.inFlight with
  | none => exact .refl
  | some c =>
    obtain ⟨a, b⟩ := c
    constructor
    case memCanonical => exact fun hm hbus => Memory.wf_write b (mayWrite_wf (by simpa using hm) a) (hbus (a, b) hf)
    case progIdle => exact fun h => by simp [h]
    all_goals simp

/-! ## What one move can do -/

/-- Every move that answers a next state keeps the block, gives the engine its turn, writes a register outside reset, or
resets the block. -/
theorem take_next_cases {s t : State} {m : Move} (h : s.take m = .next t) :
    s.KeepsBlock t ∨ s.engineTurn = .next t ∨ (s.resetIn = false ∧ ∃ v r, t = s.writeReg v r) ∨
      ∃ level, t = { s.resetBlock with resetIn := level } := by
  cases m with
  | engine => exact .inr (.inl h)
  | regWrite addr size v =>
    obtain ⟨off, -, hr, -, -, rfl⟩ := access_next (next_of_guarded h)
    exact .inr (.inr (.inl ⟨hr, v, _, rfl⟩))
  | regRead addr size =>
    obtain ⟨off, -, -, -, -, rfl⟩ := access_next (next_of_guarded h)
    exact .inl { State.KeepsBlock.refl (s := s) with }
  | awaitIdle =>
    cases next_of_guarded (next_of_guarded h)
    exact .inl { State.KeepsBlock.refl (s := s) with }
  | memStore addr b =>
    obtain rfl := take_memStore h
    exact .inl (keepsBlock_hostStore s addr.isLt b)
  | memLoad addr =>
    obtain rfl := take_memLoad h
    exact .inl (keepsBlock_hostLoad s _)
  | cacheClean sp =>
    cases h
    exact .inl (keepsBlock_cleanSpan s sp)
  | cacheInvalidate sp =>
    cases h
    exact .inl { State.KeepsBlock.refl (s := s) with }
  | busLand =>
    cases h
    exact .inl (keepsBlock_landInFlight s)
  | resetAssert => exact .inr (.inr (.inr ⟨true, take_resetAssert h⟩))
  | powerCycle => exact .inr (.inr (.inr ⟨false, take_powerCycle h⟩))
  | resetRelease =>
    cases hr : s.resetIn with
    | true => exact .inr (.inr (.inr ⟨false, take_resetRelease hr h⟩))
    | false =>
      have h' := next_of_guarded h
      rw [if_neg (ne_true_of_eq_false hr)] at h'
      cases h'
      exact .inl .refl

/-- Outside reset, a busy engine's turn is the command its word decodes to (43_register_access.md R227). -/
theorem engineTurn_of_command {s : State} {c : Word} {ops : Operands} {i : Instr} (he : s.eng = .busy c ops)
    (hr : s.resetIn = false) (hd : decode c = .command i) : s.engineTurn = exec i s := by
  simp [State.engineTurn, he, hr, hd]

theorem engineTurn_of_illegal {s : State} {c : Word} {ops : Operands} {e : DecodeError} (he : s.eng = .busy c ops)
    (hr : s.resetIn = false) (hd : decode c = .illegal e) : s.engineTurn = .next (s.completeError .illegal 0) := by
  simp [State.engineTurn, he, hr, hd]

/-- The engine's turn changes nothing, runs a command, or completes with ERR_ILLEGAL. -/
theorem engineTurn_next_cases {s t : State} (h : s.engineTurn = .next t) :
    t = s ∨ (∃ i, exec i s = .next t) ∨ t = s.completeError .illegal 0 := by
  unfold State.engineTurn at h
  split at h
  · cases h
    exact .inl rfl
  · split at h
    · cases h
      exact .inl rfl
    · split at h
      · exact .inr (.inl ⟨_, h⟩)
      · cases h
        exact .inr (.inr rfl)

/-- A step is a move, taken off the schedule. -/
theorem step_eq_take (s : State) : ∃ m rest, step s = ({ s with moves := rest } : State).take m := by
  unfold step
  cases hm : s.moves with
  | nil => exact ⟨.engine, s.moves, rfl⟩
  | cons m rest => exact ⟨m, rest, rfl⟩

/-! ## The invariant along every step (10_state.md R34, R43; 60_exceptions.md R252) -/

section Invariant
variable {s t : State}

theorem State.Inv.of_keepsBlock (h : s.Inv) (k : s.KeepsBlock t) : t.Inv where
  memCanonical := k.memCanonical h.memCanonical h.onBusInSpace
  onBusInSpace c hc := h.onBusInSpace c (k.onBus c hc)
  snapshot c ops he := by
    rw [k.cmd, k.regs]
    exact h.snapshot c ops (k.eng ▸ he)
  idleStart he := by
    have hidle := k.eng ▸ he
    rw [k.progIdle hidle, h.idleStart hidle]
  busyNotDone hb := by
    rw [k.done]
    refine h.busyNotDone ?_
    rwa [State.busy, ← k.eng]
  resetIdle hr := by
    rw [k.eng]
    exact h.resetIdle (k.resetIn ▸ hr)
  errNone he := by
    rw [k.errCode, k.errAddr]
    exact h.errNone (k.err ▸ he)
  errSome he := by
    rw [k.errCode]
    exact h.errSome (k.err ▸ he)
  addrOnlyBus ha := by
    rw [k.errAddr]
    exact h.addrOnlyBus (k.errCode ▸ ha)

theorem State.Inv.complete (h : s.Inv) : s.complete.Inv :=
  { h with snapshot := nofun, idleStart := fun _ => rfl, busyNotDone := nofun, resetIdle := fun _ => rfl }

theorem State.Inv.recordError (h : s.Inv) {e : ErrCode} (he : e ≠ .none) (a : Word) : (s.recordError e a).Inv := by
  unfold State.recordError
  split
  · exact h
  · exact { h with errNone := nofun, errSome := fun _ => he, addrOnlyBus := fun ha => if_neg (ne_true_of_eq_false ha) }

theorem State.Inv.completeError (h : s.Inv) {e : ErrCode} (he : e ≠ .none) (a : Word) : (s.completeError e a).Inv :=
  (h.recordError he a).complete

theorem State.Inv.fail (h : s.Inv) (j : Job) {e : ErrCode} (he : e ≠ .none) (a : Nat) : (j.fail s e a).Inv :=
  State.Inv.completeError (s := { s with
    s0 := freeLanes s.tick .a, s1 := if j.x2 then freeLanes s.tick .b else s.s1, phase := .failed }) { h with } he _

/-- Every way a command can end, or wait, keeps the invariant. -/
theorem State.Inv.of_exec (h : s.Inv) {i : Instr} (ht : exec i s = .next t) : t.Inv := by
  obtain ⟨e, he, rfl⟩ | ⟨hc, ⟨a, -, -, rfl⟩ | rfl | ⟨-, ⟨a, -, -, rfl⟩ | rfl⟩⟩ := exec_next_cases ht
  · have hne : e ≠ .none := by rcases check_some he with rfl | rfl | rfl | rfl <;> decide
    exact h.completeError hne 0
  · exact h.fail _ (by decide) a
  · exact { h with }
  · exact (h.of_keepsBlock (keepsBlock_landWrites .cut s (pending_lt hc))).fail _ (by decide) a
  · exact State.Inv.complete { h.of_keepsBlock (keepsBlock_landWrites .whole s (pending_lt hc)) with }

theorem State.Inv.engineTurn (h : s.Inv) (ht : s.engineTurn = .next t) : t.Inv := by
  obtain rfl | ⟨i, hi⟩ | rfl := engineTurn_next_cases ht
  · exact h
  · exact h.of_exec hi
  · exact h.completeError (by decide) 0

theorem getD_mod_mem {α : Type} (a : α) (l : List α) (n : Nat) : (a :: l).getD (n % (l.length + 1)) a ∈ a :: l := by
  have hlt : n % (l.length + 1) < (a :: l).length := Nat.mod_lt n (Nat.succ_pos _)
  rw [List.getD_eq_getElem _ _ hlt]
  exact List.getElem_mem _

/-- A write left on the bus was there, or was one the abandoned command had still to make. -/
theorem leftOnBus_cases {c : Host.Cell} (h : s.leftOnBus = some c) :
    s.inFlight = some c ∨ ∃ w ∈ s.unfinishedWrites, c.1 = w.addr := by
  unfold State.leftOnBus at h
  split at h
  · exact .inl (by rw [← h]; assumption)
  · split at h
    · cases h
    · rename_i w ws hws
      split at h
      · obtain rfl := Option.some.inj h
        have hsub : w :: ws ⊆ s.unfinishedWrites := hws ▸ List.filter_sublist.subset
        exact .inr ⟨_, hsub (getD_mod_mem w ws _), rfl⟩
      · cases h

theorem State.Inv.resetBlock (h : s.Inv) (level : Bool) : State.Inv { s.resetBlock with resetIn := level } :=
  { invariantHoldsAtReset s.params with memCanonical := abandon_wf h.memCanonical, resetIdle := fun _ => rfl }

theorem State.Inv.softReset (h : s.Inv) : s.softReset.Inv := by
  refine { h.resetBlock s.resetIn with onBusInSpace := fun c hc => ?_ }
  rcases leftOnBus_cases hc with hf | ⟨w, hw, hcw⟩
  · exact h.onBusInSpace c hf
  · obtain ⟨-, -, -, -, -, -, -, hlt⟩ := mem_unfinishedWrites hw
    rwa [hcw]

/-- A STATUS write clears the error record as a whole or keeps it as a whole (43_register_access.md R216). -/
theorem clearFlags_error_cases (s : State) (v : Word) :
    ((s.clearFlags v).err = false ∧ (s.clearFlags v).errCode = .none ∧ (s.clearFlags v).errAddr = 0) ∨
    ((s.clearFlags v).err = s.err ∧ (s.clearFlags v).errCode = s.errCode ∧ (s.clearFlags v).errAddr = s.errAddr) := by
  simp only [State.clearFlags]
  cases v.getLsbD 2 <;> simp

theorem State.Inv.clearFlags (h : s.Inv) (v : Word) : (s.clearFlags v).Inv := by
  have hdone (hb : (s.clearFlags v).busy = true) : (s.clearFlags v).done = false := by simp [h.busyNotDone hb]
  obtain ⟨herr, hcode, haddr⟩ | ⟨herr, hcode, haddr⟩ := clearFlags_error_cases s v
  · exact { h with
      busyNotDone := hdone
      errNone := fun _ => ⟨hcode, haddr⟩
      errSome := fun he => nomatch herr.symm.trans he
      addrOnlyBus := fun _ => haddr }
  · refine { h with busyNotDone := hdone, errNone := ?_, errSome := ?_, addrOnlyBus := ?_ }
    · rw [herr, hcode, haddr]
      exact h.errNone
    · rw [herr, hcode]
      exact h.errSome
    · rw [hcode, haddr]
      exact h.addrOnlyBus

theorem State.Inv.unlessBusy (h : s.Inv) (ht : s.busy = false → t.Inv) : (s.unlessBusy t).Inv := by
  unfold State.unlessBusy
  split
  · exact { h with }
  · exact ht (eq_false_of_ne_true ‹_›)

theorem State.Inv.accept (h : s.Inv) (hr : s.resetIn = false) (c : Word) : (s.accept c).Inv :=
  { h with
    snapshot := fun _ _ he => by cases he; exact ⟨rfl, rfl⟩
    idleStart := nofun
    busyNotDone := fun _ => rfl
    resetIdle := fun hr' => absurd hr' (ne_true_of_eq_false hr) }

/-- While idle there is no snapshot for the parameter registers to agree with. -/
theorem State.Inv.setRegs (h : s.Inv) (hb : s.busy = false) (o : Operands) : State.Inv { s with regs := o } :=
  { h with snapshot := fun _ _ he => nomatch (busy_eq_false_iff.1 hb).symm.trans he }

theorem State.Inv.setLane (h : s.Inv) (e : StreamId) (i : Nat) (v : Word) :
    State.Inv { s.setLane e i v with phase := .raw } := by
  cases e <;> exact { h with }

theorem State.Inv.writeReg (h : s.Inv) (hr : s.resetIn = false) (v : Word) (r : Reg) : (s.writeReg v r).Inv := by
  cases r with
  | id | caps | errAddr | reserved => exact h
  | status => exact h.clearFlags v
  | cmd => exact h.unlessBusy fun _ => h.accept hr v
  | rate | ds | len | outlen | nblocks | srcA | srcB | dstA | dstB => exact h.unlessBusy fun hb => h.setRegs hb _
  | ctrl =>
    cases hv : v.getLsbD 1 with
    | true =>
      rw [State.writeReg_ctrl_srst s hv]
      exact h.softReset
    | false =>
      rw [State.writeReg_ctrl_ie s hv]
      exact { h with }
  | state i e =>
    cases hx : laneExists s.params e with
    | true =>
      rw [State.writeReg_state_of_exists hx]
      exact h.unlessBusy fun _ => h.setLane e i v
    | false =>
      rw [State.writeReg_state_of_absent hx]
      exact h

theorem State.Inv.take (h : s.Inv) {m : Move} (ht : s.take m = .next t) : t.Inv := by
  obtain hk | he | ⟨hr, v, r, rfl⟩ | ⟨level, rfl⟩ := take_next_cases ht
  · exact h.of_keepsBlock hk
  · exact h.engineTurn he
  · exact h.writeReg hr v r
  · exact h.resetBlock level

end Invariant

/-- Settles O10: a step is a move of one agent, and each kind of move keeps the invariant. -/
theorem stepKeepsInvariant : Obligations.StepKeepsInvariant := by
  intro s t h hstep
  obtain ⟨m, rest, hm⟩ := step_eq_take s
  exact State.Inv.take (s := { s with moves := rest }) { h with } (hm.symm.trans hstep)

/-! ## How a command ends, or waits (43_register_access.md R227, R228, R230) -/

@[simp] theorem fail_eng (j : Job) (s : State) (e : ErrCode) (a : Nat) : (j.fail s e a).eng = .idle := by simp [Job.fail]

@[simp] theorem finish_eng (j : Job) (s : State) : (j.finish s).eng = .idle := rfl

/-- Settles O5: the schedule gives the engine its turn, and the turn is the decoded command. -/
theorem stepRunsDecodedCommand : Obligations.StepRunsDecodedCommand := by
  intro s c ops i he hr hd
  refine ⟨fun hm => ?_, fun rest hm => ?_⟩
  · rw [step, hm]
    exact engineTurn_of_command he hr hd
  · rw [step, hm]
    exact engineTurn_of_command (s := { s with moves := rest }) he hr hd

/-- A command that passed its checks ends, or waits for an access that never gets its response. -/
theorem perform_ends_or_waits (j : Job) (s : State) :
    ((j.perform s).eng = .idle ∧ (j.perform s).done = true) ∨
    (j.perform s = s.hang ∧ ((∃ a ∈ j.srcAddrs s.operands, responds s.params a .read = false) ∨
      ∃ a ∈ j.dstAddrs s.operands, responds s.params a .write = false)) := by
  obtain ⟨a, -, -, h⟩ | ⟨hsilent, h⟩ | ⟨-, ⟨a, -, -, h⟩ | ⟨hsilent, h⟩ | ⟨-, h⟩⟩ := perform_cases j s
  · exact .inl (h ▸ ⟨fail_eng .., fail_done ..⟩)
  · exact .inr ⟨h, .inl hsilent⟩
  · exact .inl (h ▸ ⟨fail_eng .., fail_done ..⟩)
  · exact .inr ⟨h, .inr hsilent⟩
  · exact .inl (h ▸ ⟨finish_eng .., finish_done ..⟩)

theorem exec_perform {i : Instr} {s : State} (hc : (jobOf i s.operands).check s.params s.phase s.operands = none)
    (hd : (jobOf i s.operands).touchesDevice s.params s.operands = false) :
    exec i s = .next ((jobOf i s.operands).perform s) := by
  rw [exec_eq_runJob, runJob, hc, hd]
  rfl

/-- A command leaves the engine idle with DONE set, or changes nothing but the counter of free values. -/
theorem exec_ends_or_waits {i : Instr} {s t : State} (h : exec i s = .next t) :
    (t.eng = .idle ∧ t.done = true) ∨ t = s.hang := by
  rw [exec_eq_runJob] at h
  obtain ⟨e, -, h'⟩ | ⟨-, ⟨-, h'⟩ | ⟨-, h'⟩⟩ := runJob_cases (jobOf i s.operands) s
  · cases h'.symm.trans h
    exact .inl ⟨State.completeError_eng .., State.completeError_done ..⟩
  · cases h'.symm.trans h
  · cases h'.symm.trans h
    exact (perform_ends_or_waits _ s).imp_right (·.1)

/-- Settles O37: no access is refused, so the silent one keeps the command from ending, and waiting changes nothing. -/
theorem silentPlatformHangsTheEngine : Obligations.SilentPlatformHangsTheEngine := by
  intro i s c ops he hc hd hsrc hdst hsilent
  have hang : (jobOf i s.operands).perform s = s.hang := by
    obtain ⟨a, ha, hno, -⟩ | ⟨-, h⟩ | ⟨hr, ⟨a, ha, hno, -⟩ | ⟨-, h⟩ | ⟨hw, -⟩⟩ := perform_cases (jobOf i s.operands) s
    · simp [hsrc a ha] at hno
    · exact h
    · simp [hdst a ha] at hno
    · exact h
    · obtain ⟨a, ha, hno⟩ | ⟨a, ha, hno⟩ := hsilent
      · simp [(answers_iff.1 (hr a ha)).2] at hno
      · simp [(answers_iff.1 (hw a ha)).2] at hno
  exact ⟨s.hang, hang ▸ exec_perform hc hd, he, rfl, rfl, rfl, rfl, rfl, rfl, rfl, rfl⟩

/-- Settles O39: the two ways of `exec_ends_or_waits`. -/
theorem everyCompletionSetsDone : Obligations.EveryCompletionSetsDone := by
  intro i s t hb h
  obtain ⟨he, hd⟩ | rfl := exec_ends_or_waits h
  · exact .inl ⟨busy_eq_false_iff.2 he, hd⟩
  · exact .inr ⟨hb, rfl, rfl⟩

/-- On a platform without devices and silent addresses every command ends. -/
theorem exec_ends {s : State} (hr : s.params.silentReads = []) (hw : s.params.silentWrites = [])
    (hd : s.params.devices = []) (i : Instr) : ∃ t, exec i s = .next t ∧ t.eng = .idle ∧ t.done = true := by
  rw [exec_eq_runJob]
  obtain ⟨e, -, h⟩ | ⟨-, ⟨hdev, -⟩ | ⟨-, h⟩⟩ := runJob_cases (jobOf i s.operands) s
  · exact ⟨_, h, State.completeError_eng .., State.completeError_done ..⟩
  · simp [Job.touchesDevice, coversDevice, hd] at hdev
  · refine ⟨_, h, (perform_ends_or_waits _ s).resolve_right ?_⟩
    rintro ⟨-, ⟨a, -, hno⟩ | ⟨a, -, hno⟩⟩
    · simp [responds, hr] at hno
    · simp [responds, hw] at hno

theorem take_awaitIdle_of_inContract {s : State} (hc : s.outOfContract = false) (hr : s.resetIn = false) :
    s.take .awaitIdle = .next s.poll := by
  simp [State.take, hc, hr]

/-- Settles O60: an illegal word ends with its error, a command by `exec_ends`; a wait is one poll. -/
theorem everyAcceptedCommandEnds : Obligations.EveryAcceptedCommandEnds := by
  refine ⟨fun s hb hr hm hsr hsw hdev => ?_, fun s rest hm hr hc => ?_⟩
  · simp only [busy_eq_false_iff]
    have hstep : step s = s.engineTurn := by rw [step, hm]; rfl
    rw [hstep]
    cases he : s.eng with
    | idle => simp [busy_eq_false_iff.2 he] at hb
    | busy c ops =>
      cases hd : decode c with
      | command i =>
        rw [engineTurn_of_command he hr hd]
        exact exec_ends hsr hsw hdev i
      | illegal e =>
        rw [engineTurn_of_illegal he hr hd]
        exact ⟨_, rfl, State.completeError_eng .., State.completeError_done ..⟩
  · rw [step, hm]
    exact take_awaitIdle_of_inContract (s := { s with moves := rest }) hc hr

/-! ## The running command is left alone (43_register_access.md R218) -/

/-- The busy lock: a register write to a busy block clears flags, sets IE, resets the block, sets OVR or does nothing. -/
theorem writeReg_busy_cases {s : State} (hb : s.busy = true) (v : Word) (r : Reg) :
    s.writeReg v r = s ∨ s.writeReg v r = { s with ovr := true } ∨ s.writeReg v r = s.clearFlags v ∨
      s.writeReg v r = { s with ie := v.getLsbD 0 } ∨ s.writeReg v r = s.softReset := by
  cases r with
  | id | caps | errAddr | reserved => exact .inl rfl
  | status => exact .inr (.inr (.inl rfl))
  | cmd | rate | ds | len | outlen | nblocks | srcA | srcB | dstA | dstB => exact .inr (.inl (State.unlessBusy_of_busy hb _))
  | ctrl =>
    cases hv : v.getLsbD 1 with
    | true => exact .inr (.inr (.inr (.inr (State.writeReg_ctrl_srst s hv))))
    | false => exact .inr (.inr (.inr (.inl (State.writeReg_ctrl_ie s hv))))
  | state i e =>
    cases hx : laneExists s.params e with
    | true => exact .inr (.inl ((State.writeReg_state_of_exists hx v i).trans (State.unlessBusy_of_busy hb _)))
    | false => exact .inl (State.writeReg_state_of_absent hx v i)

/-- Settles O43: of the moves, those that keep the block, a waiting turn of the engine, and the register writes of
`writeReg_busy_cases` other than a soft reset leave the engine busy. -/
theorem runningCommandIsLeftAlone : Obligations.RunningCommandIsLeftAlone := by
  intro s t hb hstep ht
  obtain ⟨m, rest, hm⟩ := step_eq_take s
  obtain k | hturn | ⟨-, v, r, rfl⟩ | ⟨level, rfl⟩ := take_next_cases (hm.symm.trans hstep)
  · exact ⟨k.eng, k.regs, k.cmd, k.s0, k.s1, k.phase⟩
  · obtain rfl | ⟨i, hi⟩ | rfl := engineTurn_next_cases hturn
    · exact ⟨rfl, rfl, rfl, rfl, rfl, rfl⟩
    · obtain ⟨he, -⟩ | rfl := exec_ends_or_waits hi
      · simp [busy_eq_false_iff.2 he] at ht
      · exact ⟨rfl, rfl, rfl, rfl, rfl, rfl⟩
    · cases ht
  · obtain h | h | h | h | h := writeReg_busy_cases (s := { s with moves := rest }) hb v r
    all_goals rw [h] at ht ⊢
    iterate 4 exact ⟨rfl, rfl, rfl, rfl, rfl, rfl⟩
    cases ht
  · cases ht

/-! ## The parameter registers, CMD and the busy lock (43_register_access.md R217 to R221) -/

/-- Keeping eight bits is masking with 0xFF. -/
theorem setWidth_eight_setWidth (v : Word) : (v.setWidth 8).setWidth 64 = v &&& 0xFF := by
  refine BitVec.eq_of_toNat_eq ?_
  have hmask : v.toNat &&& (0xFF : Word).toNat = v.toNat % 2 ^ 8 := Nat.and_two_pow_sub_one_eq_mod v.toNat 8
  rw [BitVec.toNat_setWidth, BitVec.toNat_setWidth, BitVec.toNat_and, hmask]
  omega

/-- Settles O44: while idle the busy lock lets the write through. -/
theorem parameterRegistersReadBack : Obligations.ParameterRegistersReadBack := by
  intro s v hb
  have hopen (o : Operands) : s.unlessBusy { s with regs := o } = { s with regs := o } := State.unlessBusy_of_idle hb _
  have both {r : Reg} {t : State} {x : Word} (h : s.writeReg v r = t) (hx : t.readReg r = x) :
      s.writeReg v r = t ∧ (s.writeReg v r).readReg r = x := ⟨h, h ▸ hx⟩
  exact ⟨both (hopen _) (setWidth_eight_setWidth v), both (hopen _) (setWidth_eight_setWidth v), both (hopen _) rfl,
    both (hopen _) rfl, both (hopen _) rfl, both (hopen _) rfl, both (hopen _) rfl, both (hopen _) rfl, both (hopen _) rfl⟩

/-- Settles O46: the cases of the write that the busy lock stops, and those it never stops. -/
theorem busyLockDropsWrites : Obligations.BusyLockDropsWrites := by
  intro s v r hb
  refine ⟨?_, rfl, rfl⟩
  rintro (hr | ⟨i, e, rfl, hx⟩)
  · simp only [List.mem_cons, List.not_mem_nil, or_false] at hr
    rcases hr with rfl | rfl | rfl | rfl | rfl | rfl | rfl | rfl | rfl | rfl
    all_goals exact State.unlessBusy_of_busy hb _
  · rw [State.writeReg_state_of_exists hx]
    exact State.unlessBusy_of_busy hb _

/-- Settles O50: while idle a CMD write is `State.accept`. -/
theorem cmdWriteAcceptsTheWord : Obligations.CmdWriteAcceptsTheWord := fun _ v hb =>
  ⟨_, State.writeReg_cmd_of_idle hb v, rfl, rfl, rfl, rfl, rfl, rfl, rfl, rfl, rfl, rfl, rfl, rfl, rfl, rfl, rfl⟩

/-! ## The STATE window (43_register_access.md R223 to R226) -/

theorem readReg_state_of_busy {s : State} (hb : s.busy = true) (i : Fin 25) (e : StreamId) : s.readReg (.state i e) = 0 := by
  simp [State.readReg, hb]

theorem readReg_state_of_absent {s : State} {e : StreamId} (hx : laneExists s.params e = false) (i : Fin 25) :
    s.readReg (.state i e) = 0 := by
  simp [State.readReg, hx]

theorem readReg_state_of_idle {s : State} {e : StreamId} (hb : s.busy = false) (hx : laneExists s.params e = true) (i : Fin 25) :
    s.readReg (.state i e) = (s.lanes e).lane i := by
  simp [State.readReg, hb, hx]

/-- Writing one lane changes that lane of that stream alone. -/
theorem lane_setLane_state (s : State) (e f : StreamId) (i k : Fin 25) (v : Word) :
    ((s.setLane e i v).lanes f).lane k = if (k, f) = (i, e) then v else (s.lanes f).lane k := by
  have hlane (L : Lanes) : (L.setLane i v).lane k = if k = i then v else L.lane k := by
    rw [Lanes.lane_setLane L v i.isLt k.isLt]
    simp [Fin.ext_iff]
  cases e <;> cases f <;> simp [State.setLane, State.lanes, hlane]

/-- Settles O45: the three cases of a STATE register, absent, busy and idle. -/
theorem stateWindowReadsAndWritesLanes : Obligations.StateWindowReadsAndWritesLanes := by
  intro s v i e
  refine ⟨fun hb => readReg_state_of_busy hb i e,
    fun hx => ⟨readReg_state_of_absent hx i, State.writeReg_state_of_absent hx v i⟩, fun hb hx => ?_, rfl, rfl⟩
  have hw : s.writeReg v (.state i e) = { s.setLane e i v with phase := .raw } :=
    (State.writeReg_state_of_exists hx v i).trans (State.unlessBusy_of_idle hb _)
  have hlane (k : Fin 25) (f : StreamId) :
      ((s.writeReg v (.state i e)).lanes f).lane k = if (k, f) = (i, e) then v else (s.lanes f).lane k := by
    rw [hw, ← lane_setLane_state]
    cases f <;> rfl
  have hkeeps : (s.writeReg v (.state i e)).busy = s.busy ∧ (s.writeReg v (.state i e)).params = s.params := by
    rw [hw]
    cases e <;> exact ⟨rfl, rfl⟩
  refine ⟨readReg_state_of_idle hb hx i, ?_, fun k f hkf => (hlane k f).trans (if_neg hkf), ?_⟩
  · rw [readReg_state_of_idle (hkeeps.1.trans hb) (hkeeps.2 ▸ hx), hlane, if_pos rfl]
  · rw [hw]
    cases e <;> rfl

/-! ## ID, CAPS and the register map (10_state.md R30; 43_register_access.md R211 to R213) -/

theorem ofOffset_offset (r : Reg) : Reg.ofOffset r.offset = r := by
  cases r with
  | state i e =>
    have key : ∀ i : Fin 25, Reg.ofOffset (Reg.state i .a).offset = .state i .a ∧
      Reg.ofOffset (Reg.state i .b).offset = .state i .b := by decide
    cases e with
    | a => exact (key i).1
    | b => exact (key i).2
  | _ => rfl

theorem ofOffset_reserved {off : Nat} (h : 0x078 ≤ off ∧ off < 0x100 ∨ 0x290 ≤ off) : Reg.ofOffset off = .reserved := by
  unfold Reg.ofOffset
  iterate 16 rw [if_neg (by omega)]

theorem capsWord_fields (p : Params) : (capsWord p).getLsbD 0 = p.hasX2 ∧ (capsWord p).extractLsb' 1 7 = 0 ∧
    (capsWord p).extractLsb' 8 8 = BitVec.ofNat 8 p.roundsPerCycle.count ∧ (capsWord p).extractLsb' 16 48 = 0 := by
  unfold capsWord
  cases p.hasX2
  all_goals cases p.roundsPerCycle <;> decide

/-- Settles O47: a register that ignores writes keeps the whole state; the map by cases of the register. -/
theorem readOnlyAndReservedRegisters : Obligations.ReadOnlyAndReservedRegisters := by
  intro s v
  obtain ⟨h0, h1, h8, h16⟩ := capsWord_fields s.params
  refine ⟨fun r hr => ?_, rfl, rfl, h0, h1, h8, h16, rfl, ofOffset_offset, fun off _ h => ofOffset_reserved (by omega)⟩
  simp only [List.mem_cons, List.not_mem_nil, or_false] at hr
  rcases hr with rfl | rfl | rfl | rfl
  all_goals rfl

/-! ## STATUS and CTRL (43_register_access.md R214 to R216) -/

/-- A register read changes nothing but what the host holds from it. -/
theorem take_regRead_frame {s t : State} {addr : Word} {size : Nat} (h : s.take (.regRead addr size) = .next t) :
    t = { s with rdata := t.rdata } := by
  obtain ⟨off, -, -, -, -, rfl⟩ := access_next (next_of_guarded h)
  rfl

/-- Fields side by side are the fields ORed, each shifted to its place. -/
theorem setWidth_append_eq_or {m n : Nat} (x : BitVec m) (y : BitVec n) (w : Nat) :
    (x ++ y).setWidth w = y.setWidth w ||| (x.setWidth w <<< n) := by
  ext k hk
  simp only [BitVec.getElem_setWidth, BitVec.getLsbD_append, BitVec.getElem_or, BitVec.getElem_shiftLeft]
  by_cases h : k < n
  · simp [h]
  · simp [h, BitVec.getLsbD_of_ge y k (by omega)]

/-- STATUS as R215 draws it, from bit 63 down. -/
theorem statusWord_eq_fields (s : State) : s.statusWord =
    (0#40 ++ (s.errCode.code ++ (0#4 ++ (s.phase.code ++ (0#4 ++ (BitVec.ofBool s.ovr ++ (BitVec.ofBool s.err ++
      (BitVec.ofBool s.done ++ BitVec.ofBool s.busy)))))))).setWidth 64 := by
  simp only [setWidth_append_eq_or]
  simp only [State.statusWord, flagWord, BitVec.setWidth_zero, BitVec.zero_shiftLeft, BitVec.or_zero, Nat.reduceAdd]

/-- Settles O48: each bit and each slice of the word lies in one field. -/
theorem statusReadReturnsItsFields : Obligations.StatusReadReturnsItsFields := by
  intro s
  refine ⟨rfl, ?busy, ?done, ?err, ?ovr, ?_, ?_, ?_, ?_, ?_, fun _ _ _ => take_regRead_frame⟩
  all_goals rw [statusWord_eq_fields, BitVec.setWidth_eq]
  case busy | done | err | ovr =>
    simp only [BitVec.getLsbD_append]
    simp
  all_goals
    simp (disch := decide) only [BitVec.extractLsb'_append_eq_of_le, BitVec.extractLsb'_append_eq_of_add_le]
    exact BitVec.extractLsb'_eq_self

/-- Settles O49: a STATUS write clears what its bits name; SRST decides what a CTRL write does. -/
theorem statusAndCtrlWrites : Obligations.StatusAndCtrlWrites := by
  intro s v
  refine ⟨?_, State.writeReg_ctrl_ie s, State.writeReg_ctrl_srst s, ?_, ?_⟩
  · have hclear (a b : Bool) : (a && !b) = if b then false else a := by cases a <;> cases b <;> rfl
    simp only [State.writeReg_status, State.clearFlags, hclear]
  · simp [State.readReg, State.ctrlWord, flagWord]
  · have hflag (b : Bool) : (flagWord b).extractLsb' 1 63 = 0 := by cases b <;> decide
    exact hflag s.ie

end Sys2Proof.Machine

/-! PROOFS. The family 60_exceptions.md: the check order against its table, what each failed check does, a bus error, and the error
that is kept. -/

namespace Sys2Proof.Machine

/-! ## The job of a command, by its operation -/

/-- Each operation has one job, and its x2 form names the second stream (41_sponge.md R167). -/
theorem jobOf_cases (i : Instr) (o : Operands) :
    (i.op = .zero ∧ jobOf i o = zeroJob i.x2) ∨
    (i.op = .permute ∧ jobOf i o = permuteJob i.x2) ∨
    (i.op = .absorb ∧ jobOf i o = absorbJob i.x2 o) ∨
    (i.op = .squeeze ∧ jobOf i o = squeezeJob i.x2 o) ∨
    ∃ g, i.op = .hash ∧ i.fields.alg = g.code ∧ jobOf i o = hashJob g i.x2 o := by
  cases i with
  | zero | zeroX2 => exact .inl ⟨rfl, rfl⟩
  | permute | permuteX2 => exact .inr (.inl ⟨rfl, rfl⟩)
  | absorb | absorbX2 => exact .inr (.inr (.inl ⟨rfl, rfl⟩))
  | squeeze | squeezeX2 => exact .inr (.inr (.inr (.inl ⟨rfl, rfl⟩)))
  | _ => exact .inr (.inr (.inr (.inr ⟨_, rfl, rfl, rfl⟩)))

/-! ## The checks, one by one (60_exceptions.md R242) -/

/-- Check 3 is about ABSORB and SQUEEZE. -/
theorem rateBad_jobOf_iff {i : Instr} {o : Operands} :
    (jobOf i o).rateBad = true ↔ (i.op = .absorb ∨ i.op = .squeeze) ∧ rateLegal o.rate.toNat = false := by
  obtain ⟨hop, hj⟩ | ⟨hop, hj⟩ | ⟨hop, hj⟩ | ⟨hop, hj⟩ | ⟨g, hop, -, hj⟩ := jobOf_cases i o <;>
    simp [hop, hj, Job.rateBad, zeroJob, permuteJob, absorbJob, squeezeJob, hashJob]

/-- Check 4 is about SQUEEZE. -/
theorem seqBad_jobOf_iff {i : Instr} {o : Operands} {ph : Phase} :
    (jobOf i o).seqBad ph = true ↔ i.op = .squeeze ∧ (ph = .empty ∨ ph = .failed) := by
  obtain ⟨hop, hj⟩ | ⟨hop, hj⟩ | ⟨hop, hj⟩ | ⟨hop, hj⟩ | ⟨g, hop, -, hj⟩ := jobOf_cases i o <;>
    simp [hop, hj, Job.seqBad, zeroJob, permuteJob, absorbJob, squeezeJob, hashJob]

/-- A range of `n` bytes at `a`, or for a command of two streams at `b`, ends past 2^64 (60_exceptions.md R248). -/
def rangePast (x2 : Bool) (a b : Word) (n : Nat) : Bool :=
  decide (2 ^ 64 < a.toNat + n) || (x2 && decide (2 ^ 64 < b.toNat + n))

/-- An empty range passes nothing. -/
@[simp] theorem rangePast_zero (x2 : Bool) (a b : Word) : rangePast x2 a b 0 = false := by
  have hlt (c : Word) : ¬2 ^ 64 < c.toNat + 0 := by omega
  simp only [rangePast, hlt, decide_false, Bool.and_false, Bool.or_false]

/-- Check 5 looks at the source ranges and at the destination ranges. -/
theorem rangeBad_eq_rangePast (j : Job) (o : Operands) :
    j.rangeBad o = (rangePast j.x2 o.srcA o.srcB j.srcLen || rangePast j.x2 o.dstA o.dstB j.dstLen) := by
  simp only [Job.rangeBad, Job.streams, rangePast, Operands.src, Operands.dst]
  cases j.x2 with
  | false =>
    simp only [Bool.false_eq_true, if_false, List.any_cons, List.any_nil, Bool.or_false, Bool.false_and]
    rfl
  | true =>
    simp only [if_true, List.any_cons, List.any_nil, Bool.or_false, Bool.true_and]
    ac_rfl

/-- The bytes a HASH writes, by the ALG field of its word (42_hash.md R190, R201). -/
theorem outputLength_eq_by_code (g : Alg) (o : Operands) :
    (if g.code = 0 ∨ g.code = 1 then o.outlen.toNat else if g.code = 2 then 32 else 64) = outputLength g o := by
  cases g <;> rfl

/-- Check 5 is about the source of ABSORB and HASH and the destination of SQUEEZE and HASH. -/
theorem rangeBad_jobOf_iff {i : Instr} {o : Operands} :
    (jobOf i o).rangeBad o = true ↔
      (i.op = .absorb ∧ rangePast i.x2 o.srcA o.srcB o.len.toNat = true) ∨
      (i.op = .squeeze ∧ rangePast i.x2 o.dstA o.dstB (o.nblocks.toNat * o.rate.toNat) = true) ∨
      (i.op = .hash ∧ (rangePast i.x2 o.srcA o.srcB o.len.toNat = true ∨ rangePast i.x2 o.dstA o.dstB
        (if i.fields.alg = 0 ∨ i.fields.alg = 1 then o.outlen.toNat else if i.fields.alg = 2 then 32 else 64) = true)) := by
  rw [rangeBad_eq_rangePast, jobOf_x2]
  obtain ⟨hop, hj⟩ | ⟨hop, hj⟩ | ⟨hop, hj⟩ | ⟨hop, hj⟩ | ⟨g, hop, hg, hj⟩ := jobOf_cases i o
  · simp [hop, hj, zeroJob]
  · simp [hop, hj, permuteJob]
  · simp [hop, hj, absorbJob]
  · simp [hop, hj, squeezeJob]
  · rw [hg, outputLength_eq_by_code]
    simp [hop, hj, hashJob]

theorem rateBad_jobOf_eq_false {i : Instr} {o : Operands}
    (h : (i.op = .absorb ∨ i.op = .squeeze) → rateLegal o.rate.toNat = true) : (jobOf i o).rateBad = false := by
  rw [Bool.eq_false_iff, Ne, rateBad_jobOf_iff]
  rintro ⟨hop, hR⟩
  rw [h hop] at hR
  cases hR

theorem seqBad_jobOf_eq_false {i : Instr} {ph : Phase} (h : i.op = .squeeze → ph ≠ .empty ∧ ph ≠ .failed) (o : Operands) :
    (jobOf i o).seqBad ph = false := by
  rw [Bool.eq_false_iff, Ne, seqBad_jobOf_iff]
  rintro ⟨hop, hp⟩
  exact hp.elim (h hop).1 (h hop).2

/-- What decides once check 2 has passed. -/
theorem check_of_datapath {i : Instr} {p : Params} (hx : i.x2 = true → p.hasX2 = true) (ph : Phase) (o : Operands) :
    (jobOf i o).check p ph o =
      if (jobOf i o).rateBad then some .rate else if (jobOf i o).seqBad ph then some .seq
      else if (jobOf i o).rangeBad o then some .range else none :=
  if_neg (by simpa using hx)

/-- A command that fails a check completes with its error and has no other effect (60_exceptions.md R243). -/
theorem exec_of_check {i : Instr} {s : State} {e : ErrCode}
    (h : (jobOf i s.operands).check s.params s.phase s.operands = some e) : exec i s = .next (s.failedCheck e) := by
  rw [exec_eq_runJob, runJob_check h, completeError_eq_failedCheck]

/-- Settles O32: check 3 fails, and check 2 does not. -/
theorem illegalRateIsAnError : Obligations.IllegalRateIsAnError := by
  intro i s hop hx hR
  have hlegal : rateLegal s.operands.rate.toNat = false := by
    rw [Bool.eq_false_iff, Ne, rateLegal_iff]
    omega
  exact exec_of_check (by rw [check_of_datapath hx, if_pos (rateBad_jobOf_iff.2 ⟨hop, hlegal⟩)])

/-- Settles O33: check 4 fails, and checks 2 and 3 do not. -/
theorem squeezeNeedsAPrimedState : Obligations.SqueezeNeedsAPrimedState := by
  intro i s hop hx hR hp
  have hrate : (jobOf i s.operands).rateBad = false := rateBad_jobOf_eq_false fun _ => hR
  have hseq : (jobOf i s.operands).seqBad s.phase = true := seqBad_jobOf_iff.2 ⟨hop, hp⟩
  exact exec_of_check (by rw [check_of_datapath hx, if_neg (ne_true_of_eq_false hrate), if_pos hseq])

/-- Settles O34: checks 2 to 4 pass, so check 5 decides. -/
theorem rangePastTheTopIsAnError : Obligations.RangePastTheTopIsAnError := by
  intro i s hx hR hp
  have hrate := rateBad_jobOf_eq_false hR
  have hseq := seqBad_jobOf_eq_false hp s.operands
  have hcheck : (jobOf i s.operands).check s.params s.phase s.operands =
      if (jobOf i s.operands).rangeBad s.operands then some .range else none := by
    rw [check_of_datapath hx, if_neg (ne_true_of_eq_false hrate), if_neg (ne_true_of_eq_false hseq)]
  refine ⟨fun hpast => exec_of_check (hcheck.trans (if_pos (rangeBad_iff.2 hpast))), fun hfit => hcheck.trans (if_neg ?_)⟩
  rw [rangeBad_iff]
  rintro ⟨e, he, hpast⟩
  have := hfit e he
  omega

/-! ## The check order against its table (60_exceptions.md R242) -/

/-- The table, on the word of a command, is the command's checks. -/
theorem expectedError_encode (p : Params) (ph : Phase) (o : Operands) (i : Instr) :
    expectedError p ph o (encode i) = (jobOf i o).check p ph o := by
  have hf := CommandFields.ofWord_encode i
  have hlegal : (CommandFields.ofWord (encode i)).legal = true := legal_iff_exists_encode.2 ⟨i, rfl⟩
  have hop : (encode i).extractLsb' 0 8 = i.op.code := congrArg CommandFields.op hf
  have hx2 : (encode i).getLsbD 8 = i.x2 := congrArg CommandFields.x2 hf
  have halg : (encode i).extractLsb' 16 2 = i.fields.alg := congrArg CommandFields.alg hf
  rw [expectedError, if_neg (ne_false_of_eq_true hlegal), hop, hx2, halg, Job.check]
  refine if_congr ?_ rfl (if_congr ?_ rfl (if_congr ?_ rfl (if_congr ?_ rfl rfl)))
  · simp
  · rw [rateBad_jobOf_iff]
    cases i.op <;> simp [Op.code]
  · rw [seqBad_jobOf_iff]
    cases i.op <;> simp [Op.code]
  · rw [rangeBad_jobOf_iff]
    cases i.op <;> simp [Op.code, rangePast]

/-- With nothing scheduled the engine has its turn (log 2). -/
theorem step_of_no_moves {s : State} (h : s.moves = []) : step s = s.engineTurn := by
  rw [step, h]
  rfl

/-- Settles O6: the word decodes to no command, so the engine's turn is the completion with ERR_ILLEGAL. -/
theorem illegalWordCompletesWithErrIllegal : Obligations.IllegalWordCompletesWithErrIllegal := by
  intro s c ops he hr hm hl
  obtain ⟨e, hd⟩ := CommandFields.decode_of_not_legal hl
  rw [step_of_no_moves hm, engineTurn_of_illegal he hr hd, completeError_eq_failedCheck]

/-- Settles O30: a word that is not legal fails the first check, and on the word of a command the table is its checks. -/
theorem checksInOrder : Obligations.ChecksInOrder := by
  intro s c ops he hr hm
  have ho : s.operands = ops := operands_of_busy he
  obtain ⟨i, rfl, hd⟩ | ⟨hl, -⟩ := decode_cases c
  · rw [expectedError_encode, step_of_no_moves hm, engineTurn_of_command he hr hd]
    subst ho
    cases hc : (jobOf i s.operands).check s.params s.phase s.operands with
    | some e => exact exec_of_check hc
    | none => exact ⟨i, hd, by rw [exec_eq_runJob, runJob, hc]⟩
  · rw [expectedError, if_pos hl]
    exact illegalWordCompletesWithErrIllegal s c ops he hr hm hl

/-! ## What a command leaves in the error record (60_exceptions.md R252) -/

/-- `t` holds the error record of `s`. -/
structure State.SameError (s t : State) : Prop where
  err : t.err = s.err
  errCode : t.errCode = s.errCode
  errAddr : t.errAddr = s.errAddr

theorem recordError_of_err {s : State} (h : s.err = true) (e : ErrCode) (a : Word) : s.recordError e a = s := if_pos h

theorem sameError_landWrites (how : Landing) (s : State) (ws : List DmaWrite) : s.SameError (s.landWrites how ws) := by
  constructor <;> simp

/-- A bus error is recorded as any other, over the record that stood when the command stopped. -/
theorem sameError_fail {s u : State} (h : s.SameError u) (j : Job) (e : ErrCode) (a : Nat) :
    (s.recordError e (BitVec.ofNat 64 a)).SameError (j.fail u e a) := by
  constructor <;> simp [Job.fail, h.err, h.errCode, h.errAddr]

/-- A command leaves the error record alone, or records the error of a failed check or a bus error. -/
theorem exec_error_cases {i : Instr} {s t : State} (h : exec i s = .next t) :
    s.SameError t ∨ ∃ e a, (s.recordError e a).SameError t ∧
      ((jobOf i s.operands).check s.params s.phase s.operands = some e ∨ e = .busRead ∨ e = .busWrite) := by
  obtain ⟨e, he, rfl⟩ | ⟨-, ⟨a, -, -, rfl⟩ | rfl | ⟨-, ⟨a, -, -, rfl⟩ | rfl⟩⟩ := exec_next_cases h
  · exact .inr ⟨e, 0, ⟨rfl, rfl, rfl⟩, .inl he⟩
  · exact .inr ⟨_, _, sameError_fail ⟨rfl, rfl, rfl⟩ _ _ a, .inr (.inl rfl)⟩
  · exact .inl ⟨rfl, rfl, rfl⟩
  · exact .inr ⟨_, _, sameError_fail (sameError_landWrites ..) _ _ a, .inr (.inr rfl)⟩
  · have hsame := sameError_landWrites .whole s ((jobOf i s.operands).pending s)
    exact .inl ⟨hsame.err, hsame.errCode, hsame.errAddr⟩

/-- Settles O38: recording over an error changes nothing. -/
theorem firstErrorIsKept : Obligations.FirstErrorIsKept := by
  intro i s t herr h
  have hkept : s.SameError t := by
    obtain hsame | ⟨e, a, hrec, -⟩ := exec_error_cases h
    · exact hsame
    · rwa [recordError_of_err herr] at hrec
  exact ⟨hkept.err.trans herr, hkept.errCode, hkept.errAddr⟩

/-- With the datapath no check names ERR_NO_X2 (60_exceptions.md R245). -/
theorem check_ne_noX2 {p : Params} (h : p.hasX2 = true) (i : Instr) (ph : Phase) (o : Operands) :
    (jobOf i o).check p ph o ≠ some .noX2 := by
  rw [check_of_datapath fun _ => h]
  split_ifs <;> simp

/-- Settles O31: check 2 alone records the code, and it fails exactly without the datapath. -/
theorem x2NeedsTheDatapath : Obligations.X2NeedsTheDatapath := by
  refine fun i s => ⟨exec_x2_without_datapath, fun hx hcode t h => ?_⟩
  obtain hsame | ⟨e, a, hrec, he⟩ := exec_error_cases h
  · rwa [hsame.errCode]
  · have hne : e ≠ .noX2 := by
      rintro rfl
      obtain hc | hc | hc := he
      · exact check_ne_noX2 hx _ _ _ hc
      · cases hc
      · cases hc
    rw [hrec.errCode, State.recordError_errCode]
    split
    · exact hcode
    · exact hne

/-! ## Bus errors (60_exceptions.md R249 to R251) -/

/-- Where no access of a kind is silent and one is refused, the command stops at a refused one. -/
theorem busOutcome_refused {s : State} {k : AccessKind} {as : List Nat}
    (hresp : ∀ a ∈ as, admits s.params a k = true → responds s.params a k = true)
    (hno : ∃ a ∈ as, admits s.params a k = false) :
    ∃ a ∈ as, s.busOutcome k as = .refused a ∧ admits s.params a k = false := by
  obtain ⟨-, hall⟩ | hrefused | ⟨-, a, ha, hyes, hsilent⟩ := busOutcome_cases s k as
  · obtain ⟨a, ha, hno⟩ := hno
    simp [(answers_iff.1 (hall a ha)).1] at hno
  · exact hrefused
  · simp [hresp a ha hyes] at hsilent

/-- The outcome of a command stopped by a bus error at `a`, but for the DMA space and the lanes it names. -/
structure State.BusError (x2 : Bool) (e : ErrCode) (a : Nat) (s t : State) : Prop where
  phase : t.phase = .failed
  eng : t.eng = .idle
  done : t.done = true
  err : t.err = true
  first : s.err = false → t.errCode = e ∧ t.errAddr = BitVec.ofNat 64 a
  kept : s.err = true → t.errCode = s.errCode ∧ t.errAddr = s.errAddr
  streamB : x2 = false → t.s1 = s.s1

theorem busError_fail {s u : State} (h : s.SameError u) (hs1 : u.s1 = s.s1) (j : Job) {e : ErrCode} (he : e.hasAddr = true)
    (a : Nat) : s.BusError j.x2 e a (j.fail u e a) := by
  obtain ⟨herr, hcode, haddr⟩ := sameError_fail h j e a
  constructor
  case phase => simp [Job.fail]
  case streamB => simp +contextual [Job.fail, hs1]
  all_goals simp +contextual [herr, hcode, haddr, he]

/-- Settles O35: the command stops at a refused read, before its first write. -/
theorem refusedReadStopsTheCommand : Obligations.RefusedReadStopsTheCommand := by
  intro i s hc hd hresp hno
  obtain ⟨a, ha, hbus, hadm⟩ := busOutcome_refused hresp hno
  have hperform : (jobOf i s.operands).perform s = (jobOf i s.operands).fail s .busRead a := by rw [Job.perform, hbus]
  have h := busError_fail (s := s) ⟨rfl, rfl, rfl⟩ rfl (jobOf i s.operands) (e := .busRead) rfl a
  rw [jobOf_x2] at h
  exact ⟨_, a, hperform ▸ exec_perform hc hd, ha, hadm, h.phase, fail_mem .., h.eng, h.done, h.err, h.first, h.kept, h.streamB⟩

/-- Settles O36: every read is answered, so the command stops at a refused write; of its writes some have landed, each admitted. -/
theorem refusedWriteStopsTheCommand : Obligations.RefusedWriteStopsTheCommand := by
  intro i s hm hc hd hread hresp hno
  let j := jobOf i s.operands
  obtain ⟨a, ha, hbus, hadm⟩ := busOutcome_refused hresp hno
  have hperform : j.perform s = j.fail (s.landWrites .cut (j.pending s)) .busWrite a := by
    rw [Job.perform, busOutcome_answered hread]
    simp only [j, hbus]
  have h := busError_fail (sameError_landWrites .cut s (j.pending s)) (by simp) j (e := .busWrite) rfl a
  rw [jobOf_x2] at h
  refine ⟨_, a, hperform ▸ exec_perform hc hd, ha, hadm, h.phase, h.eng, h.done, h.err, h.first, h.kept, h.streamB, fun x => ?_⟩
  rw [fail_mem]
  obtain hold | ⟨w, hw, rfl, hlands, hnew⟩ := landWrites_read (how := .cut) hm (pending_lt hc) x
  · exact .inl hold
  · exact .inr ⟨admits_of_lands hlands, w, (mem_pending.1 hw).1, rfl, hnew.symm⟩

end Sys2Proof.Machine

/-! PROOFS. The family 70_reset_and_hazards.md: the engine's turn while idle or in reset, and a reset while a command runs. -/

namespace Sys2Proof.Machine

/-! ## An idle engine, and the reset input (70_reset_and_hazards.md R270, R273) -/

theorem engineTurn_of_inReset {s : State} (h : s.resetIn = true) : s.engineTurn = .next s := if_pos h

/-- Settles O7: with nothing scheduled the step is the engine's turn, and reset leaves nothing scheduled and the engine idle. -/
theorem nothingRunsWhileIdle : Obligations.NothingRunsWhileIdle := by
  have hstays (s : State) (hm : s.moves = []) (h : s.eng = .idle ∨ s.resetIn = true) : step s = .next s := by
    rw [step_of_no_moves hm]
    obtain he | hr := h
    · exact engineTurn_of_idle (busy_eq_false_iff.2 he)
    · exact engineTurn_of_inReset hr
  exact ⟨hstays, hstays State.reset rfl (.inl rfl)⟩

/-! ## A reset while a command runs (70_reset_and_hazards.md R271) -/

/-- STATUS reads 0 after a reset, and with it DONE and ERR. -/
theorem State.BlockReset.done_err {s : State} (h : s.BlockReset) : s.done = false ∧ s.err = false := by
  obtain ⟨-, -, hdone, herr, -⟩ := statusReadReturnsItsFields s
  rw [h.statusZero] at hdone herr
  exact ⟨hdone.symm, herr.symm⟩

theorem State.abandon_of_idle {s : State} (h : s.busy = false) : s.abandon = s := by
  rw [State.abandon, State.unfinishedWrites, runningJob_of_idle (busy_eq_false_iff.1 h), landWrites_nil]

/-- Each byte an abandoned command leaves is the old one, or one it writes there in its destination ranges. -/
theorem State.abandon_read {s : State} (hm : s.mem.wf = true) (x : Nat) :
    s.abandon.mem.read x = s.mem.read x ∨
      ∃ c ops i, s.eng = .busy c ops ∧ decode c = .command i ∧ (jobOf i ops).inDst ops x = true ∧
        ∃ w ∈ (jobOf i ops).writes s, w.addr = x ∧ w.byte = s.abandon.mem.read x := by
  have hspace : ∀ w ∈ s.unfinishedWrites, w.addr < Memory.size := fun w hw => by
    obtain ⟨-, -, -, -, -, -, -, hlt⟩ := mem_unfinishedWrites hw
    exact hlt
  obtain hold | ⟨w, hw, rfl, -, hnew⟩ := landWrites_read (how := .cut) hm hspace x
  · exact .inl hold
  · obtain ⟨c, ops, i, he, hd, hin, hwrites, -⟩ := mem_unfinishedWrites hw
    exact .inr ⟨c, ops, i, he, hd, hin, w, hwrites, rfl, hnew.symm⟩

/-- A soft reset, the assertion of the reset input and a power cycle reset the block and abandon the command. -/
theorem reset_blockReset_and_abandon {s t : State} {v : Word}
    (h : (v.getLsbD 1 = true ∧ t = s.writeReg v .ctrl) ∨ s.take .resetAssert = .next t ∨ s.take .powerCycle = .next t) :
    t.BlockReset ∧ t.mem = s.abandon.mem := by
  obtain ⟨hv, rfl⟩ | h | h := h
  · rw [State.writeReg_ctrl_srst s hv]
    exact ⟨s.softReset_blockReset, rfl⟩
  · obtain rfl := take_resetAssert h
    exact ⟨s.resetBlock_blockReset_of_input true, rfl⟩
  · obtain rfl := take_powerCycle h
    exact ⟨s.resetBlock_blockReset_of_input false, rfl⟩

/-- Settles O53: the block is reset, and memory is what abandoning the command leaves. -/
theorem resetAbandonsTheCommand : Obligations.ResetAbandonsTheCommand := by
  intro s t v hinv h
  obtain ⟨hblock, hmem⟩ := reset_blockReset_and_abandon h
  obtain ⟨hdone, herr⟩ := hblock.done_err
  refine ⟨busy_eq_false_iff.2 hblock.engIdle, hdone, herr, hblock.irqLow,
    fun i hi => ⟨hblock.lanesA i hi, hblock.lanesB i hi⟩, fun hidle => ?_, fun x => ?_⟩
  · rw [hmem, State.abandon_of_idle hidle]
  · rw [hmem]
    exact State.abandon_read hinv.memCanonical x

end Sys2Proof.Machine
